-- ==== Sys2Proof/Word.lean ====
section
/-!
DEFINITION. The byte (00_scope.md R8): an 8-bit unsigned value, bits numbered 7 down to 0.
-/

namespace Sys2Proof

/-- A byte, 0x00..0xFF, always unsigned (R8). -/
abbrev Byte := BitVec 8

/-- Byte `i` of a sequence, counted from 0 as the first byte on the wire (R10).
Every rule reads inside the sequence; beyond its end the total function gives 0x00. -/
def byteAt (s : List Byte) (i : Nat) : Byte := s.getD i 0

end Sys2Proof
end

