-- ==== Sys2Proof/Machine/Checksum.lean ====
section
/-!
DEFINITION. The checksum primitive of 40_frame_codec.md R85 and the arithmetic of 00_scope.md R9: exact sums of bytes,
reduced mod 256 where a result is a byte. Also the constants of the frame layout (30_encoding.md R64, R65, R67).
-/

namespace Sys2Proof.Machine

/-- `neg8(v) = (256 - (v mod 256)) mod 256` (R9). -/
def neg8 (v : Nat) : Byte := BitVec.ofNat 8 ((256 - v % 256) % 256)

/-- The exact sum of the bytes of a sequence (R9). -/
def byteSum (s : List Byte) : Nat := (s.map BitVec.toNat).sum

/-- `Checksum(s)` of R85. -/
def checksum (s : List Byte) : Byte := neg8 (byteSum s)

/-- `ZeroSum(s)` of R85. -/
def zeroSum (s : List Byte) : Bool := byteSum s % 256 == 0

/-- `N_MAX_PAYLOAD`: the largest payload byte count of a command frame (00_scope.md R7, 30_encoding.md R65). -/
def maxPayload : Nat := 253

/-- `TFI_H2P` (00_scope.md R7, 30_encoding.md R67). -/
def tfiH2P : Byte := 0xD4

/-- PRE SOF0 SOF1 (30_encoding.md R64). -/
def frameStart : List Byte := [0x00, 0x00, 0xFF]

/-- POST, the postamble (30_encoding.md R64). -/
def postamble : Byte := 0x00

end Sys2Proof.Machine
end

