-- ==== Sys2Proof/Syntax.lean ====
section
/-!
DEFINITION. The operations of the block, one constructor per row of spec/opcode_table.json
(30_encoding.md R77, R79, R83), and the pseudo-operations of R81.
-/

namespace Sys2Proof

/-- The two public requests, the six internal operations with the operands of R79, and the five wire patterns
with the free bits of their rows. -/
inductive Instr where
  /-- SEND_COMMAND (R121): command byte and payload length; the buffer handle stands on the port beside the word. -/
  | sendCommand (cmd len : Byte)
  /-- RECEIVE_RESPONSE (R127): the requested length. -/
  | receiveResponse (len : Byte)
  /-- ENCODE (R86): its operands are the registers `cur_cmd`, `cur_len` and `cur_buf`. -/
  | encode
  /-- DECODE_HEADER (R88): its operands are the registers `rx_len` and `rx_lcs`. -/
  | decodeHeader
  /-- VERIFY_FOOTER (R90): `cmd = none` is "skip". -/
  | verifyFooter (tfi : Byte) (cmd : Option Byte) (data : List Byte) (dcs : Byte)
  /-- WAIT_READY (R96): the attempt bound, 0..65535. -/
  | waitReady (maxAttempts : BitVec 16)
  /-- READ_ACK (R102): no operand. -/
  | readAck
  /-- READ_RESPONSE (R108): its operands are the registers `cur_len` and `cur_buf`. -/
  | readResponse
  /-- The ACK frame 00 00 FF a b 00 (R71). -/
  | wireAckFrame (a b : Byte)
  /-- PRE SOF0 SOF1 = 00 00 FF (R64). -/
  | wireFrameStart
  /-- The Normal Information Frame 00 00 FF L C T K P.. D 00 (R64). -/
  | wireNormalInformationFrame (len lcs tfi cmd : Byte) (payload : List Byte) (dcs : Byte)
  /-- A status byte with RDY = 1; `rsv` is its bits 7:1 (R73). -/
  | wireStatusReady (rsv : BitVec 7)
  /-- A status byte with RDY = 0; `rsv` is its bits 7:1 (R73). -/
  | wireStatusNotReady (rsv : BitVec 7)
deriving DecidableEq, Repr

/-- `GetFirmwareVersion buf` is `SEND_COMMAND cmd=0x02, len=0, buf=buf` (R81). -/
def Instr.getFirmwareVersion : Instr := .sendCommand 0x02 0x00

/-- `ReadResponse len, buf` is `RECEIVE_RESPONSE len, buf` (R81). -/
def Instr.readResponseRequest (len : Byte) : Instr := .receiveResponse len

end Sys2Proof
end

