-- ==== Sys2Proof/Decode.lean ====
section
/-!
DEFINITION. The decoders and the encoder (30_encoding.md). The request word is read from the request port (R76 to R78);
the internal operations are named by their op codes (R77) and take the operands of R79, which no port encodes, so their
layout here is the model's own (log entry 14); the wire patterns are read from the transport (R64, R71, R73).
Every decoder is total and refuses by name.
-/

namespace Sys2Proof

/-- Where an encoding stands (the table's "port"). -/
inductive Port where
  /-- The 24-bit request word (R76). -/
  | request
  /-- The internal op code (R77) with the operands of R79. -/
  | internal
  /-- A one-byte status read (R73). -/
  | status
  /-- A six-byte ACK read (R71). -/
  | ack
  /-- The first three bytes of a frame (R64). -/
  | frameStart
  /-- A whole Normal Information Frame (R64). -/
  | frame
deriving DecidableEq, Repr

/-- Why bytes are no operation. -/
inductive DecodeError where
  /-- op 0x0, 0x3..0x7, 0xE, 0xF (R77), or no op code of an internal operation. -/
  | reservedOp
  /-- op 0x8..0xD on the request port (R77). -/
  | internalOp
  /-- `rsv ≠ 0` (R78). -/
  | reservedBits
  /-- RECEIVE_RESPONSE with `cmd ≠ 0x00` (R78). -/
  | cmdNotZero
  /-- The bytes end before the operation does. -/
  | tooShort
  /-- A VERIFY_FOOTER operand byte that says neither "skip" nor "present" (log entry 14). -/
  | badOperandForm
  /-- The constant bytes of a wire pattern do not stand where R64 or R71 put them. -/
  | notThePattern
  /-- A frame whose LEN is below 2 carries no command byte (R65). -/
  | lenTooSmall
deriving DecidableEq, Repr

/-! ## The request word (R76 to R78, R80) -/

/-- `op`, bits 3:0 (R76). -/
def requestOp (w : BitVec 24) : BitVec 4 := w.extractLsb' 0 4

/-- `rsv`, bits 7:4 (R76). -/
def requestRsv (w : BitVec 24) : BitVec 4 := w.extractLsb' 4 4

/-- `cmd`, bits 15:8 (R76). -/
def requestCmd (w : BitVec 24) : Byte := w.extractLsb' 8 8

/-- `len`, bits 23:16 (R76). -/
def requestLen (w : BitVec 24) : Byte := w.extractLsb' 16 8

/-- The op codes 0x8..0xD name internal operations (R77). -/
def isInternalOp (op : BitVec 4) : Bool := 0x8 ≤ op.toNat && op.toNat ≤ 0xD

/-- The request decoder: op, then rsv, then cmd (R78). The `len` check of R120 is by value, at acceptance. -/
def decodeRequest (w : BitVec 24) : Except DecodeError Instr :=
  if requestOp w = 0x1 then
    if requestRsv w = 0x0 then .ok (.sendCommand (requestCmd w) (requestLen w)) else .error .reservedBits
  else if requestOp w = 0x2 then
    if requestRsv w = 0x0 then
      if requestCmd w = 0x00 then .ok (.receiveResponse (requestLen w)) else .error .cmdNotZero
    else .error .reservedBits
  else if isInternalOp (requestOp w) then .error .internalOp
  else .error .reservedOp

/-- `req_word = zext_24(len) << 16 | zext_24(cmd) << 8 | op` (R80). -/
def assembleRequest (op : BitVec 4) (cmd len : Byte) : BitVec 24 :=
  (len.setWidth 24 <<< 16) ||| (cmd.setWidth 24 <<< 8) ||| op.setWidth 24

/-- The three bytes of a word, least significant first. The spec gives a 24-bit word on a port and no bytes: the order is the
model's (DESIGN CHOICE, log entry 33). -/
def wordBytes (w : BitVec 24) : List Byte :=
  [w.extractLsb' 0 8, w.extractLsb' 8 8, w.extractLsb' 16 8]

/-- The word of three bytes, least significant first (DESIGN CHOICE, log entry 33). -/
def bytesWord (b0 b1 b2 : Byte) : BitVec 24 := b2 ++ b1 ++ b0

/-! ## The internal operations (R77, R79) -/

/-- The op code of an internal operation is bits 3:0 of its first byte; the table's mask leaves the others free. -/
def internalOpCode (b : Byte) : BitVec 4 := b.extractLsb' 0 4

/-- The operands of VERIFY_FOOTER: tfi, 1 when cmd is present (0 for "skip"), cmd, dcs, m, then m data bytes. -/
def decodeVerifyFooter (bs : List Byte) : Except DecodeError (Instr × List Byte) :=
  match bs with
  | tfi :: form :: cmd :: dcs :: m :: rest =>
    if m.toNat ≤ rest.length then
      if form = 0x00 then .ok (.verifyFooter tfi none (rest.take m.toNat) dcs, rest.drop m.toNat)
      else if form = 0x01 then .ok (.verifyFooter tfi (some cmd) (rest.take m.toNat) dcs, rest.drop m.toNat)
      else .error .badOperandForm
    else .error .tooShort
  | _ => .error .tooShort

/-- The internal operations by op code (R77), with WAIT_READY's bound as two bytes, low byte first. -/
def decodeInternal (bs : List Byte) : Except DecodeError (Instr × List Byte) :=
  match bs with
  | [] => .error .tooShort
  | b :: rest =>
    match (internalOpCode b).toNat with
    | 0x8 => .ok (.encode, rest)
    | 0x9 => .ok (.decodeHeader, rest)
    | 0xA => decodeVerifyFooter rest
    | 0xB =>
      match rest with
      | lo :: hi :: rest' => .ok (.waitReady (hi ++ lo), rest')
      | _ => .error .tooShort
    | 0xC => .ok (.readAck, rest)
    | 0xD => .ok (.readResponse, rest)
    | _ => .error .reservedOp

/-! ## The wire patterns (R64, R71, R73) -/

/-- Bit 0 of a status byte (R73, R25). -/
def statusRdy (b : Byte) : Bool := b.getLsbD 0

/-- Bits 7:1 of a status byte, reserved and ignored (R73). -/
def statusRsv (b : Byte) : BitVec 7 := b.extractLsb' 1 7

/-- A status byte is ready exactly when `(s & 0x01) = 0x01` (R73). -/
def decodeStatus (b : Byte) : Instr :=
  if statusRdy b then .wireStatusReady (statusRsv b) else .wireStatusNotReady (statusRsv b)

/-- The status byte with the given bits 7:1 and RDY. -/
def statusByte (rsv : BitVec 7) (rdy : Bool) : Byte := rsv ++ BitVec.ofBool rdy

/-- The ACK frame 00 00 FF a b 00 (R71). -/
def decodeAck (bs : List Byte) : Except DecodeError (Instr × List Byte) :=
  match bs with
  | pre :: sof0 :: sof1 :: a :: b :: post :: rest =>
    if [pre, sof0, sof1] = Machine.frameStart ∧ post = Machine.postamble then .ok (.wireAckFrame a b, rest)
    else .error .notThePattern
  | _ => .error .tooShort

/-- PRE SOF0 SOF1 (R64). -/
def decodeFrameStart (bs : List Byte) : Except DecodeError (Instr × List Byte) :=
  match bs with
  | pre :: sof0 :: sof1 :: rest =>
    if [pre, sof0, sof1] = Machine.frameStart then .ok (.wireFrameStart, rest) else .error .notThePattern
  | _ => .error .tooShort

/-- A frame of n + 9 bytes (R64), its n read from LEN = n + 2 (R65). Its checksums are fields here: they are checked by
DECODE_HEADER and VERIFY_FOOTER. -/
def decodeFrame (bs : List Byte) : Except DecodeError (Instr × List Byte) :=
  match bs with
  | pre :: sof0 :: sof1 :: len :: lcs :: tfi :: cmd :: rest =>
    if [pre, sof0, sof1] = Machine.frameStart then
      if 2 ≤ len.toNat then
        match rest.drop (len.toNat - 2) with
        | dcs :: post :: rest' =>
          if post = Machine.postamble then
            .ok (.wireNormalInformationFrame len lcs tfi cmd (rest.take (len.toNat - 2)) dcs, rest')
          else .error .notThePattern
        | _ => .error .tooShort
      else .error .lenTooSmall
    else .error .notThePattern
  | _ => .error .tooShort

/-! ## The whole decoder and the encoder -/

/-- The decoder of a port: the operation the bytes begin with, and the bytes after it. -/
def decode (p : Port) (bs : List Byte) : Except DecodeError (Instr × List Byte) :=
  match p with
  | .request =>
    match bs with
    | b0 :: b1 :: b2 :: rest =>
      match decodeRequest (bytesWord b0 b1 b2) with
      | .ok i => .ok (i, rest)
      | .error e => .error e
    | _ => .error .tooShort
  | .internal => decodeInternal bs
  | .status =>
    match bs with
    | b :: rest => .ok (decodeStatus b, rest)
    | [] => .error .tooShort
  | .ack => decodeAck bs
  | .frameStart => decodeFrameStart bs
  | .frame => decodeFrame bs

/-- The port an operation's encoding stands on. -/
def portOf : Instr → Port
  | .sendCommand _ _ => .request
  | .receiveResponse _ => .request
  | .encode => .internal
  | .decodeHeader => .internal
  | .verifyFooter _ _ _ _ => .internal
  | .waitReady _ => .internal
  | .readAck => .internal
  | .readResponse => .internal
  | .wireAckFrame _ _ => .ack
  | .wireFrameStart => .frameStart
  | .wireNormalInformationFrame _ _ _ _ _ _ => .frame
  | .wireStatusReady _ => .status
  | .wireStatusNotReady _ => .status

/-- The bytes of an operation: the word of R80 for the requests (its bytes in the model's order, log entry 33), R77 and the
model's operand layout for the internal operations (log entry 14), R64, R71 and R73 for the wire patterns (byte 0 first). -/
def encode : Instr → List Byte
  | .sendCommand cmd len => wordBytes (assembleRequest 0x1 cmd len)
  | .receiveResponse len => wordBytes (assembleRequest 0x2 0x00 len)
  | .encode => [0x08]
  | .decodeHeader => [0x09]
  | .verifyFooter tfi none data dcs => [0x0A, tfi, 0x00, 0x00, dcs, BitVec.ofNat 8 data.length] ++ data
  | .verifyFooter tfi (some cmd) data dcs => [0x0A, tfi, 0x01, cmd, dcs, BitVec.ofNat 8 data.length] ++ data
  | .waitReady m => [0x0B, m.extractLsb' 0 8, m.extractLsb' 8 8]
  | .readAck => [0x0C]
  | .readResponse => [0x0D]
  | .wireAckFrame a b => Machine.frameStart ++ [a, b, Machine.postamble]
  | .wireFrameStart => Machine.frameStart
  | .wireNormalInformationFrame len lcs tfi cmd payload dcs =>
    Machine.frameStart ++ [len, lcs, tfi, cmd] ++ payload ++ [dcs, Machine.postamble]
  | .wireStatusReady rsv => [statusByte rsv true]
  | .wireStatusNotReady rsv => [statusByte rsv false]

/-! ## The table's words (log entry 16) -/

/-- Byte `k` of a number, byte 0 its least significant. -/
def numberByte (w k : Nat) : Byte := BitVec.ofNat 8 (w / 256 ^ k)

/-- The `n` bytes of a number, least significant first. -/
def bytesLow (w n : Nat) : List Byte := (List.range n).map (numberByte w)

/-- The `n` bytes of a number, most significant first: the order in which the table's wire patterns are written. -/
def bytesHigh (w n : Nat) : List Byte := (bytesLow w n).reverse

/-- The operation of a decoding that leaves nothing over. -/
def wholeInstr (r : Except DecodeError (Instr × List Byte)) : Option Instr :=
  match r with
  | .ok (i, []) => some i
  | _ => none

/-- The wire pattern of `nbits` bits, by its length (R63). -/
def decodeWireWord (nbits w : Nat) : Option Instr :=
  if nbits ≤ 8 then wholeInstr (decode .status (bytesHigh w 1))
  else if nbits = 24 then wholeInstr (decode .frameStart (bytesHigh w 3))
  else if nbits = 48 then wholeInstr (decode .ack (bytesHigh w 6))
  else wholeInstr (decode .frame (bytesHigh w (nbits / 8)))

/-- The operand bytes the table gives no bits are zeros: the five that precede VERIFY_FOOTER's data and the data its byte
`m` counts. -/
def operandZeros (w : Nat) : List Byte := List.replicate (5 + (numberByte w 5).toNat) 0x00

/-- The operation of a word numbered as the opcode table numbers it: a request word if the request port takes it, the
internal operation if its op code is one, a wire pattern otherwise. -/
def decodeTableWord (nbits w : Nat) : Option Instr :=
  match decodeRequest (BitVec.ofNat 24 w) with
  | .ok i => if w < 2 ^ 24 then some i else decodeWireWord nbits w
  | .error .internalOp =>
    match decode .internal (bytesLow w (nbits / 8) ++ operandZeros w) with
    | .ok (i, _) => some i
    | .error _ => none
  | .error _ => decodeWireWord nbits w

end Sys2Proof
end

