-- ==== Sys2Proof/Config.lean ====
section
/-!
DEFINITION. The parameters of 00_scope.md R7 and the free values of R11 and R12.
The parameters the spec leaves OPEN have no value here: `Config.params` is opaque, and every statement holds for every
value of them. A machine holds its parameters in its state (log entry 3), where no step changes them
(70_reset_and_hazards.md R156).
-/

namespace Sys2Proof

/-- `P_RESP_TIMEOUT_POLICY` (R7; 92_eei_decisions.md D11). -/
inductive TimeoutPolicy where
  | abort
  | readAnyway
deriving DecidableEq, Repr, Inhabited

/-- The OPEN parameters of R7. -/
structure Params where
  /-- Byte 3 of `P_ACK_PATTERN` (the default 0x00 is the spec's, from general knowledge). -/
  ackA3 : Byte
  /-- Byte 4 of `P_ACK_PATTERN` (the default 0xFF is the spec's, from general knowledge). -/
  ackA4 : Byte
  /-- `P_ACK_PREFIX`, in {0, 1}. -/
  ackPrefix : Fin 2
  /-- `P_RESP_PREFIX`, in {0, 1}. -/
  respPrefix : Fin 2
  /-- `P_MAX_ATTEMPTS_ACK`, in 0..65535. -/
  maxAttemptsAck : BitVec 16
  /-- `P_MAX_ATTEMPTS_RESP`, in 0..65535. -/
  maxAttemptsResp : BitVec 16
  /-- `P_RESP_TIMEOUT_POLICY`. -/
  respTimeoutPolicy : TimeoutPolicy
  /-- `P_SETTLE`; no rule reads it (44_protocol_fsm.md R123). -/
  settle : Nat
  /-- `P_ADDR_W`, the width of the bus address. -/
  addrW : Nat
  /-- `P_BUS_ADDR`, an address of `P_ADDR_W` bits. -/
  busAddrBits : BitVec addrW
  /-- `TFI_P2H`; no rule reads it (43_response_frame_parser.md R113). -/
  tfiP2H : Byte
deriving DecidableEq, Repr, Inhabited

/-- `P_BUS_ADDR` as a number: a name on the bus, below `2 ^ P_ADDR_W` by its type, never added, shifted or masked (R7). -/
def Params.busAddr (p : Params) : Nat := p.busAddrBits.toNat

/-- The parameters the machine is built with. No value: the spec leaves them OPEN (R7). -/
opaque Config.params : Params

/-- `draw()` (R11): the k-th free byte, under no law (R12). Applied to the counter `State.drawCount`. -/
opaque Config.draw : Nat → Byte

end Sys2Proof
end

