-- ==== Sys2Proof/Machine/State.lean ====
section
/-!
DEFINITION. The state of the block (10_state.md R20 to R38), the outcomes of a step, and the state after reset
(70_reset_and_hazards.md R153). Plain data throughout.
-/

namespace Sys2Proof.Machine

/-- A caller-buffer handle (20_memory.md R46): it names the bytes `base .. base + cap - 1` of the caller's memory.
No operation of the core computes with `cap`; it decides only which accesses the caller's memory admits (R47, R48). -/
structure BufHandle where
  base : Nat
  cap : Nat
deriving DecidableEq, Repr

/-- The caller's memory: (address, byte) pairs, addresses strictly rising, no pair equal to what an unlisted address
reads as. -/
abbrev Memory := List Host.Cell

/-- What an unlisted byte of the caller's memory reads as. DESIGN CHOICE, unsafe (log entry 8): the spec gives no contents
for a buffer the caller has not written. -/
def Memory.unlisted : Byte := 0x00

/-- One transaction on the transport port (10_state.md R35; 20_memory.md R51, R52). -/
inductive Txn where
  /-- `BusWrite(addr, bytes)`. -/
  | write (addr : Nat) (bytes : List Byte)
  /-- `BusRead(addr, count)`. -/
  | read (addr : Nat) (count : Nat)
deriving DecidableEq, Repr

/-- The states of `protocol_fsm` (10_state.md R22). -/
inductive FsmState where
  | idle | encoding | transmitting | settling | pollingAck | readingAck | acked | notAcked | timeout
  | pollingResp | readingResponse | valid | invalid
deriving DecidableEq, Repr

/-- The error results (60_exceptions.md R137). -/
inductive ErrorCode where
  | none | timeoutAck | ackMismatch | timeoutResp | hdrChecksum | dataChecksum
deriving DecidableEq, Repr

/-- The model faults of 60_exceptions.md R146, as the sticky fault record holds them. Each errs toward unprovable (safe). -/
inductive ModelFault where
  /-- F_ILLEGAL_OP: raised by the request port on an illegal word (30_encoding.md R78). Safe. -/
  | illegalOp
  /-- F_PAYLOAD_LEN: raised by a SEND_COMMAND with len > 253 at acceptance (44_protocol_fsm.md R120). Safe. -/
  | payloadLen
  /-- F_BUSY: raised by a request presented while the core is busy (44_protocol_fsm.md R119). Safe. -/
  | busy
  /-- F_BUF_RACE: raised by a caller's write to a borrowed buffer while busy (20_memory.md R58). Safe. -/
  | bufRace
  /-- F_UNWRITTEN: raised by nobody, since every register holds a value at reset (log entry 2). -/
  | unwritten
  /-- F_ILLEGAL_STATE: raised by a step whose `state` register holds 0xD to 0xF (10_state.md R23). Safe. -/
  | illegalState
deriving DecidableEq, Repr

/-- Why a step has no successor. -/
inductive Fault where
  /-- The run has ended in a recorded model fault (00_scope.md R11, 60_exceptions.md R146): raised by every step taken from
  a state whose fault record is set. Safe. -/
  | model (f : ModelFault)
  /-- A `BufRead` at or beyond the buffer's capacity has no step: the core is stuck (20_memory.md R47). Raised by ENCODE
  and by SEND_COMMAND in ENCODING. Safe. -/
  | stuckBufRead
  /-- A `BufWrite` at or beyond the buffer's capacity has no step: the core is stuck (20_memory.md R48). Raised by
  READ_RESPONSE, by RECEIVE_RESPONSE in READING_RESPONSE and by a reply frame. Safe. -/
  | stuckBufWrite
deriving DecidableEq, Repr

/-- Why an operation has no meaning. -/
inductive Refusal where
  /-- The operation has no meaning yet: raised only by an arm of `exec` (none is left). Safe. -/
  | notModelled (mnemonic : String)
deriving DecidableEq, Repr

/-- The state of the block and of the three ports around it. -/
structure State where
  /-- `state`, the FSM state register, the block's program counter (R22, R23). -/
  state : BitVec 4
  /-- `cur_op` (R20). -/
  curOp : BitVec 4
  /-- `cur_cmd` (R20). -/
  curCmd : Byte
  /-- `cur_len` (R20). -/
  curLen : Byte
  /-- `cur_buf` (R20). -/
  curBuf : BufHandle
  /-- `bus_addr` (R20, R32). Its `P_ADDR_W` bits are the bound that `RegisterInv` states and every step keeps
  (log entry 29). -/
  busAddr : Nat
  /-- `tx_frame` (R20). -/
  txFrame : List Byte
  /-- `att_cnt` (R20). -/
  attCnt : BitVec 16
  /-- `rdy` (R25). -/
  rdy : Bool
  /-- `ack_ok` (R25). -/
  ackOk : Bool
  /-- `rx_len` (R20). -/
  rxLen : Byte
  /-- `rx_lcs` (R20). -/
  rxLcs : Byte
  /-- `rx_tfi` (R20). -/
  rxTfi : Byte
  /-- `rx_dcs` (R20). -/
  rxDcs : Byte
  /-- `sum_acc` (R20). -/
  sumAcc : Byte
  /-- `remaining` (R20). -/
  remaining : Byte
  /-- `hdr_ok` (R25). -/
  hdrOk : Bool
  /-- `dcs_ok` (R25). -/
  dcsOk : Bool
  /-- `send_ok` (R27). -/
  sendOk : Bool
  /-- `recv_count` (R28). -/
  recvCount : Byte
  /-- `last_err` (R29, R137). -/
  lastErr : BitVec 4
  /-- `done` (R29). -/
  done : Bool
  /-- The response-poll timeout the core records (44_protocol_fsm.md R127, R128). DEDUCED (log entry 12). -/
  timedOut : Bool
  /-- `req_valid` (R33). -/
  reqValid : Bool
  /-- `req_word` (R33). -/
  reqWord : BitVec 24
  /-- `req_buf` (R33). -/
  reqBuf : BufHandle
  /-- The transport's answers to the transactions to come, oldest first: for each, the bytes delivered (20_memory.md R50,
  R52). An empty list: the transport has not answered. -/
  answers : List (List Byte)
  /-- The transactions completed so far, oldest first: the model's record of the transport port (R35, R38). -/
  busLog : List Txn
  /-- The caller's memory (20_memory.md R46, R49). -/
  mem : Memory
  /-- The sticky fault record (60_exceptions.md R146, R147). -/
  faultRecord : Option ModelFault
  /-- The parameters the machine was built with (00_scope.md R7). -/
  params : Params
  /-- How many free bytes have been drawn: the model's own counter (00_scope.md R11, R12). -/
  drawCount : Nat
deriving DecidableEq, Repr

/-- The state after reset (70_reset_and_hazards.md R153). Registers the spec leaves unspecified hold 0: DESIGN CHOICE,
unsafe (log entry 1). Nothing is presented, answered, written or recorded yet (log entries 4, 8, 11, 21). -/
def State.reset : State where
  state := 0x0
  curOp := 0x0
  curCmd := 0x00
  curLen := 0x00
  curBuf := ⟨0, 0⟩
  busAddr := Config.params.busAddr
  txFrame := []
  attCnt := 0x0000
  rdy := false
  ackOk := false
  rxLen := 0x00
  rxLcs := 0x00
  rxTfi := 0x00
  rxDcs := 0x00
  sumAcc := 0x00
  remaining := 0x00
  hdrOk := false
  dcsOk := false
  sendOk := false
  recvCount := 0x00
  lastErr := 0x0
  done := false
  timedOut := false
  reqValid := false
  reqWord := 0x000000
  reqBuf := ⟨0, 0⟩
  answers := []
  busLog := []
  mem := []
  faultRecord := none
  params := Config.params
  drawCount := 0

end Sys2Proof.Machine
end

