-- ==== Sys2Proof/Machine/Operands.lean ====
section
/-!
DEFINITION. The codes of the FSM states and of the errors (10_state.md R22, 60_exceptions.md R137), the operands of the
operations (30_encoding.md R79), the parameters a rule reads (00_scope.md R7), and the offsets of a reply (R69).
-/

namespace Sys2Proof.Machine

/-- The 4-bit code of an FSM state (R22). -/
def FsmState.code : FsmState → BitVec 4
  | .idle => 0x0
  | .encoding => 0x1
  | .transmitting => 0x2
  | .settling => 0x3
  | .pollingAck => 0x4
  | .readingAck => 0x5
  | .acked => 0x6
  | .notAcked => 0x7
  | .timeout => 0x8
  | .pollingResp => 0x9
  | .readingResponse => 0xA
  | .valid => 0xB
  | .invalid => 0xC

/-- The FSM state of a code; 0xD to 0xF are no state (R22, R23). -/
def FsmState.ofCode (c : BitVec 4) : Option FsmState :=
  match c.toNat with
  | 0x0 => some .idle
  | 0x1 => some .encoding
  | 0x2 => some .transmitting
  | 0x3 => some .settling
  | 0x4 => some .pollingAck
  | 0x5 => some .readingAck
  | 0x6 => some .acked
  | 0x7 => some .notAcked
  | 0x8 => some .timeout
  | 0x9 => some .pollingResp
  | 0xA => some .readingResponse
  | 0xB => some .valid
  | 0xC => some .invalid
  | _ => none

/-- The states of a SEND_COMMAND in progress (R121, R130). -/
def FsmState.inSend : FsmState → Bool
  | .encoding | .transmitting | .settling | .pollingAck | .readingAck | .acked | .notAcked | .timeout => true
  | .idle | .pollingResp | .readingResponse | .valid | .invalid => false

/-- The states of a RECEIVE_RESPONSE in progress (R127, R130). -/
def FsmState.inReceive : FsmState → Bool
  | .pollingResp | .readingResponse | .valid | .invalid => true
  | .idle | .encoding | .transmitting | .settling | .pollingAck | .readingAck | .acked | .notAcked | .timeout => false

/-- The code `last_err` takes (R137). -/
def ErrorCode.code : ErrorCode → BitVec 4
  | .none => 0x0
  | .timeoutAck => 0x1
  | .ackMismatch => 0x2
  | .timeoutResp => 0x3
  | .hdrChecksum => 0x4
  | .dataChecksum => 0x5

/-- The op code `cur_op` takes for SEND_COMMAND (30_encoding.md R77). -/
def opSend : BitVec 4 := 0x1

/-- The op code `cur_op` takes for RECEIVE_RESPONSE (30_encoding.md R77). -/
def opReceive : BitVec 4 := 0x2

/-- `P_ACK_PATTERN` (30_encoding.md R71). -/
def ackPattern (p : Params) : List Byte := frameStart ++ [p.ackA3, p.ackA4, postamble]

/-- The ACK read's count: `P_ACK_PREFIX + 6` (42_ack_validator.md R102). -/
def ackReadCount (p : Params) : Nat := p.ackPrefix.val + 6

/-- The reply read's count: `P_RESP_PREFIX + 8 + req` (30_encoding.md R69). -/
def replyReadCount (p : Params) (req : Nat) : Nat := p.respPrefix.val + 8 + req

/-- LEN of a reply, its status prefix dropped (R69, R109). -/
def replyLen (f : List Byte) : Byte := byteAt f 3

/-- LCS of a reply, its status prefix dropped (R69, R109). -/
def replyLcs (f : List Byte) : Byte := byteAt f 4

/-- TFI of a reply, its status prefix dropped (R69, R109). -/
def replyTfi (f : List Byte) : Byte := byteAt f 5

/-- D[0] .. D[req-1] of a reply, its status prefix dropped (R69, R110). -/
def replyData (f : List Byte) (req : Nat) : List Byte := (f.drop 6).take req

/-- DCS of a reply, its status prefix dropped (R69). -/
def replyDcs (f : List Byte) (req : Nat) : Byte := byteAt f (6 + req)

/-- Whether the caller's memory admits an access to index `i` of a buffer (20_memory.md R47, R48). -/
def BufHandle.admits (h : BufHandle) (i : Nat) : Bool := i < h.cap

/-- Whether it admits the accesses to indices 0 .. n-1, in index order. -/
def BufHandle.admitsAll (h : BufHandle) (n : Nat) : Bool := (List.range n).all h.admits

/-- Whether an address lies in the region a handle names (20_memory.md R46). -/
def BufHandle.covers (h : BufHandle) (a : Nat) : Bool := h.base ≤ a && a < h.base + h.cap

/-- The operation a busy core continues, by its FSM state (R118, R130): the request it latched. -/
def currentInstr (st : FsmState) (s : State) : Instr :=
  if st.inSend then .sendCommand s.curCmd s.curLen else .receiveResponse s.curLen

end Sys2Proof.Machine
end

