-- ==== Sys2Proof/Machine/Flags.lean ====
section
/-!
DEFINITION. Every flag and error computation: `rdy`, `ack_ok`, `hdr_ok`, `dcs_ok` (10_state.md R25) and `last_err`
(60_exceptions.md R137, R139).
-/

namespace Sys2Proof.Machine

/-- `rdy` after a status byte: its bit 0 (R25, R96). Bits 7:1 are discarded (R26). -/
def rdyOf (b : Byte) : Bool := statusRdy b

/-- `ack_ok` after the six bytes `f`: whether they equal `P_ACK_PATTERN` exactly (R105). -/
def ackOkOf (p : Params) (f : List Byte) : Bool := f == ackPattern p

/-- `hdr_ok`: `(LEN + LCS) mod 256 = 0` (R88). -/
def hdrOkOf (len lcs : Byte) : Bool := (len.toNat + lcs.toNat) % 256 == 0

/-- `remaining = (LEN + 255) mod 256`, written whether or not the header is valid (R88). -/
def remainingOf (len : Byte) : Byte := BitVec.ofNat 8 ((len.toNat + 255) % 256)

/-- `(acc + b) mod 256`, one update of the running checksum (R90). -/
def accumulate (acc b : Byte) : Byte := BitVec.ofNat 8 ((acc.toNat + b.toNat) % 256)

/-- `sum_acc` at the end of VERIFY_FOOTER: tfi, then cmd if present, then the data bytes in order, then dcs (R90). -/
def footerSum (tfi : Byte) (cmd : Option Byte) (data : List Byte) (dcs : Byte) : Byte :=
  let start := match cmd with
    | some c => accumulate tfi c
    | none => tfi
  accumulate (data.foldl accumulate start) dcs

/-- `dcs_ok`: the final sum is 0 (R90). -/
def dcsOkOf (sum : Byte) : Bool := sum == 0x00

/-- `last_err` of an INVALID completion (R129, R139): a noted timeout first, then the header, then the data checksum.
(With no timeout noted and both flags 1 the core is never in INVALID; the last line then gives E_DATA_CHECKSUM,
log entry 18.) -/
def receiveError (s : State) : ErrorCode :=
  if s.timedOut then .timeoutResp
  else if s.hdrOk then .dataChecksum
  else .hdrChecksum

end Sys2Proof.Machine
end

