-- ==== Sys2Proof/Machine/Memory.lean ====
section
/-!
DEFINITION. The caller's memory (20_memory.md R46 to R49): one byte at a time, in a canonical form.
-/

namespace Sys2Proof.Machine

/-- The byte at an address. -/
def Memory.read (m : Memory) (a : Nat) : Byte :=
  match m with
  | [] => Memory.unlisted
  | (a', b) :: rest => if a' = a then b else Memory.read rest a

/-- Whether every listed address is above `a`. -/
def Memory.above (a : Nat) (m : Memory) : Bool :=
  match m with
  | [] => true
  | (a', _) :: _ => a < a'

/-- The canonical form: addresses strictly rising, no entry equal to what an unlisted address reads as. -/
def Memory.wf (m : Memory) : Bool :=
  match m with
  | [] => true
  | (a, b) :: rest => Memory.above a rest && (b != Memory.unlisted) && Memory.wf rest

/-- Puts the pair in front unless an unlisted address reads the same. -/
def Memory.cons (a : Nat) (b : Byte) (m : Memory) : Memory := if b = Memory.unlisted then m else (a, b) :: m

/-- Stores a byte at an address and keeps the canonical form. -/
def Memory.write (m : Memory) (a : Nat) (b : Byte) : Memory :=
  match m with
  | [] => Memory.cons a b []
  | (a', b') :: rest =>
    if a < a' then Memory.cons a b ((a', b') :: rest)
    else if a' = a then Memory.cons a b rest
    else (a', b') :: Memory.write rest a b

/-- Stores bytes at consecutive addresses, in index order. -/
def Memory.writeAll (m : Memory) (a : Nat) (bs : List Byte) : Memory :=
  match bs with
  | [] => m
  | b :: rest => Memory.writeAll (Memory.write m a b) (a + 1) rest

end Sys2Proof.Machine
end

