-- ==== Sys2Proof/Machine/Update.lean ====
section
/-!
DEFINITION. The named updates of State: every write an operation makes goes through one of these.
-/

namespace Sys2Proof.Machine

/-- `state <- st` (00_scope.md R11). -/
def State.goto (s : State) (st : FsmState) : State := { s with state := st.code }

/-- `raise Fault(F)`: the fault is recorded and no register changes. The record is sticky: a fault already recorded stays
(60_exceptions.md R146, R147; log entry 10). -/
def State.raise (s : State) (f : ModelFault) : State := { s with faultRecord := some (s.faultRecord.getD f) }

/-- Acceptance latches the request's fields and clears `done` (44_protocol_fsm.md R119). The caller withdraws the accepted
request (log entry 11). -/
def State.latchRequest (s : State) (op : BitVec 4) (cmd len : Byte) : State :=
  { s with curOp := op, curCmd := cmd, curLen := len, curBuf := s.reqBuf, done := false, reqValid := false }

/-- `att_cnt <- n` (R96, R119, R123). -/
def State.loadAttempts (s : State) (n : BitVec 16) : State := { s with attCnt := n }

/-- `att_cnt <- att_cnt - 1` and `rdy <- r`: one status byte has been read (R96). -/
def State.countAttempt (s : State) (r : Bool) : State := { s with attCnt := s.attCnt - 1, rdy := r }

/-- `tx_frame <- f` (R86). -/
def State.setTxFrame (s : State) (f : List Byte) : State := { s with txFrame := f }

/-- `ack_ok <- b` (R102). -/
def State.setAckOk (s : State) (b : Bool) : State := { s with ackOk := b }

/-- `rx_len`, `rx_lcs`, `rx_tfi` and `rx_dcs` take the bytes of a reply (R108). -/
def State.latchReply (s : State) (len lcs tfi dcs : Byte) : State :=
  { s with rxLen := len, rxLcs := lcs, rxTfi := tfi, rxDcs := dcs }

/-- `hdr_ok` and `remaining` (R88). -/
def State.setHeader (s : State) (ok : Bool) (rem : Byte) : State := { s with hdrOk := ok, remaining := rem }

/-- `sum_acc` and `dcs_ok` (R90). -/
def State.setFooter (s : State) (sum : Byte) (ok : Bool) : State := { s with sumAcc := sum, dcsOk := ok }

/-- The core notes, or does not note, that the response poll timed out (R128). -/
def State.noteTimeout (s : State) (b : Bool) : State := { s with timedOut := b }

/-- The completion step of a SEND_COMMAND (R126): results latched, `done <- 1`, `state <- IDLE`. -/
def State.completeSend (s : State) (ok : Bool) (e : ErrorCode) : State :=
  { s with sendOk := ok, lastErr := e.code, done := true, state := FsmState.idle.code }

/-- The completion step of a RECEIVE_RESPONSE (R129): results latched, `done <- 1`, `state <- IDLE`. -/
def State.completeReceive (s : State) (count : Byte) (e : ErrorCode) : State :=
  { s with recvCount := count, lastErr := e.code, done := true, state := FsmState.idle.code }

/-- The transport's answers that remain. -/
def State.setAnswers (s : State) (as : List (List Byte)) : State := { s with answers := as }

/-- A transaction has completed on the transport port (10_state.md R35). -/
def State.logTxn (s : State) (t : Txn) : State := { s with busLog := s.busLog ++ [t] }

/-- `n` free bytes have been drawn (00_scope.md R11). -/
def State.advanceDraws (s : State) (n : Nat) : State := { s with drawCount := s.drawCount + n }

/-- The caller's memory after accesses. -/
def State.setMem (s : State) (m : Memory) : State := { s with mem := m }

end Sys2Proof.Machine
end

