-- ==== Sys2Proof/Machine/Ops.lean ====
section
/-!
DEFINITION. The primitives of 00_scope.md R11 over State: draws, buffer accesses (20_memory.md R47, R48), bus transactions
(R51, R52), and how an operation ends. The block has no trap entry and no return from one (60_exceptions.md R140, R141):
what an error takes is a completion step (`State.completeSend`, `State.completeReceive`), and what a contract violation takes
is `State.raise`, both in Update.lean.
-/

namespace Sys2Proof.Machine

/-- How an operation's step ends. -/
inductive OpRun where
  /-- The transport has not answered: the core holds (20_memory.md R50). -/
  | held
  /-- A buffer access is not admitted: the core has no step (20_memory.md R47, R48). -/
  | stuck (f : Fault)
  /-- The operation has run. -/
  | done (s : State)

/-- The outcome of a step whose operation ended as `r` from `s`: a hold leaves the state as it is (log entry 4), a stuck
access has no successor (log entry 9), and a completed operation is followed by `k`. -/
def finish (s : State) (r : OpRun) (k : State → State) : Host.Outcome State Fault Refusal :=
  match r with
  | .held => .next s
  | .stuck f => .fault f
  | .done t => .next (k t)

/-- `n` calls of `draw()`, the first the `k`-th of the run (00_scope.md R11, R12). -/
def draws (k n : Nat) : List Byte := (List.range n).map fun i => Config.draw (k + i)

/-- `BufRead(buf, i)` where it is admitted (20_memory.md R47). -/
def bufRead (s : State) (h : BufHandle) (i : Nat) : Byte := Memory.read s.mem (h.base + i)

/-- `BufRead(buf, 0)` to `BufRead(buf, n-1)`, in index order (R86). -/
def bufReads (s : State) (h : BufHandle) (n : Nat) : List Byte := (List.range n).map (bufRead s h)

/-- `BufWrite(buf, 0, v_0)`, `BufWrite(buf, 1, v_1)`, .. in index order, where they are admitted (20_memory.md R48). -/
def bufWrites (s : State) (h : BufHandle) (vs : List Byte) : State := s.setMem (Memory.writeAll s.mem h.base vs)

/-- The bytes of a read transaction of count `n` to which the transport delivered `d`: a byte not delivered is a draw
(20_memory.md R52); a byte beyond the count belongs to no `read()` (log entry 6). -/
def readBytes (s : State) (d : List Byte) (n : Nat) : List Byte :=
  d.take n ++ draws s.drawCount (n - (d.take n).length)

/-- The draws such a read takes. -/
def drawsTaken (d : List Byte) (n : Nat) : Nat := n - (d.take n).length

/-- `BusWrite(bus_addr, f)` (20_memory.md R51): it completes once the transport answers; whatever the answer holds is not
read (92_eei_decisions.md D19). -/
def busWrite (s : State) (f : List Byte) : OpRun :=
  match s.answers with
  | [] => .held
  | _ :: rest => .done ((s.setAnswers rest).logTxn (.write s.busAddr f))

/-- `BusRead(bus_addr, n)` (20_memory.md R52): exactly `n` bytes, or a hold. Every byte is read (70_reset_and_hazards.md
R157). -/
def busRead (s : State) (n : Nat) : Option (List Byte × State) :=
  match s.answers with
  | [] => none
  | d :: rest =>
    some (readBytes s d n, ((s.setAnswers rest).advanceDraws (drawsTaken d n)).logTxn (.read s.busAddr n))

end Sys2Proof.Machine
end

