-- ==== Sys2Proof/Machine/Ack.lean ====
section
/-!
DEFINITION. The ACK validator: READ_ACK (42_ack_validator.md).
-/

namespace Sys2Proof.Machine

/-- The six bytes after the prefix have been read: `ack_ok` says whether they equal `P_ACK_PATTERN` (R102, R105). -/
def ackArrives (f : List Byte) (s : State) : State := s.setAckOk (ackOkOf s.params f)

/-- READ_ACK (R102): one transaction of `P_ACK_PREFIX + 6` bytes, the prefix discarded unexamined (R103). -/
def readAckOp (s : State) : OpRun :=
  match busRead s (ackReadCount s.params) with
  | none => .held
  | some (a, t) => .done (ackArrives (a.drop s.params.ackPrefix.val) t)

/-- The meaning of READ_ACK (R102). -/
def execReadAck (s : State) : Host.Outcome State Fault Refusal := finish s (readAckOp s) id

end Sys2Proof.Machine
end

