-- ==== Sys2Proof/Machine/Codec.lean ====
section
/-!
DEFINITION. The frame codec: ENCODE, DECODE_HEADER, VERIFY_FOOTER (40_frame_codec.md).
-/

namespace Sys2Proof.Machine

/-- The command frame of R64 to R68: PRE SOF0 SOF1 LEN LCS TFI CMD P.. DCS POST. -/
def commandFrame (cmd : Byte) (p : List Byte) : List Byte :=
  let len : Byte := BitVec.ofNat 8 ((p.length + 2) % 256)
  frameStart ++ [len, neg8 len.toNat, tfiH2P, cmd] ++ p
    ++ [neg8 (tfiH2P.toNat + cmd.toNat + byteSum p), postamble]

/-- ENCODE (R86): each payload byte is read once, in index order; only `tx_frame` is written. -/
def encodeOp (s : State) : OpRun :=
  if s.curBuf.admitsAll s.curLen.toNat then
    .done (s.setTxFrame (commandFrame s.curCmd (bufReads s s.curBuf s.curLen.toNat)))
  else .stuck .stuckBufRead

/-- DECODE_HEADER (R88). -/
def decodeHeaderOp (s : State) : State := s.setHeader (hdrOkOf s.rxLen s.rxLcs) (remainingOf s.rxLen)

/-- VERIFY_FOOTER (R90). -/
def verifyFooterOp (tfi : Byte) (cmd : Option Byte) (data : List Byte) (dcs : Byte) (s : State) : State :=
  s.setFooter (footerSum tfi cmd data dcs) (dcsOkOf (footerSum tfi cmd data dcs))

/-- The meaning of ENCODE (R86). -/
def execEncode (s : State) : Host.Outcome State Fault Refusal := finish s (encodeOp s) id

/-- The meaning of DECODE_HEADER (R88). -/
def execDecodeHeader (s : State) : Host.Outcome State Fault Refusal := .next (decodeHeaderOp s)

/-- The meaning of VERIFY_FOOTER, cmd present or skipped (R90, R91). -/
def execVerifyFooter (tfi : Byte) (cmd : Option Byte) (data : List Byte) (dcs : Byte) (s : State) :
    Host.Outcome State Fault Refusal := .next (verifyFooterOp tfi cmd data dcs s)

end Sys2Proof.Machine
end

