-- ==== Sys2Proof/Machine/Parser.lean ====
section
/-!
DEFINITION. The response frame parser: READ_RESPONSE (43_response_frame_parser.md).
-/

namespace Sys2Proof.Machine

/-- The destination after a zero count: bytes 0 .. n-1 hold draws (R108, R114). -/
def scrubDestination (s : State) (n : Nat) : State :=
  (bufWrites s s.curBuf (draws s.drawCount n)).advanceDraws n

/-- The two checks of a reply whose header, TFI and DCS registers are latched (R108). -/
def checkReply (d : List Byte) (s : State) : State :=
  verifyFooterOp s.rxTfi none d s.rxDcs (decodeHeaderOp s)

/-- The destination after a reply: the data bytes where both checks passed, draws otherwise (R108, R114). -/
def deliverReply (d : List Byte) (s : State) : State :=
  if s.hdrOk && s.dcsOk then bufWrites s s.curBuf d else scrubDestination (bufWrites s s.curBuf d) d.length

/-- The header decoder and the payload multiplexer on the `8 + req` bytes after the prefix (R108 to R110). PRE, SOF0, SOF1
and POST are discarded (R113). -/
def parseReply (f : List Byte) (s : State) : OpRun :=
  let req := s.curLen.toNat
  if s.curBuf.admitsAll req then
    .done (deliverReply (replyData f req)
      (checkReply (replyData f req) (s.latchReply (replyLen f) (replyLcs f) (replyTfi f) (replyDcs f req))))
  else .stuck .stuckBufWrite

/-- READ_RESPONSE (R108): one transaction of `P_RESP_PREFIX + 8 + req` bytes, read to its end whatever the checks give
(R112). -/
def readResponseOp (s : State) : OpRun :=
  match busRead s (replyReadCount s.params s.curLen.toNat) with
  | none => .held
  | some (r, t) => parseReply (r.drop s.params.respPrefix.val) t

/-- The count READ_RESPONSE returns: all or nothing (R108, R111). -/
def replyCount (s : State) : Byte := if s.hdrOk && s.dcsOk then s.curLen else 0x00

/-- The meaning of READ_RESPONSE (R108). -/
def execReadResponse (s : State) : Host.Outcome State Fault Refusal := finish s (readResponseOp s) id

end Sys2Proof.Machine
end

