-- ==== Sys2Proof/Machine/Poller.lean ====
section
/-!
DEFINITION. The status poller: WAIT_READY (41_status_poller.md).
-/

namespace Sys2Proof.Machine

/-- How one iteration of the poll ends (R96). -/
inductive PollResult where
  /-- RDY = 1: READY. -/
  | ready
  /-- `att_cnt = 0`: NOT_READY, with no transaction. -/
  | notReady
  /-- RDY = 0: poll again. -/
  | again
  /-- The transport has not answered: the core holds. -/
  | held
deriving DecidableEq, Repr

/-- The effect of a status byte that has been read (R96): the attempt is counted whatever the byte, and RDY is latched. A
poll whose count is 0 reads no status byte (R94, R100), so nothing changes there. -/
def statusArrives (b : Byte) (s : State) : State := if s.attCnt = 0 then s else s.countAttempt (rdyOf b)

/-- One iteration of WAIT_READY's loop: at most one transaction of one status byte (R96). -/
def pollOnce (s : State) : PollResult × State :=
  if s.attCnt = 0 then (.notReady, s)
  else
    match busRead s 1 with
    | none => (.held, s)
    | some (r, t) => (if rdyOf (byteAt r 0) then .ready else .again, statusArrives (byteAt r 0) t)

/-- The loop of WAIT_READY, at most `n` iterations. -/
def pollLoop (n : Nat) (s : State) : PollResult × State :=
  match n with
  | 0 => (.again, s)
  | k + 1 =>
    match pollOnce s with
    | (.again, t) => pollLoop k t
    | r => r

/-- WAIT_READY(maxAttempts) (R96): the count is loaded, then the loop runs until READY, NOT_READY, or a transaction the
transport has not answered. Its at most maxAttempts reads and its exit make at most maxAttempts + 1 iterations. -/
def waitReadyOp (maxAttempts : BitVec 16) (s : State) : PollResult × State :=
  pollLoop (maxAttempts.toNat + 1) (s.loadAttempts maxAttempts)

/-- The step of `protocol_fsm` around one iteration (44_protocol_fsm.md R124, R128): READY and NOT_READY leave the polling
state, a status byte with RDY = 0 stays in it, a hold changes nothing. -/
def pollExit (r : PollResult × State) (onReady onNotReady : State → State) : State :=
  match r.1 with
  | .ready => onReady r.2
  | .notReady => onNotReady r.2
  | .again => r.2
  | .held => r.2

/-- The meaning of WAIT_READY: the whole operation (R96; log entry 24). -/
def execWaitReady (maxAttempts : BitVec 16) (s : State) : Host.Outcome State Fault Refusal :=
  .next (waitReadyOp maxAttempts s).2

end Sys2Proof.Machine
end

