-- ==== Sys2Proof/Machine/Wire.lean ====
section
/-!
DEFINITION. The wire patterns of opcode_table.json. A wire pattern is no operation of its own: its meaning is what the rule
its row names does with these bytes (30_encoding.md R83; log entry 15). A pattern the core reads has the register effects of
its having been read; a pattern ENCODE emits has the effect of its having been laid into `tx_frame`.
-/

namespace Sys2Proof.Machine

/-- The meaning of WIRE_ACK_FRAME: READ_ACK compares these six bytes (42_ack_validator.md R102). -/
def execWireAckFrame (a b : Byte) (s : State) : Host.Outcome State Fault Refusal :=
  .next (ackArrives (frameStart ++ [a, b, postamble]) s)

/-- The meaning of WIRE_FRAME_START: ENCODE lays PRE SOF0 SOF1 at offsets 0 to 2 of `tx_frame` (40_frame_codec.md R86,
R87). -/
def execWireFrameStart (s : State) : Host.Outcome State Fault Refusal :=
  .next (s.setTxFrame (frameStart ++ s.txFrame.drop 3))

/-- The bytes of a Normal Information Frame (30_encoding.md R64). -/
def frameBytes (len lcs tfi cmd : Byte) (payload : List Byte) (dcs : Byte) : List Byte :=
  frameStart ++ [len, lcs, tfi, cmd] ++ payload ++ [dcs, postamble]

/-- A reply of these bytes reaches the parser (R108): the `8 + req` bytes after the prefix, a byte not delivered a draw. -/
def replyArrives (f : List Byte) (s : State) : OpRun :=
  parseReply (readBytes s f (8 + s.curLen.toNat)) (s.advanceDraws (drawsTaken f (8 + s.curLen.toNat)))

/-- The meaning of WIRE_NORMAL_INFORMATION_FRAME: while READ_RESPONSE reads, the reply it parses
(43_response_frame_parser.md R108); otherwise the frame ENCODE lays into `tx_frame` (40_frame_codec.md R86). -/
def execWireNormalInformationFrame (len lcs tfi cmd : Byte) (payload : List Byte) (dcs : Byte) (s : State) :
    Host.Outcome State Fault Refusal :=
  if s.state = FsmState.readingResponse.code then
    finish s (replyArrives (frameBytes len lcs tfi cmd payload dcs) s) id
  else .next (s.setTxFrame (frameBytes len lcs tfi cmd payload dcs))

/-- The meaning of WIRE_STATUS_READY: WAIT_READY reads this status byte (41_status_poller.md R96). -/
def execWireStatusReady (rsv : BitVec 7) (s : State) : Host.Outcome State Fault Refusal :=
  .next (statusArrives (statusByte rsv true) s)

/-- The meaning of WIRE_STATUS_NOT_READY: WAIT_READY reads this status byte (41_status_poller.md R96). -/
def execWireStatusNotReady (rsv : BitVec 7) (s : State) : Host.Outcome State Fault Refusal :=
  .next (statusArrives (statusByte rsv false) s)

end Sys2Proof.Machine
end

