-- ==== Sys2Proof/Machine/ProtocolFsm.lean ====
section
/-!
DEFINITION. The protocol FSM: SEND_COMMAND and RECEIVE_RESPONSE (44_protocol_fsm.md). A request's meaning is its next step
(R118; log entry 13): acceptance in IDLE, then one step for each state of R121 or R127, the completion step last.
-/

namespace Sys2Proof.Machine

/-- Acceptance of a SEND_COMMAND (R119, R120). -/
def acceptSend (cmd len : Byte) (s : State) : State :=
  if maxPayload < len.toNat then s.raise .payloadLen
  else (s.latchRequest opSend cmd len).goto .encoding

/-- Acceptance of a RECEIVE_RESPONSE (R119). -/
def acceptReceive (len : Byte) (s : State) : State :=
  ((s.latchRequest opReceive 0x00 len).loadAttempts s.params.maxAttemptsResp).goto .pollingResp

/-- Steps 1 to 6 of SEND_COMMAND (R121). In any other state a SEND_COMMAND is a second request: F_BUSY (R119). -/
def sendStep (st : FsmState) (s : State) : Host.Outcome State Fault Refusal :=
  match st with
  | .encoding => finish s (encodeOp s) (·.goto .transmitting)
  | .transmitting => finish s (busWrite s s.txFrame) (·.goto .settling)
  | .settling => .next ((s.loadAttempts s.params.maxAttemptsAck).goto .pollingAck)
  | .pollingAck => .next (pollExit (pollOnce s) (·.goto .readingAck) (·.goto .timeout))
  | .readingAck => finish s (readAckOp s) fun t => t.goto (if t.ackOk then .acked else .notAcked)
  | .acked => .next (s.completeSend true .none)
  | .notAcked => .next (s.completeSend false .ackMismatch)
  | .timeout => .next (s.completeSend false .timeoutAck)
  | .idle | .pollingResp | .readingResponse | .valid | .invalid => .next (s.raise .busy)

/-- What the end of an unanswered response poll does, by `P_RESP_TIMEOUT_POLICY` (R128). -/
def responseTimeout (s : State) : State :=
  match s.params.respTimeoutPolicy with
  | .abort => (s.noteTimeout true).goto .invalid
  | .readAnyway => (s.noteTimeout false).goto .readingResponse

/-- Steps 1 to 3 of RECEIVE_RESPONSE (R127). In any other state a RECEIVE_RESPONSE is a second request: F_BUSY (R119). -/
def receiveStep (st : FsmState) (s : State) : Host.Outcome State Fault Refusal :=
  match st with
  | .pollingResp =>
    .next (pollExit (pollOnce s) (fun t => (t.noteTimeout false).goto .readingResponse) responseTimeout)
  | .readingResponse => finish s (readResponseOp s) fun t => t.goto (if t.hdrOk && t.dcsOk then .valid else .invalid)
  | .valid => .next (s.completeReceive s.curLen .none)
  | .invalid => .next (s.completeReceive 0x00 (receiveError s))
  | .idle | .encoding | .transmitting | .settling | .pollingAck | .readingAck | .acked | .notAcked | .timeout =>
    .next (s.raise .busy)

/-- The meaning of SEND_COMMAND (R119 to R126): accepted in IDLE; its next step while this very request is in progress;
a second request otherwise (R119). -/
def execSendCommand (cmd len : Byte) (s : State) : Host.Outcome State Fault Refusal :=
  match FsmState.ofCode s.state with
  | none => .next (s.raise .illegalState)
  | some .idle => .next (acceptSend cmd len s)
  | some st => if s.curCmd = cmd ∧ s.curLen = len then sendStep st s else .next (s.raise .busy)

/-- The meaning of RECEIVE_RESPONSE (R119, R127 to R129): accepted in IDLE; its next step while this very request is in
progress; a second request otherwise (R119). -/
def execReceiveResponse (len : Byte) (s : State) : Host.Outcome State Fault Refusal :=
  match FsmState.ofCode s.state with
  | none => .next (s.raise .illegalState)
  | some .idle => .next (acceptReceive len s)
  | some st => if s.curLen = len then receiveStep st s else .next (s.raise .busy)

end Sys2Proof.Machine
end

