-- ==== Sys2Proof/Machine/Dispatch.lean ====
section
/-! DEFINITION. The meaning of every operation, by name. -/

namespace Sys2Proof.Machine

def exec (i : Instr) (s : State) : Host.Outcome State Fault Refusal :=
  match i with
  | .sendCommand cmd len => Sys2Proof.Machine.execSendCommand cmd len s
  | .receiveResponse len => Sys2Proof.Machine.execReceiveResponse len s
  | .encode => Sys2Proof.Machine.execEncode s
  | .decodeHeader => Sys2Proof.Machine.execDecodeHeader s
  | .verifyFooter tfi cmd data dcs => Sys2Proof.Machine.execVerifyFooter tfi cmd data dcs s
  | .waitReady maxAttempts => Sys2Proof.Machine.execWaitReady maxAttempts s
  | .readAck => Sys2Proof.Machine.execReadAck s
  | .readResponse => Sys2Proof.Machine.execReadResponse s
  | .wireAckFrame a b => Sys2Proof.Machine.execWireAckFrame a b s
  | .wireFrameStart => Sys2Proof.Machine.execWireFrameStart s
  | .wireNormalInformationFrame len lcs tfi cmd payload dcs => Sys2Proof.Machine.execWireNormalInformationFrame len lcs tfi cmd payload dcs s
  | .wireStatusReady rsv => Sys2Proof.Machine.execWireStatusReady rsv s
  | .wireStatusNotReady rsv => Sys2Proof.Machine.execWireStatusNotReady rsv s

end Sys2Proof.Machine
end

