-- ==== Sys2Proof/Machine/Fetch.lean ====
section
/-!
DEFINITION. What the core does next: the request presented on the port in IDLE, the latched request while busy
(44_protocol_fsm.md R118, R119, R130); and where the words of the opcode table stand for the next step (log entry 17).
-/

namespace Sys2Proof.Machine

/-- What the next step is made of. -/
inductive Fetched where
  /-- The run has ended in a recorded fault (60_exceptions.md R146, R147). -/
  | ended (f : ModelFault)
  /-- A contract violation is raised now (R146). -/
  | violation (f : ModelFault)
  /-- IDLE and no request presented: the core has no step (44_protocol_fsm.md R118). -/
  | nothing
  /-- The step of this operation. -/
  | operation (i : Instr)
deriving DecidableEq, Repr

/-- A request presented in IDLE is decoded; an illegal word raises F_ILLEGAL_OP (R78, R119). -/
def fetchRequest (s : State) : Fetched :=
  match decodeRequest s.reqWord with
  | .ok i => .operation i
  | .error _ => .violation .illegalOp

/-- A request presented while busy raises F_BUSY (R119); a busy core otherwise continues the request it latched. A `state`
code that is no state comes first (R23; log entry 27). -/
def fetch (s : State) : Fetched :=
  match s.faultRecord with
  | some f => .ended f
  | none =>
    match FsmState.ofCode s.state with
    | none => .violation .illegalState
    | some .idle => if s.reqValid then fetchRequest s else .nothing
    | some st => if s.reqValid then .violation .busy else .operation (currentInstr st s)

/-- The request word `w` presented to an idle core. -/
def placeRequest (s : State) (w : BitVec 24) : State :=
  { s with state := FsmState.idle.code, reqValid := true, reqWord := w }

/-- A core in FSM state `st` with no request presented, so that its next step is the one of that state. -/
def placeState (s : State) (st : FsmState) : State := { s with state := st.code, reqValid := false }

/-- The transport answers the next transaction with `d`. -/
def placeAnswer (s : State) (d : List Byte) : State := { s with answers := d :: s.answers }

/-- The transport answers the next transaction; it delivers no byte of its own, so that each byte is a draw. -/
def placeSomeAnswer (s : State) : State := if s.answers = [] then placeAnswer s [] else s

/-- The state in which the very next step runs the operation: a request stands on the request port; an internal operation
is run by the FSM state that runs it, a wire pattern by the read or the ENCODE that meets it (10_state.md R22,
44_protocol_fsm.md R121, R127). -/
def placeInstr (s : State) (w : BitVec 24) (i : Instr) : State :=
  match i with
  | .sendCommand _ _ => placeRequest s w
  | .receiveResponse _ => placeRequest s w
  | .encode => placeState s .encoding
  | .decodeHeader => placeSomeAnswer (placeState s .readingResponse)
  | .verifyFooter _ _ _ _ => placeSomeAnswer (placeState s .readingResponse)
  | .waitReady m => { placeState s .pollingAck with attCnt := m }
  | .readAck => placeSomeAnswer (placeState s .readingAck)
  | .readResponse => placeSomeAnswer (placeState s .readingResponse)
  | .wireAckFrame a b =>
    placeAnswer (placeState s .readingAck)
      (List.replicate s.params.ackPrefix.val 0x00 ++ encode (.wireAckFrame a b))
  | .wireFrameStart => placeState s .encoding
  | .wireNormalInformationFrame len lcs tfi cmd payload dcs =>
    { placeAnswer (placeState s .readingResponse)
        (List.replicate s.params.respPrefix.val 0x00 ++ encode (.wireNormalInformationFrame len lcs tfi cmd payload dcs))
      with curLen := len - 1, curBuf := ⟨s.curBuf.base, (len - 1).toNat⟩ }
  | .wireStatusReady rsv => { placeAnswer (placeState s .pollingAck) (encode (.wireStatusReady rsv)) with attCnt := 1 }
  | .wireStatusNotReady rsv =>
    { placeAnswer (placeState s .pollingAck) (encode (.wireStatusNotReady rsv)) with attCnt := 1 }

/-- `s` with the table word `w` of `nbits` bits placed for the next step. A word that is no operation is presented on the
request port, which refuses it. -/
def placeTableWord (s : State) (nbits w : Nat) : State :=
  match decodeTableWord nbits w with
  | some i => placeInstr s (BitVec.ofNat 24 w) i
  | none => placeRequest s (BitVec.ofNat 24 w)

end Sys2Proof.Machine
end

