-- ==== Sys2Proof/Machine/Step.lean ====
section
/-! DEFINITION. One step of the core (44_protocol_fsm.md R118). -/

namespace Sys2Proof.Machine

/-- One step: a recorded fault ends the run (00_scope.md R11); a violation is recorded and no register changes
(60_exceptions.md R146); an idle core with no request stays as it is (R130); otherwise the fetched operation runs. -/
def step (s : State) : Host.Outcome State Fault Refusal :=
  match fetch s with
  | .ended f => .fault (.model f)
  | .violation f => .next (s.raise f)
  | .nothing => .next s
  | .operation i => exec i s

/-- `s` with the instruction whose bits are `w`, numbered as the opcode table numbers them, where the next step runs it. -/
def State.withFetchWord (s : State) (nbits w : Nat) : State := placeTableWord s nbits w

end Sys2Proof.Machine
end

