-- ==== Sys2Proof/Machine/Environment.lean ====
section
/-!
DEFINITION. What the world outside does to the block between two steps (00_scope.md R5; 20_memory.md R50, R58;
70_reset_and_hazards.md R153, R154), and what it sees (10_state.md R24, R30, R31, R33).
-/

namespace Sys2Proof.Machine

/-- `busy`: `state ≠ IDLE` (R24). -/
def State.busy (s : State) : Bool := s.state != FsmState.idle.code

/-- `req_ready`: `state = IDLE` (R33). -/
def State.reqReady (s : State) : Bool := s.state == FsmState.idle.code

/-- The STATUS view: recv_count 15:8, last_err 7:4, 0, send_ok, done, busy (R30). -/
def statusView (s : State) : BitVec 16 :=
  s.recvCount ++ s.lastErr ++ 0#1 ++ BitVec.ofBool s.sendOk ++ BitVec.ofBool s.done ++ BitVec.ofBool s.busy

/-- The DIAG view: att_cnt 31:16, remaining 15:8, state 7:4, dcs_ok, hdr_ok, ack_ok, rdy (R31). -/
def diagView (s : State) : BitVec 32 :=
  s.attCnt ++ s.remaining ++ s.state ++ BitVec.ofBool s.dcsOk ++ BitVec.ofBool s.hdrOk ++ BitVec.ofBool s.ackOk
    ++ BitVec.ofBool s.rdy

/-- The caller observes a completion, and the results are valid, when `done = 1` and `busy = 0` (R34, R163). -/
def resultsValid (s : State) : Bool := s.done && !s.busy

/-- The caller presents a request (R33). -/
def State.presentRequest (s : State) (w : BitVec 24) (h : BufHandle) : State :=
  { s with reqValid := true, reqWord := w, reqBuf := h }

/-- The transport answers one more transaction with the bytes it delivers (20_memory.md R50, R52). -/
def State.transportAnswer (s : State) (d : List Byte) : State := s.setAnswers (s.answers ++ [d])

/-- The buffer the core has borrowed: the region `cur_buf` names, while busy (20_memory.md R58). -/
def State.borrows (s : State) (a : Nat) : Bool := s.busy && s.curBuf.covers a

/-- Whether the operation in progress is a RECEIVE_RESPONSE, whose buffer is a destination (R46). -/
def State.receiving (s : State) : Bool :=
  match FsmState.ofCode s.state with
  | some st => st.inReceive
  | none => false

/-- The caller writes a byte of its memory: F_BUF_RACE on a borrowed buffer (R58, 60_exceptions.md R146). -/
def State.callerWrite (s : State) (a : Nat) (v : Byte) : State :=
  if s.borrows a then s.raise .bufRace else s.setMem (Memory.write s.mem a v)

/-- The caller reads a byte of its memory: a draw on a borrowed buffer while busy, the destination (R58) as the payload
(93_implementation_defined.md U9). -/
def State.callerRead (s : State) (a : Nat) : Byte × State :=
  if s.borrows a then (Config.draw s.drawCount, s.advanceDraws 1) else (Memory.read s.mem a, s)

/-- The bytes of the destination buffer: indices 0 .. cap-1 (20_memory.md R46). -/
def State.destinationBytes (s : State) : Nat := s.curBuf.cap

/-- The destination buffer of a RECEIVE_RESPONSE that a reset abandons holds unspecified bytes: each is a draw
(R154; log entry 19). -/
def abandonDestination (s : State) : State :=
  if s.receiving then scrubDestination s s.destinationBytes else s

/-- The registers take their reset values (R153); the caller's buffers, the transport, the fault record and the parameters
are not touched. -/
def State.resetRegisters (s : State) : State :=
  { State.reset with
    busAddr := s.params.busAddr
    reqValid := s.reqValid
    reqWord := s.reqWord
    reqBuf := s.reqBuf
    answers := s.answers
    busLog := s.busLog
    mem := s.mem
    faultRecord := s.faultRecord
    params := s.params
    drawCount := s.drawCount }

/-- Reset is asserted, at any time (R153, R154): no result is latched. On a faulted state it resets the registers too and keeps
the record, so that the run stays ended (60_exceptions.md R147; DESIGN CHOICE, log entry 34). -/
def State.assertReset (s : State) : State := (abandonDestination s).resetRegisters

end Sys2Proof.Machine
end

