-- ==== Sys2Proof/Safety.lean ====
section
/-!
DEFINITION. The terms claims use: whole outcomes, the states a core can be in, the invariant every step keeps, and the
transition table of 44_protocol_fsm.md R130.
-/

namespace Sys2Proof.Machine

/-- The core is in this FSM state. -/
abbrev State.isIn (s : State) (st : FsmState) : Prop := s.state = st.code

/-- The core is in a state of a SEND_COMMAND in progress. -/
abbrev State.sending (s : State) : Prop := 0x1 ≤ s.state.toNat ∧ s.state.toNat ≤ 0x8

/-- The core is in a state of a RECEIVE_RESPONSE in progress. -/
abbrev State.inReply (s : State) : Prop := 0x9 ≤ s.state.toNat ∧ s.state.toNat ≤ 0xC

/-- No fault is recorded and no request is presented. -/
abbrev State.quiet (s : State) : Prop := s.faultRecord = none ∧ s.reqValid = false

/-- The caller's memory is in its canonical form. -/
abbrev MemoryInv (s : State) : Prop := s.mem.wf = true

/-- The FSM state code is one of R22; `bus_addr` is `P_BUS_ADDR` (R32) and has `P_ADDR_W` bits (R20); `last_err` holds a code
of R137. -/
abbrev RegisterInv (s : State) : Prop :=
  s.state.toNat ≤ 0xC ∧ s.busAddr = s.params.busAddr ∧ s.busAddr < 2 ^ s.params.addrW ∧ s.lastErr.toNat ≤ 0x5

/-- While busy, `done` is 0 (R29), and the latched request is the one whose states the core is in, with the operands
acceptance lets through (R119, R120). -/
abbrev RequestInv (s : State) : Prop :=
  (s.busy = true → s.done = false) ∧
  (s.sending → s.curOp = opSend ∧ s.curLen.toNat ≤ maxPayload) ∧
  (s.inReply → s.curOp = opReceive ∧ s.curCmd = 0x00)

/-- What a state of R130 says about the flags and counters that led to it. -/
abbrev ProgressInv (s : State) : Prop :=
  (s.isIn .transmitting → s.txFrame.length = s.curLen.toNat + 9) ∧
  (s.isIn .timeout → s.attCnt = 0) ∧
  (s.isIn .acked → s.ackOk = true) ∧
  (s.isIn .notAcked → s.ackOk = false) ∧
  (s.isIn .readingResponse → s.timedOut = false) ∧
  (s.isIn .valid → s.hdrOk = true ∧ s.dcsOk = true ∧ s.timedOut = false) ∧
  (s.isIn .invalid →
    if s.timedOut then s.attCnt = 0 ∧ s.params.respTimeoutPolicy = .abort
    else (s.hdrOk && s.dcsOk) = false)

/-- Two cores in the same FSM state and the same world: the same ports, caller's memory, parameters and draws to come. Their
other registers may differ. -/
abbrev SameWorld (s t : State) : Prop :=
  t.state = s.state ∧ t.faultRecord = s.faultRecord ∧ t.reqValid = s.reqValid ∧ t.reqWord = s.reqWord ∧
  t.reqBuf = s.reqBuf ∧ t.answers = s.answers ∧ t.busLog = s.busLog ∧ t.mem = s.mem ∧ t.params = s.params ∧
  t.busAddr = s.busAddr ∧ t.drawCount = s.drawCount

/-- The status bytes that one-byte reads meet, one for each answer of the transport; a byte not delivered is the next draw
(20_memory.md R52; 41_status_poller.md R96). -/
def statusBytes (draw : Nat) (answers : List (List Byte)) : List Byte :=
  match answers with
  | [] => []
  | [] :: rest => Config.draw draw :: statusBytes (draw + 1) rest
  | (b :: _) :: rest => b :: statusBytes draw rest

/-- The invariant of the block. -/
abbrev State.Inv (s : State) : Prop := MemoryInv s ∧ RegisterInv s ∧ RequestInv s ∧ ProgressInv s

/-- The next state of an outcome. -/
def nextState (o : Host.Outcome State Fault Refusal) : Option State :=
  match o with
  | .next t => some t
  | .fault _ => none
  | .refused _ => none

/-- The step left the transport port alone. -/
abbrev noTransaction (s t : State) : Prop := t.busLog = s.busLog ∧ t.answers = s.answers

/-- The step completed exactly this transaction. -/
abbrev oneTransaction (s t : State) (x : Txn) : Prop := t.busLog = s.busLog ++ [x] ∧ t.answers = s.answers.tail

/-- The rows of R130's table that start in IDLE with a legal request. -/
def AcceptanceRow (s t : State) : Prop :=
  s.isIn .idle ∧ s.reqValid = true ∧ noTransaction s t ∧
    ((∃ cmd len, decodeRequest s.reqWord = .ok (.sendCommand cmd len) ∧ len.toNat ≤ maxPayload ∧ t.isIn .encoding) ∨
     (∃ len, decodeRequest s.reqWord = .ok (.receiveResponse len) ∧ t.isIn .pollingResp))

/-- The rows of R130's table for a SEND_COMMAND in progress. -/
def SendRow (s t : State) : Prop :=
  (s.isIn .encoding ∧ noTransaction s t ∧ t.isIn .transmitting) ∨
  (s.isIn .transmitting ∧ oneTransaction s t (.write s.busAddr s.txFrame) ∧ t.isIn .settling) ∨
  (s.isIn .settling ∧ noTransaction s t ∧ t.isIn .pollingAck) ∨
  (s.isIn .pollingAck ∧ s.attCnt = 0 ∧ noTransaction s t ∧ t.isIn .timeout) ∨
  (s.isIn .pollingAck ∧ s.attCnt ≠ 0 ∧ oneTransaction s t (.read s.busAddr 1) ∧
    t.state = (if t.rdy then FsmState.readingAck.code else FsmState.pollingAck.code)) ∨
  (s.isIn .readingAck ∧ oneTransaction s t (.read s.busAddr (s.params.ackPrefix.val + 6)) ∧
    t.state = (if t.ackOk then FsmState.acked.code else FsmState.notAcked.code)) ∨
  ((s.isIn .acked ∨ s.isIn .notAcked ∨ s.isIn .timeout) ∧ noTransaction s t ∧ t.isIn .idle)

/-- The rows of R130's table for a RECEIVE_RESPONSE in progress. -/
def ReceiveRow (s t : State) : Prop :=
  (s.isIn .pollingResp ∧ s.attCnt = 0 ∧ noTransaction s t ∧
    t.state = (match s.params.respTimeoutPolicy with
      | .abort => FsmState.invalid.code
      | .readAnyway => FsmState.readingResponse.code)) ∨
  (s.isIn .pollingResp ∧ s.attCnt ≠ 0 ∧ oneTransaction s t (.read s.busAddr 1) ∧
    t.state = (if t.rdy then FsmState.readingResponse.code else FsmState.pollingResp.code)) ∨
  (s.isIn .readingResponse ∧ oneTransaction s t (.read s.busAddr (s.params.respPrefix.val + 8 + s.curLen.toNat)) ∧
    t.state = (if t.hdrOk && t.dcsOk then FsmState.valid.code else FsmState.invalid.code)) ∨
  ((s.isIn .valid ∨ s.isIn .invalid) ∧ noTransaction s t ∧ t.isIn .idle)

/-- The core has no step: IDLE with no request (R130), or a transaction the transport has not answered (20_memory.md R50). -/
def Waits (s : State) : Prop :=
  s.reqValid = false ∧
    (s.isIn .idle ∨
     (s.answers = [] ∧ (s.isIn .transmitting ∨ s.isIn .readingAck ∨ s.isIn .readingResponse ∨
       ((s.isIn .pollingAck ∨ s.isIn .pollingResp) ∧ s.attCnt ≠ 0))))

end Sys2Proof.Machine
end

