-- ==== Sys2Proof/WellFormed.lean ====
section
/-!
DEFINITION. Which operations are well formed as words (30_encoding.md R64 to R68, R78; 40_frame_codec.md R90).
A SEND_COMMAND with len > 253 is well formed as a word and is refused by value (R78, R120).
-/

namespace Sys2Proof

/-- VERIFY_FOOTER takes m data bytes with m in 0..255 (R90). -/
def dataLengthFits (data : List Byte) : Bool := data.length ≤ 255

/-- The payload of a Normal Information Frame has 0..253 bytes (R65). -/
def payloadLengthFits (payload : List Byte) : Bool := payload.length ≤ Machine.maxPayload

/-- `LEN = n + 2` (R65). -/
def lenMatches (len : Byte) (payload : List Byte) : Bool := len.toNat == payload.length + 2

/-- `LCS = neg8(LEN)` (R66). -/
def lcsMatches (len lcs : Byte) : Bool := lcs == Machine.neg8 len.toNat

/-- `DCS = neg8(TFI + CMD + Σ P[k])` (R68). -/
def dcsMatches (tfi cmd : Byte) (payload : List Byte) (dcs : Byte) : Bool :=
  dcs == Machine.neg8 (tfi.toNat + cmd.toNat + Machine.byteSum payload)

/-- The checks, operation by operation. -/
def Instr.wellFormed : Instr → Bool
  | .sendCommand _ _ => true
  | .receiveResponse _ => true
  | .encode => true
  | .decodeHeader => true
  | .verifyFooter _ _ data _ => dataLengthFits data
  | .waitReady _ => true
  | .readAck => true
  | .readResponse => true
  | .wireAckFrame _ _ => true
  | .wireFrameStart => true
  | .wireNormalInformationFrame len lcs tfi cmd payload dcs =>
    payloadLengthFits payload && lenMatches len payload && lcsMatches len lcs && dcsMatches tfi cmd payload dcs
  | .wireStatusReady _ => true
  | .wireStatusNotReady _ => true

/-- An operation whose every check holds. -/
abbrev Instr.WellFormed (i : Instr) : Prop := i.wellFormed = true

end Sys2Proof
end

