-- ==== Sys2Proof/Certificates/Slice0/Obligations.lean ====
section
/-!
DEFINITION. What is claimed of the block, from the numbered rules of spec/. Each docstring names the rule.
-/

open Sys2Proof Sys2Proof.Machine

/-! ## Encodings -/

/-- Words written out from 30_encoding.md R64, R71, R73, R76 and R77 decode to what they stand for. The model's choices in it: in
which order and numbering `decodeTableWord` reads a word (log entry 16), and the operand bytes of VERIFY_FOOTER and
WAIT_READY, which no rule lays out (log entry 14). -/
def Obligations.TableWordsDecode : Prop :=
  decodeRequest 0x024A01 = .ok (.sendCommand 0x4A 0x02) ∧
  decodeRequest 0x050002 = .ok (.receiveResponse 0x05) ∧
  decodeTableWord 8 0x08 = some .encode ∧
  decodeTableWord 8 0x09 = some .decodeHeader ∧
  decodeTableWord 56 0xAA0158FF01D40A = some (.verifyFooter 0xD4 (some 0xFF) [0xAA] 0x58) ∧
  decodeTableWord 24 0x01020B = some (.waitReady 0x0102) ∧
  decodeTableWord 8 0x0C = some .readAck ∧
  decodeTableWord 8 0x0D = some .readResponse ∧
  decodeTableWord 48 0x0000FF00FF00 = some (.wireAckFrame 0x00 0xFF) ∧
  decodeTableWord 24 0x0000FF = some .wireFrameStart ∧
  decodeTableWord 72 0x0000FF02FED4022A00 = some (.wireNormalInformationFrame 0x02 0xFE 0xD4 0x02 [] 0x2A) ∧
  decodeStatus 0xFF = .wireStatusReady 0x7F ∧
  decodeStatus 0xFE = .wireStatusNotReady 0x7F

/-- Decoding what the encoder wrote gives every well-formed operation back, and leaves the bytes after it
(30_encoding.md R64, R71, R73, R76, R77, R80; the operand layout of the internal operations is the model's, log entry 14, and
so is the byte order of a request word, log entry 33). -/
def Obligations.DecodeOfEncode : Prop :=
  ∀ (i : Instr) (rest : List Byte), i.WellFormed → decode (portOf i) (encode i ++ rest) = .ok (i, rest)

/-- The other direction on the ports that have an encoding in the spec: what decodes is the encoding of what it decodes to,
and nothing else is accepted (30_encoding.md R64, R71, R73, R76 to R78; the byte order of a request word is the model's, log
entry 33). -/
def Obligations.OnlyTheEncodingDecodes : Prop :=
  ∀ (p : Port) (bs rest : List Byte) (i : Instr), p ≠ .internal → decode p bs = .ok (i, rest) →
    portOf i = p ∧ bs = encode i ++ rest

/-- R78: which request words are illegal, in which order the decoder checks, and that a SEND_COMMAND is well formed as a
word whatever its len. -/
def Obligations.RequestWordLegality : Prop :=
  ∀ w : BitVec 24,
    ((∃ e, decodeRequest w = .error e) ↔
      ((requestOp w ≠ 0x1 ∧ requestOp w ≠ 0x2) ∨ requestRsv w ≠ 0x0 ∨ (requestOp w = 0x2 ∧ requestCmd w ≠ 0x00))) ∧
    (requestOp w ≠ 0x1 → requestOp w ≠ 0x2 →
      decodeRequest w = .error .reservedOp ∨ decodeRequest w = .error .internalOp) ∧
    ((requestOp w = 0x1 ∨ requestOp w = 0x2) → requestRsv w ≠ 0x0 → decodeRequest w = .error .reservedBits) ∧
    (requestOp w = 0x2 → requestRsv w = 0x0 → requestCmd w ≠ 0x00 → decodeRequest w = .error .cmdNotZero) ∧
    (requestOp w = 0x1 → requestRsv w = 0x0 → decodeRequest w = .ok (.sendCommand (requestCmd w) (requestLen w)))

/-! ## Steps -/

/-- R118, R119: a request presented to an idle core is decoded and the step is its execution; a busy core with no request
presented executes the request it latched. -/
def Obligations.StepRunsTheDecodedRequest : Prop :=
  ∀ s : State, s.faultRecord = none →
    (∀ i, s.isIn .idle → s.reqValid = true → decodeRequest s.reqWord = .ok i → step s = exec i s) ∧
    (s.sending → s.reqValid = false → step s = exec (.sendCommand s.curCmd s.curLen) s) ∧
    (s.inReply → s.reqValid = false → step s = exec (.receiveResponse s.curLen) s)

/-- R22, R121, R127: the step of ENCODING is ENCODE, of READING_ACK is READ_ACK, of READING_RESPONSE is READ_RESPONSE, each
followed by the FSM's transition; a hold leaves the state as it is. -/
def Obligations.StepRunsTheSubBlock : Prop :=
  ∀ s t : State, s.quiet →
    (s.isIn .encoding → exec .encode s = .next t → step s = .next { t with state := 0x2 }) ∧
    (s.isIn .readingAck → s.answers ≠ [] → exec .readAck s = .next t →
      step s = .next { t with state := if t.ackOk then 0x6 else 0x7 }) ∧
    (s.isIn .readingResponse → s.answers ≠ [] → exec .readResponse s = .next t →
      step s = .next { t with state := if t.hdrOk && t.dcsOk then 0xB else 0xC }) ∧
    (s.isIn .encoding → ∀ f, exec .encode s = .fault f → step s = .fault f) ∧
    (s.isIn .readingResponse → ∀ f, exec .readResponse s = .fault f → step s = .fault f)

/-- R130 (first row) and 20_memory.md R50: an idle core with no request has no step, and a core whose transaction the
transport has not answered holds. -/
def Obligations.NoStepWithoutRequestOrAnswer : Prop :=
  ∀ s : State, s.faultRecord = none → Waits s → step s = .next s

/-- 20_memory.md R50, R96, R102, R108, R121, R127: an operation whose transaction the transport has not answered holds and
changes nothing; WAIT_READY has loaded its bound before it holds (that a hold is a step to the same state is the model's
choice, log entry 4; that it comes before a short destination's stuck access, log entry 30). -/
def Obligations.UnansweredOperationsHold : Prop :=
  ∀ s : State, s.answers = [] →
    exec .readAck s = .next s ∧ exec .readResponse s = .next s ∧
    (∀ m, exec (.waitReady m) s = .next { s with attCnt := m }) ∧
    (s.isIn .transmitting ∨ (s.isIn .pollingAck ∧ s.attCnt ≠ 0) ∨ s.isIn .readingAck →
      exec (.sendCommand s.curCmd s.curLen) s = .next s) ∧
    ((s.isIn .pollingResp ∧ s.attCnt ≠ 0) ∨ s.isIn .readingResponse → exec (.receiveResponse s.curLen) s = .next s)

/-- R130: `state` changes only as in the table, each row with its condition and its bus transaction. -/
def Obligations.StepFollowsTheTransitionTable : Prop :=
  ∀ s t : State, step s = .next t →
    (Waits s ∧ t = s) ∨
    (t = s.raise .illegalState ∧ 0xD ≤ s.state.toNat) ∨
    (t = s.raise .busy ∧ s.reqValid = true ∧ ¬ s.isIn .idle) ∨
    (t = s.raise .illegalOp ∧ s.reqValid = true ∧ s.isIn .idle ∧ ∃ e, decodeRequest s.reqWord = .error e) ∨
    (t = s.raise .payloadLen ∧ s.reqValid = true ∧ s.isIn .idle ∧
      ∃ cmd len, decodeRequest s.reqWord = .ok (.sendCommand cmd len) ∧ maxPayload < len.toNat) ∨
    AcceptanceRow s t ∨ (s.reqValid = false ∧ (SendRow s t ∨ ReceiveRow s t))

/-- Every step keeps the invariant: the caller's memory canonical, the FSM code legal, `bus_addr` the parameter and within
`P_ADDR_W` bits, `last_err` a code of R137, `done` clear while busy, the latched request the one in progress, and each state of
R130 consistent with the flags that led to it. -/
def Obligations.EveryStepKeepsTheInvariant : Prop :=
  ∀ s t : State, s.Inv → step s = .next t → t.Inv

/-- The invariant holds after reset, from any state whose memory is canonical (70_reset_and_hazards.md R153, R154; of a faulted
state too: the model's choice, log entry 34). -/
def Obligations.ResetEstablishesTheInvariant : Prop :=
  State.reset.Inv ∧ ∀ s : State, MemoryInv s → s.assertReset.Inv

/-! ## Acceptance and contract violations -/

/-- R119: a legal SEND_COMMAND is accepted by an idle core (that the caller then withdraws `req_valid` is the model's choice,
log entry 11). -/
def Obligations.SendCommandIsAccepted : Prop :=
  ∀ (s : State) (cmd len : Byte), s.isIn .idle → len.toNat ≤ 253 →
    exec (.sendCommand cmd len) s = .next { s with
      curOp := 0x1, curCmd := cmd, curLen := len, curBuf := s.reqBuf, done := false, reqValid := false, state := 0x1 }

/-- R119: a legal RECEIVE_RESPONSE is accepted by an idle core, and the poll bound is loaded (that the caller then withdraws
`req_valid` is the model's choice, log entry 11). -/
def Obligations.ReceiveResponseIsAccepted : Prop :=
  ∀ (s : State) (len : Byte), s.isIn .idle →
    exec (.receiveResponse len) s = .next { s with
      curOp := 0x2, curCmd := 0x00, curLen := len, curBuf := s.reqBuf, done := false, reqValid := false,
      attCnt := s.params.maxAttemptsResp, state := 0x9 }

/-- R120, R78, R119, 60_exceptions.md R146: the request port's violations are recorded, and no register changes
(that the violation is recorded by a next state, after which every step faults, is the model's reading, log entry 10). -/
def Obligations.RequestViolationsChangeNoRegister : Prop :=
  ∀ s : State, s.faultRecord = none → s.reqValid = true →
    (s.isIn .idle → (∃ e, decodeRequest s.reqWord = .error e) →
      step s = .next { s with faultRecord := some .illegalOp }) ∧
    (s.isIn .idle → (∃ cmd len, decodeRequest s.reqWord = .ok (.sendCommand cmd len) ∧ 253 < len.toNat) →
      step s = .next { s with faultRecord := some .payloadLen }) ∧
    (s.sending ∨ s.inReply → step s = .next { s with faultRecord := some .busy })

/-- R119, R120, R23: what a request other than the one in progress does: F_BUSY while busy, F_PAYLOAD_LEN for a SEND_COMMAND
with more than 253 payload bytes, F_ILLEGAL_STATE where `state` is no state; no register changes (what `exec` of a request is
in a busy core is the model's choice, log entry 13; that a fault is a recorded next state, log entry 10). -/
def Obligations.OtherRequestsAreViolations : Prop :=
  ∀ (s : State) (cmd len : Byte),
    ((s.sending ∧ ¬ (s.curCmd = cmd ∧ s.curLen = len)) ∨ s.inReply →
      exec (.sendCommand cmd len) s = .next (s.raise .busy)) ∧
    ((s.inReply ∧ s.curLen ≠ len) ∨ s.sending → exec (.receiveResponse len) s = .next (s.raise .busy)) ∧
    (s.isIn .idle → 253 < len.toNat → exec (.sendCommand cmd len) s = .next (s.raise .payloadLen)) ∧
    (0xD ≤ s.state.toNat → exec (.sendCommand cmd len) s = .next (s.raise .illegalState) ∧
      exec (.receiveResponse len) s = .next (s.raise .illegalState)) ∧
    ∀ f, s.raise f = { s with faultRecord := (s.raise f).faultRecord }

/-- 10_state.md R23, 60_exceptions.md R146: a `state` code 0xD to 0xF raises F_ILLEGAL_STATE. -/
def Obligations.IllegalStateCodeIsAFault : Prop :=
  ∀ s : State, s.faultRecord = none → 0xD ≤ s.state.toNat → step s = .next { s with faultRecord := some .illegalState }

/-- 60_exceptions.md R146, R147, 00_scope.md R11: a recorded fault ends the run, and nothing clears it, reset included (the
reading of the record as a field every later step answers: log entry 10; what reset and the others do to a faulted state beside
it: log entry 34). -/
def Obligations.FaultRecordIsSticky : Prop :=
  ∀ (s : State) (f : ModelFault), s.faultRecord = some f →
    step s = .fault (.model f) ∧
    s.assertReset.faultRecord = some f ∧
    (∀ g, (s.raise g).faultRecord = some f) ∧
    (∀ i t, exec i s = .next t → t.faultRecord = some f) ∧
    (∀ a v, (s.callerWrite a v).faultRecord = some f) ∧
    (∀ a, (s.callerRead a).2.faultRecord = some f) ∧
    (∀ w h, (s.presentRequest w h).faultRecord = some f) ∧
    (∀ d, (s.transportAnswer d).faultRecord = some f)

/-! ## The frame codec -/

/-- R86: ENCODE writes `tx_frame` only, with the frame of 30_encoding.md R64 to R68 built from the payload read once in index
order; 20_memory.md R47: beyond the buffer's capacity it has no step. -/
def Obligations.EncodeBuildsTheFrame : Prop :=
  ∀ s : State,
    (s.curLen.toNat ≤ s.curBuf.cap → exec .encode s = .next { s with
      txFrame :=
        let n := s.curLen.toNat
        let p := (List.range n).map fun k => Memory.read s.mem (s.curBuf.base + k)
        [0x00, 0x00, 0xFF, BitVec.ofNat 8 (n + 2), BitVec.ofNat 8 (256 - (n + 2) % 256), 0xD4, s.curCmd] ++ p ++
          [BitVec.ofNat 8 (256 - (0xD4 + s.curCmd.toNat + (p.map BitVec.toNat).sum) % 256), 0x00] }) ∧
    (s.curBuf.cap < s.curLen.toNat → exec .encode s = .fault .stuckBufRead)

/-- R87: for every command and every payload of 0..253 bytes, the frame ENCODE produces has n + 9 bytes, a zero header sum, a
zero data sum, and the constant bytes. -/
def Obligations.EncodedFrameChecksums : Prop :=
  ∀ s : State, s.curLen.toNat ≤ 253 → s.curLen.toNat ≤ s.curBuf.cap →
    ∃ t, exec .encode s = .next t ∧
      t.txFrame.length = s.curLen.toNat + 9 ∧
      ((byteAt t.txFrame 3).toNat + (byteAt t.txFrame 4).toNat) % 256 = 0 ∧
      zeroSum ((t.txFrame.drop 5).take (s.curLen.toNat + 3)) = true ∧
      t.txFrame.take 3 = [0x00, 0x00, 0xFF] ∧ byteAt t.txFrame (8 + s.curLen.toNat) = 0x00

/-- R92: a frame built by ENCODE passes VERIFY_FOOTER, with its command byte present and with it as the first data byte. -/
def Obligations.EncodedFramePassesVerifyFooter : Prop :=
  ∀ s : State, s.curLen.toNat ≤ 253 → s.curLen.toNat ≤ s.curBuf.cap →
    ∃ t, exec .encode s = .next t ∧
      (∃ u, exec (.verifyFooter (byteAt t.txFrame 5) (some (byteAt t.txFrame 6)) ((t.txFrame.drop 7).take s.curLen.toNat)
        (byteAt t.txFrame (7 + s.curLen.toNat))) t = .next u ∧ u.dcsOk = true) ∧
      (∃ u, exec (.verifyFooter (byteAt t.txFrame 5) none ((t.txFrame.drop 6).take (s.curLen.toNat + 1))
        (byteAt t.txFrame (7 + s.curLen.toNat))) t = .next u ∧ u.dcsOk = true)

/-- R85: the checksum primitive. -/
def Obligations.ChecksumClosesTheSum : Prop :=
  checksum [] = 0x00 ∧ ∀ s : List Byte,
    (checksum s).toNat = (256 - (s.map BitVec.toNat).sum % 256) % 256 ∧
    (zeroSum s = true ↔ (s.map BitVec.toNat).sum % 256 = 0) ∧
    zeroSum (s ++ [checksum s]) = true

/-- R88, R89: DECODE_HEADER sets `hdr_ok` exactly for the pairs whose sum is 0 mod 256, and writes `remaining` in both
cases, and nothing else; for each LEN exactly one LCS is valid. -/
def Obligations.DecodeHeaderChecksThePair : Prop :=
  (∀ s : State, ∃ ok, (ok = true ↔ (s.rxLen.toNat + s.rxLcs.toNat) % 256 = 0) ∧
    exec .decodeHeader s = .next { s with hdrOk := ok, remaining := s.rxLen - 1 }) ∧
  ∀ len : Byte, ∃ lcs : Byte, ∀ x : Byte, hdrOkOf len x = true ↔ x = lcs

/-- R90: VERIFY_FOOTER writes the sum of its operands mod 256 and whether it is 0, and nothing else, with cmd present or
skipped. -/
def Obligations.VerifyFooterSumsItsOperands : Prop :=
  ∀ (s : State) (tfi : Byte) (cmd : Option Byte) (data : List Byte) (dcs : Byte),
    ∃ sum : Byte, sum.toNat = (tfi.toNat + (cmd.map BitVec.toNat).getD 0 + (data.map BitVec.toNat).sum + dcs.toNat) % 256 ∧
      exec (.verifyFooter tfi cmd data dcs) s = .next { s with sumAcc := sum, dcsOk := decide (sum = 0x00) }

/-! ## The status poller -/

/-- R97, R98, R100: WAIT_READY with bound M reads min(j, M) status bytes, j the index of the first one with RDY = 1; `att_cnt`
is what is left; it is READY exactly when j ≤ M; with M = 0 nothing is read and `rdy` is unchanged. Nothing else changes but the
count of draws, for the status bytes the transport did not deliver. The transport answers each of those reads. -/
def Obligations.WaitReadyReadsUntilReady : Prop :=
  ∀ (s : State) (m : BitVec 16),
    let j := ((statusBytes s.drawCount s.answers).takeWhile fun b => !b.getLsbD 0).length + 1
    let reads := min j m.toNat
    reads ≤ s.answers.length →
    exec (.waitReady m) s = .next { s with
      attCnt := BitVec.ofNat 16 (m.toNat - reads)
      rdy := if m = 0 then s.rdy else decide (j ≤ m.toNat)
      answers := s.answers.drop reads
      busLog := s.busLog ++ List.replicate reads (.read s.busAddr 1)
      drawCount := s.drawCount + (s.answers.take reads).count [] } ∧
    (waitReadyOp m s).1 = (if j ≤ m.toNat then .ready else .notReady)

/-- R124: the steps of POLLING_ACK. A status byte the transport does not deliver is a free byte (20_memory.md R52). -/
def Obligations.PollingAckStep : Prop :=
  ∀ s : State, s.quiet → s.isIn .pollingAck →
    (s.attCnt = 0 → step s = .next { s with state := 0x8 }) ∧
    (s.attCnt ≠ 0 → ∀ (b : Byte) (more : List Byte) (rest : List (List Byte)), s.answers = (b :: more) :: rest →
      step s = .next { s with
        attCnt := s.attCnt - 1, rdy := b.getLsbD 0, answers := rest, busLog := s.busLog ++ [.read s.busAddr 1],
        state := if b.getLsbD 0 then 0x5 else 0x4 }) ∧
    (s.attCnt ≠ 0 → ∀ rest : List (List Byte), s.answers = [] :: rest →
      step s = .next { s with
        attCnt := s.attCnt - 1, rdy := (Config.draw s.drawCount).getLsbD 0, answers := rest,
        busLog := s.busLog ++ [.read s.busAddr 1], drawCount := s.drawCount + 1,
        state := if (Config.draw s.drawCount).getLsbD 0 then 0x5 else 0x4 })

/-- R128: the steps of POLLING_RESP, with the exit of the timeout policy (the register that records the timeout is log
entry 12's). A status byte the transport does not deliver is a free byte (20_memory.md R52). -/
def Obligations.PollingRespStep : Prop :=
  ∀ s : State, s.quiet → s.isIn .pollingResp →
    (s.attCnt = 0 → s.params.respTimeoutPolicy = .abort → step s = .next { s with state := 0xC, timedOut := true }) ∧
    (s.attCnt = 0 → s.params.respTimeoutPolicy = .readAnyway →
      step s = .next { s with state := 0xA, timedOut := false }) ∧
    (s.attCnt ≠ 0 → ∀ (b : Byte) (more : List Byte) (rest : List (List Byte)), s.answers = (b :: more) :: rest →
      step s = .next { s with
        attCnt := s.attCnt - 1, rdy := b.getLsbD 0, answers := rest, busLog := s.busLog ++ [.read s.busAddr 1],
        timedOut := if b.getLsbD 0 then false else s.timedOut,
        state := if b.getLsbD 0 then 0xA else 0x9 }) ∧
    (s.attCnt ≠ 0 → ∀ rest : List (List Byte), s.answers = [] :: rest →
      step s = .next { s with
        attCnt := s.attCnt - 1, rdy := (Config.draw s.drawCount).getLsbD 0, answers := rest,
        busLog := s.busLog ++ [.read s.busAddr 1], drawCount := s.drawCount + 1,
        timedOut := if (Config.draw s.drawCount).getLsbD 0 then false else s.timedOut,
        state := if (Config.draw s.drawCount).getLsbD 0 then 0xA else 0x9 })

/-! ## The ACK validator -/

/-- R102, R103, R105: READ_ACK reads one transaction, drops the prefix unexamined, and sets `ack_ok` to whether the six bytes
after it are the pattern: the delivered ones where the transport delivers them all, free bytes in place of the missing ones
(20_memory.md R52). Nothing else changes. -/
def Obligations.ReadAckMatchesThePattern : Prop :=
  ∀ (s : State) (d : List Byte) (rest : List (List Byte)), s.answers = d :: rest →
    let p := s.params.ackPrefix.val
    let f := (readBytes s d (p + 6)).drop p
    f.length = 6 ∧ (p + 6 ≤ d.length → f = (d.drop p).take 6) ∧
    ∃ ok, (ok = true ↔ f = [0x00, 0x00, 0xFF, s.params.ackA3, s.params.ackA4, 0x00]) ∧
      exec .readAck s = .next { s with
        ackOk := ok, answers := rest, busLog := s.busLog ++ [.read s.busAddr (p + 6)],
        drawCount := s.drawCount + (p + 6 - d.length) }

/-- R125: the step of READING_ACK, for every answer of the transport. -/
def Obligations.ReadingAckStep : Prop :=
  ∀ (s : State) (d : List Byte) (rest : List (List Byte)), s.quiet → s.isIn .readingAck → s.answers = d :: rest →
    ∃ t, step s = .next t ∧ t.state = (if t.ackOk then 0x6 else 0x7) ∧
      t = { s with
        ackOk := t.ackOk, state := t.state, answers := rest,
        busLog := s.busLog ++ [.read s.busAddr (s.params.ackPrefix.val + 6)], drawCount := t.drawCount }

/-! ## The response frame parser -/

/-- 20_memory.md R52: a read transaction returns exactly as many bytes as it asked for, the delivered ones first, and each
missing byte is a draw. These are the bytes `readBytes` that READ_ACK and READ_RESPONSE read (bytes delivered beyond the count
are dropped: the model's choice, log entry 6). -/
def Obligations.ReadTransactionReturnsTheCount : Prop :=
  ∀ (s : State) (d : List Byte) (rest : List (List Byte)) (n : Nat), s.answers = d :: rest →
    ∃ r t, busRead s n = some (r, t) ∧ r = readBytes s d n ∧ r.length = n ∧ r.take (min n d.length) = d.take n ∧
      (∀ i, d.length ≤ i → i < n → byteAt r i = Config.draw (s.drawCount + (i - d.length))) ∧
      t = { s with
        answers := rest, busLog := s.busLog ++ [.read s.busAddr n], drawCount := s.drawCount + (n - d.length) }

/-- R108, R111, R112, R114: READ_RESPONSE on an answered transaction, whatever the transport delivered: the whole transaction
is read, the registers take the bytes at the offsets of 30_encoding.md R69, the checks decide the count all or nothing, the
data reach the destination when both pass, and no byte of memory outside indices 0..req-1 of the destination changes. -/
def Obligations.ReadResponseParsesTheReply : Prop :=
  ∀ (s : State) (d : List Byte) (rest : List (List Byte)),
    MemoryInv s → s.answers = d :: rest → s.curLen.toNat ≤ s.curBuf.cap →
    let req := s.curLen.toNat
    let count := s.params.respPrefix.val + 8 + req
    let f := (readBytes s d count).drop s.params.respPrefix.val
    let data := (f.drop 6).take req
    ∃ t, exec .readResponse s = .next t ∧
      t = { s with
        rxLen := byteAt f 3, rxLcs := byteAt f 4, rxTfi := byteAt f 5, rxDcs := byteAt f (6 + req),
        hdrOk := t.hdrOk, remaining := byteAt f 3 - 1, sumAcc := t.sumAcc, dcsOk := decide (t.sumAcc = 0x00),
        answers := rest, busLog := s.busLog ++ [.read s.busAddr count], mem := t.mem, drawCount := t.drawCount } ∧
      (t.hdrOk = true ↔ ((byteAt f 3).toNat + (byteAt f 4).toNat) % 256 = 0) ∧
      t.sumAcc.toNat = ((byteAt f 5).toNat + (data.map BitVec.toNat).sum + (byteAt f (6 + req)).toNat) % 256 ∧
      replyCount t = (if t.hdrOk && t.dcsOk then s.curLen else 0x00) ∧
      (t.hdrOk = true → t.dcsOk = true → ∀ k, k < req → Memory.read t.mem (s.curBuf.base + k) = byteAt data k) ∧
      (∀ a, (a < s.curBuf.base ∨ s.curBuf.base + req ≤ a) → Memory.read t.mem a = Memory.read s.mem a)

/-- R93: a reply laid out as 30_encoding.md R64 around any body B of at most 254 bytes, read with req = |B|, puts exactly B
into the destination and gives the count |B|, whatever stands in the prefix. -/
def Obligations.WellFormedReplyRoundTrips : Prop :=
  ∀ (s : State) (pre body : List Byte) (tfi : Byte) (rest : List (List Byte)),
    MemoryInv s → body.length ≤ 254 → pre.length = s.params.respPrefix.val →
    s.curLen.toNat = body.length → body.length ≤ s.curBuf.cap →
    s.answers = (pre ++ [0x00, 0x00, 0xFF, BitVec.ofNat 8 (body.length + 1), neg8 (body.length + 1), tfi] ++ body ++
      [neg8 (tfi.toNat + (body.map BitVec.toNat).sum), 0x00]) :: rest →
    ∃ t, exec .readResponse s = .next t ∧ t.hdrOk = true ∧ t.dcsOk = true ∧ (replyCount t).toNat = body.length ∧
      (∀ k, k < body.length → Memory.read t.mem (s.curBuf.base + k) = byteAt body k) ∧
      (∀ a, (a < s.curBuf.base ∨ s.curBuf.base + body.length ≤ a) → Memory.read t.mem a = Memory.read s.mem a)

/-- R93, R92 (vectors RT-1, RT-2): a peer that echoes a whole command frame, after any status prefix, gives back its command
byte followed by its payload. -/
def Obligations.EchoedCommandComesBack : Prop :=
  ∀ (s t u : State) (pre : List Byte) (rest : List (List Byte)),
    s.curLen.toNat ≤ 253 → exec .encode s = .next t → MemoryInv u → pre.length = u.params.respPrefix.val →
    u.answers = (pre ++ t.txFrame) :: rest → u.curLen.toNat = s.curLen.toNat + 1 → u.curLen.toNat ≤ u.curBuf.cap →
    ∃ v, exec .readResponse u = .next v ∧ replyCount v = u.curLen ∧
      Memory.read v.mem u.curBuf.base = s.curCmd ∧
      ∀ k, k < s.curLen.toNat →
        Memory.read v.mem (u.curBuf.base + 1 + k) = Memory.read s.mem (s.curBuf.base + k)

/-- R117: one byte of a well-formed reply is changed. LEN, LCS, TFI, a data byte or DCS: the count is 0. PRE, SOF0, SOF1, POST
or the prefix byte: the count is still req. -/
def Obligations.SingleByteCorruption : Prop :=
  ∀ (s : State) (r : List Byte) (rest : List (List Byte)) (i : Nat) (b : Byte),
    let p := s.params.respPrefix.val
    let req := s.curLen.toNat
    let f := r.drop p
    1 ≤ req → req ≤ s.curBuf.cap → r.length = p + 8 + req →
    (byteAt f 3).toNat = req + 1 → ((byteAt f 3).toNat + (byteAt f 4).toNat) % 256 = 0 →
    zeroSum ((f.drop 5).take (req + 2)) = true →
    i < r.length → b ≠ byteAt r i → s.answers = r.set i b :: rest →
    ∃ t, exec .readResponse s = .next t ∧
      replyCount t = (if p + 3 ≤ i ∧ i ≤ p + 6 + req then 0x00 else s.curLen)

/-- 20_memory.md R48, R108: a destination shorter than req leaves READ_RESPONSE, and the RECEIVE_RESPONSE that runs it, with no
step. -/
def Obligations.ShortDestinationHasNoStep : Prop :=
  ∀ s : State, s.answers ≠ [] → s.curBuf.cap < s.curLen.toNat →
    exec .readResponse s = .fault .stuckBufWrite ∧
    (s.isIn .readingResponse → exec (.receiveResponse s.curLen) s = .fault .stuckBufWrite)

/-! ## The protocol FSM -/

/-- R121 (steps 1 to 3), R122, R123: ENCODING, TRANSMITTING and SETTLING. -/
def Obligations.SendCommandEarlySteps : Prop :=
  ∀ s : State,
    (s.isIn .encoding → s.curLen.toNat ≤ s.curBuf.cap → exec (.sendCommand s.curCmd s.curLen) s = .next { s with
      txFrame := commandFrame s.curCmd ((List.range s.curLen.toNat).map fun k => Memory.read s.mem (s.curBuf.base + k)),
      state := 0x2 }) ∧
    (s.isIn .transmitting → ∀ d rest, s.answers = d :: rest → exec (.sendCommand s.curCmd s.curLen) s = .next { s with
      answers := rest, busLog := s.busLog ++ [.write s.busAddr s.txFrame], state := 0x3 }) ∧
    (s.isIn .settling → exec (.sendCommand s.curCmd s.curLen) s = .next { s with
      attCnt := s.params.maxAttemptsAck, state := 0x4 })

/-- R126: the completion of SEND_COMMAND. -/
def Obligations.SendCommandCompletion : Prop :=
  ∀ s : State,
    (s.isIn .acked → exec (.sendCommand s.curCmd s.curLen) s =
      .next { s with sendOk := true, lastErr := 0x0, done := true, state := 0x0 }) ∧
    (s.isIn .notAcked → exec (.sendCommand s.curCmd s.curLen) s =
      .next { s with sendOk := false, lastErr := 0x2, done := true, state := 0x0 }) ∧
    (s.isIn .timeout → exec (.sendCommand s.curCmd s.curLen) s =
      .next { s with sendOk := false, lastErr := 0x1, done := true, state := 0x0 })

/-- R129, 60_exceptions.md R139: the completion of RECEIVE_RESPONSE and the priority of its errors. INVALID is entered only
with a noted timeout or a failed check (the invariant of EveryStepKeepsTheInvariant). -/
def Obligations.ReceiveResponseCompletion : Prop :=
  ∀ s : State,
    (s.isIn .valid → exec (.receiveResponse s.curLen) s =
      .next { s with recvCount := s.curLen, lastErr := 0x0, done := true, state := 0x0 }) ∧
    (s.isIn .invalid → (s.timedOut = true ∨ s.hdrOk = false ∨ s.dcsOk = false) →
      exec (.receiveResponse s.curLen) s = .next { s with
        recvCount := 0x00, done := true, state := 0x0,
        lastErr := if s.timedOut then 0x3 else if s.hdrOk = false then 0x4 else 0x5 })

/-- R127 (step 2): the step of READING_RESPONSE reads one reply, checks it, and moves it; its frame over memory is that of the
destination's bytes 0..req-1. -/
def Obligations.ReadingResponseStep : Prop :=
  ∀ (s : State) (d : List Byte) (rest : List (List Byte)),
    s.quiet → s.isIn .readingResponse → MemoryInv s → s.answers = d :: rest → s.curLen.toNat ≤ s.curBuf.cap →
    ∃ t, step s = .next t ∧ t.state = (if t.hdrOk && t.dcsOk then 0xB else 0xC) ∧
      t = { s with
        rxLen := t.rxLen, rxLcs := t.rxLcs, rxTfi := t.rxTfi, rxDcs := t.rxDcs, hdrOk := t.hdrOk,
        remaining := t.remaining, sumAcc := t.sumAcc, dcsOk := t.dcsOk, state := t.state, answers := rest,
        busLog := s.busLog ++ [.read s.busAddr (s.params.respPrefix.val + 8 + s.curLen.toNat)],
        mem := t.mem, drawCount := t.drawCount } ∧
      (∀ a, (a < s.curBuf.base ∨ s.curBuf.base + s.curLen.toNat ≤ a) → Memory.read t.mem a = Memory.read s.mem a)

/-- R27, R28, R29: `send_ok` is written by the completion steps of SEND_COMMAND only, `recv_count` by those of
RECEIVE_RESPONSE only, `last_err` by those of either; `done` is set by them and cleared by acceptance only. -/
def Obligations.ResultsAreWrittenByCompletionsOnly : Prop :=
  ∀ s t : State, step s = .next t →
    (t.sendOk ≠ s.sendOk → s.isIn .acked ∨ s.isIn .notAcked ∨ s.isIn .timeout) ∧
    (t.recvCount ≠ s.recvCount → s.isIn .valid ∨ s.isIn .invalid) ∧
    (t.lastErr ≠ s.lastErr → s.isIn .acked ∨ s.isIn .notAcked ∨ s.isIn .timeout ∨ s.isIn .valid ∨ s.isIn .invalid) ∧
    (s.done = false → t.done = true →
      s.isIn .acked ∨ s.isIn .notAcked ∨ s.isIn .timeout ∨ s.isIn .valid ∨ s.isIn .invalid) ∧
    (s.done = true → t.done = false → s.isIn .idle ∧ s.reqValid = true)

/-- R25: each condition flag is written by its own operation only, over every step of the core. -/
def Obligations.EachFlagHasItsWriter : Prop :=
  ∀ s t : State, step s = .next t →
    (t.rdy ≠ s.rdy → (s.isIn .pollingAck ∨ s.isIn .pollingResp) ∧ s.attCnt ≠ 0) ∧
    (t.ackOk ≠ s.ackOk → s.isIn .readingAck) ∧
    ((t.hdrOk ≠ s.hdrOk ∨ t.dcsOk ≠ s.dcsOk) → s.isIn .readingResponse)

/-- R32, 70_reset_and_hazards.md R156: no operation changes `bus_addr` or a parameter, and reset loads `bus_addr` with
`P_BUS_ADDR`. -/
def Obligations.ConfigurationNeverChanges : Prop :=
  (∀ (i : Instr) (s t : State), exec i s = .next t → t.busAddr = s.busAddr ∧ t.params = s.params) ∧
  (∀ s t : State, step s = .next t → t.busAddr = s.busAddr ∧ t.params = s.params) ∧
  ∀ s : State, s.assertReset.busAddr = s.params.busAddr ∧ s.assertReset.params = s.params

/-- R36, R46: no byte of the caller's memory outside the destination buffer changes in a step, and a SEND_COMMAND changes
none. -/
def Obligations.StepWritesTheDestinationOnly : Prop :=
  ∀ (s t : State) (a : Nat), MemoryInv s → step s = .next t →
    (¬ s.isIn .readingResponse ∨ s.curBuf.covers a = false) → Memory.read t.mem a = Memory.read s.mem a

/-! ## Whole operations -/

/-- R121, R134, R161: a whole SEND_COMMAND whose transport answers the write, then `k` not-ready status bytes within the bound,
a ready one, and the ACK read: k + 7 steps after the request is presented it has completed, its bus traffic is one write, k + 1
status reads and one ACK read, and `send_ok` says whether the six bytes were the pattern (the accepted request is withdrawn: the
model's choice, log entry 11). -/
def Obligations.SendCommandRunsToItsAck : Prop :=
  ∀ (s : State) (cmd len : Byte) (w : List Byte) (nots : List Byte) (rb : Byte) (a : List Byte) (rest : List (List Byte)),
    s.faultRecord = none → s.isIn .idle → s.reqValid = true → decodeRequest s.reqWord = .ok (.sendCommand cmd len) →
    len.toNat ≤ 253 → len.toNat ≤ s.reqBuf.cap →
    (∀ b ∈ nots, b.getLsbD 0 = false) → rb.getLsbD 0 = true → nots.length < s.params.maxAttemptsAck.toNat →
    s.params.ackPrefix.val + 6 ≤ a.length →
    s.answers = w :: (nots.map (fun b => [b]) ++ [rb] :: a :: rest) →
    ∃ t ok, Host.Core.run Sys2Proof.core (nots.length + 7) s = .next t ∧
      (ok = true ↔ (a.drop s.params.ackPrefix.val).take 6 = [0x00, 0x00, 0xFF, s.params.ackA3, s.params.ackA4, 0x00]) ∧
      t.isIn .idle ∧ t.done = true ∧ t.sendOk = ok ∧ t.lastErr = (if ok then 0x0 else 0x2) ∧
      t.recvCount = s.recvCount ∧ t.mem = s.mem ∧ t.answers = rest ∧
      t.busLog = s.busLog ++
        [.write s.busAddr (commandFrame cmd ((List.range len.toNat).map fun k => Memory.read s.mem (s.reqBuf.base + k)))] ++
        List.replicate (nots.length + 1) (.read s.busAddr 1) ++ [.read s.busAddr (s.params.ackPrefix.val + 6)]

/-- R121, R124, R161: a whole SEND_COMMAND that reads its bound of status bytes, none with RDY = 1, ends with E_TIMEOUT_ACK
P_MAX_ATTEMPTS_ACK + 6 steps after the request is presented (P_MAX_ATTEMPTS_ACK + 5 after acceptance), with no ACK read;
`att_cnt` and `rdy` are 0, or `rdy` unchanged under a zero bound (60_exceptions.md R138; the accepted request is withdrawn: the
model's choice, log entry 11). -/
def Obligations.SendCommandTimesOut : Prop :=
  ∀ (s : State) (cmd len : Byte) (w : List Byte) (nots : List Byte) (rest : List (List Byte)),
    s.faultRecord = none → s.isIn .idle → s.reqValid = true → decodeRequest s.reqWord = .ok (.sendCommand cmd len) →
    len.toNat ≤ 253 → len.toNat ≤ s.reqBuf.cap →
    (∀ b ∈ nots, b.getLsbD 0 = false) → nots.length = s.params.maxAttemptsAck.toNat →
    s.answers = w :: (nots.map (fun b => [b]) ++ rest) →
    ∃ t, Host.Core.run Sys2Proof.core (nots.length + 6) s = .next t ∧
      t.isIn .idle ∧ t.done = true ∧ t.sendOk = false ∧ t.lastErr = 0x1 ∧ t.answers = rest ∧
      t.attCnt = 0 ∧ t.rdy = (if s.params.maxAttemptsAck = 0 then s.rdy else false) ∧
      t.recvCount = s.recvCount ∧ t.mem = s.mem ∧
      t.busLog = s.busLog ++
        [.write s.busAddr (commandFrame cmd ((List.range len.toNat).map fun k => Memory.read s.mem (s.reqBuf.base + k)))] ++
        List.replicate nots.length (.read s.busAddr 1)

/-- R127, R134, R93: a whole RECEIVE_RESPONSE whose transport answers `k` not-ready status bytes within the bound, a ready one,
and a reply around any body of `len` bytes: k + 4 steps after the request is presented it has completed with
`recv_count = len` and the body in the destination (the accepted request is withdrawn: the model's choice, log entry 11). -/
def Obligations.ReceiveResponseRunsToItsReply : Prop :=
  ∀ (s : State) (len : Byte) (nots : List Byte) (rb tfi : Byte) (pre body : List Byte) (rest : List (List Byte)),
    s.faultRecord = none → s.isIn .idle → s.reqValid = true → decodeRequest s.reqWord = .ok (.receiveResponse len) →
    MemoryInv s → len.toNat ≤ s.reqBuf.cap → body.length = len.toNat → body.length ≤ 254 →
    pre.length = s.params.respPrefix.val →
    (∀ b ∈ nots, b.getLsbD 0 = false) → rb.getLsbD 0 = true → nots.length < s.params.maxAttemptsResp.toNat →
    s.answers = nots.map (fun b => [b]) ++ [rb] ::
      (pre ++ [0x00, 0x00, 0xFF, BitVec.ofNat 8 (body.length + 1), neg8 (body.length + 1), tfi] ++ body ++
        [neg8 (tfi.toNat + (body.map BitVec.toNat).sum), 0x00]) :: rest →
    ∃ t, Host.Core.run Sys2Proof.core (nots.length + 4) s = .next t ∧
      t.isIn .idle ∧ t.done = true ∧ t.recvCount = len ∧ t.lastErr = 0x0 ∧ t.sendOk = s.sendOk ∧ t.answers = rest ∧
      (∀ k, k < body.length → Memory.read t.mem (s.reqBuf.base + k) = byteAt body k) ∧
      t.busLog = s.busLog ++ List.replicate (nots.length + 1) (.read s.busAddr 1) ++
        [.read s.busAddr (s.params.respPrefix.val + 8 + len.toNat)]

/-- R161: with a transport that answers, every accepted request completes within the bound: P_MAX_ATTEMPTS_ACK + 5 or
P_MAX_ATTEMPTS_RESP + 3 steps after its acceptance step (the accepted request is withdrawn: the model's choice, log entry
11). -/
def Obligations.AnsweredRequestsTerminate : Prop :=
  ∀ s : State, s.faultRecord = none → s.isIn .idle → s.reqValid = true →
    (∀ cmd len, decodeRequest s.reqWord = .ok (.sendCommand cmd len) → len.toNat ≤ 253 → len.toNat ≤ s.reqBuf.cap →
      s.params.maxAttemptsAck.toNat + 2 ≤ s.answers.length →
      ∃ k t, k ≤ s.params.maxAttemptsAck.toNat + 5 ∧ Host.Core.run Sys2Proof.core (k + 1) s = .next t ∧
        t.isIn .idle ∧ t.done = true) ∧
    (∀ len, decodeRequest s.reqWord = .ok (.receiveResponse len) → len.toNat ≤ s.reqBuf.cap →
      s.params.maxAttemptsResp.toNat + 1 ≤ s.answers.length →
      ∃ k t, k ≤ s.params.maxAttemptsResp.toNat + 3 ∧ Host.Core.run Sys2Proof.core (k + 1) s = .next t ∧
        t.isIn .idle ∧ t.done = true)

/-- R132: between operations the core is stateless: two idle cores that agree on the ports, the caller's memory, the
parameters and the draws still to come go through the same states, the same bus traffic and the same memory, whatever their
other registers hold, and complete with the same code (the accepted request is withdrawn, the draws and the record of traffic:
the model's choices, log entries 11, 5 and 21). -/
def Obligations.OperationsAreStateless : Prop :=
  ∀ (s s' t : State) (k : Nat), s.isIn .idle → SameWorld s s' → Host.Core.run Sys2Proof.core k s = .next t →
    ∃ t', Host.Core.run Sys2Proof.core k s' = .next t' ∧ SameWorld t t' ∧
      (s.reqValid = true → 1 ≤ k → t.isIn .idle → t.faultRecord = none → t.done = true ∧ t'.done = true ∧ t'.lastErr = t.lastErr)

/-! ## The wire patterns -/

/-- 30_encoding.md R73, 41_status_poller.md R96: a status byte that WAIT_READY reads counts one attempt and latches RDY, bits
7:1 ignored; a poll with no attempt left reads none (what an operation of a wire pattern is, is the model's choice, log entry
15). -/
def Obligations.StatusPatternsCountAndLatch : Prop :=
  ∀ (s : State) (rsv : BitVec 7),
    (s.attCnt ≠ 0 → exec (.wireStatusReady rsv) s = .next { s with attCnt := s.attCnt - 1, rdy := true }) ∧
    (s.attCnt ≠ 0 → exec (.wireStatusNotReady rsv) s = .next { s with attCnt := s.attCnt - 1, rdy := false }) ∧
    (s.attCnt = 0 → exec (.wireStatusReady rsv) s = .next s ∧ exec (.wireStatusNotReady rsv) s = .next s)

/-- 30_encoding.md R71, 42_ack_validator.md R105: the ACK frame 00 00 FF a b 00 is the pattern exactly when its discriminator is
the parameter's (what an operation of a wire pattern is, is the model's choice, log entry 15). -/
def Obligations.AckPatternIsCompared : Prop :=
  ∀ (s : State) (a b : Byte), exec (.wireAckFrame a b) s =
    .next { s with ackOk := decide (a = s.params.ackA3 ∧ b = s.params.ackA4) }

/-- 30_encoding.md R64: the frame start and the frame that ENCODE lays into `tx_frame`, outside READING_RESPONSE (what an
operation of a wire pattern is, is the model's choice, log entry 15). -/
def Obligations.FramePatternsAreLaidIntoTheFrame : Prop :=
  ∀ s : State,
    exec .wireFrameStart s = .next { s with txFrame := [0x00, 0x00, 0xFF] ++ s.txFrame.drop 3 } ∧
    ∀ (len lcs tfi cmd : Byte) (payload : List Byte) (dcs : Byte), ¬ s.isIn .readingResponse →
      exec (.wireNormalInformationFrame len lcs tfi cmd payload dcs) s =
        .next { s with txFrame := [0x00, 0x00, 0xFF, len, lcs, tfi, cmd] ++ payload ++ [dcs, 0x00] }

/-- 43_response_frame_parser.md R108: in READING_RESPONSE a well-formed frame is the reply READ_RESPONSE parses: its command byte
and payload reach the destination; nothing else of memory changes; a short destination has no step (what an operation of a wire
pattern is, is the model's choice, log entry 15). -/
def Obligations.FramePatternIsParsedAsAReply : Prop :=
  ∀ (s : State) (len lcs tfi cmd : Byte) (payload : List Byte) (dcs : Byte),
    s.isIn .readingResponse → MemoryInv s →
    (Instr.wireNormalInformationFrame len lcs tfi cmd payload dcs).WellFormed →
    s.curLen.toNat = payload.length + 1 →
    (payload.length + 1 ≤ s.curBuf.cap →
      ∃ t, exec (.wireNormalInformationFrame len lcs tfi cmd payload dcs) s = .next t ∧
        t = { s with
          rxLen := len, rxLcs := lcs, rxTfi := tfi, rxDcs := dcs, hdrOk := true, dcsOk := true, sumAcc := 0x00,
          remaining := len - 1, mem := t.mem } ∧
        (∀ k, k < payload.length + 1 → Memory.read t.mem (s.curBuf.base + k) = byteAt (cmd :: payload) k) ∧
        (∀ a, (a < s.curBuf.base ∨ s.curBuf.base + (payload.length + 1) ≤ a) →
          Memory.read t.mem a = Memory.read s.mem a)) ∧
    (s.curBuf.cap < payload.length + 1 →
      exec (.wireNormalInformationFrame len lcs tfi cmd payload dcs) s = .fault .stuckBufWrite)

/-! ## The ports and reset -/

/-- 10_state.md R30: the fields of the STATUS view, and its value after reset. -/
def Obligations.StatusViewFields : Prop :=
  (∀ s : State,
    (statusView s).getLsbD 0 = decide (s.state ≠ 0x0) ∧ (statusView s).getLsbD 1 = s.done ∧
    (statusView s).getLsbD 2 = s.sendOk ∧ (statusView s).getLsbD 3 = false ∧
    (statusView s).extractLsb' 4 4 = s.lastErr ∧ (statusView s).extractLsb' 8 8 = s.recvCount) ∧
  statusView State.reset = 0x0000

/-- 10_state.md R31: the fields of the DIAG view, and bits 15:0 of its value after reset. -/
def Obligations.DiagViewFields : Prop :=
  (∀ s : State,
    (diagView s).getLsbD 0 = s.rdy ∧ (diagView s).getLsbD 1 = s.ackOk ∧
    (diagView s).getLsbD 2 = s.hdrOk ∧ (diagView s).getLsbD 3 = s.dcsOk ∧
    (diagView s).extractLsb' 4 4 = s.state ∧ (diagView s).extractLsb' 8 8 = s.remaining ∧
    (diagView s).extractLsb' 16 16 = s.attCnt) ∧
  (diagView State.reset).extractLsb' 0 16 = 0x0000

/-- 70_reset_and_hazards.md R153, R154: what reset leaves, at any time: the specified registers, an idle core that waits for a
request, no result latched; the transport, the fault record and the parameters untouched; every byte of the destination buffer
of an abandoned RECEIVE_RESPONSE a draw, and no other byte of memory changed (that the whole region `cur_buf` names is that
buffer, log entry 19; that reset of a faulted state acts on the registers too, log entry 34). -/
def Obligations.ResetLeavesTheSpecifiedValues : Prop :=
  ∀ s : State, MemoryInv s →
    let t := s.assertReset
    t.state = 0x0 ∧ t.busAddr = s.params.busAddr ∧ t.rdy = false ∧ t.ackOk = false ∧ t.hdrOk = false ∧ t.dcsOk = false ∧
    t.sendOk = false ∧ t.recvCount = 0x00 ∧ t.lastErr = 0x0 ∧ t.done = false ∧ t.remaining = 0x00 ∧
    t.answers = s.answers ∧ t.busLog = s.busLog ∧ t.faultRecord = s.faultRecord ∧ t.params = s.params ∧
    (s.quiet → step t = .next t) ∧
    (s.inReply → ∀ k, k < s.curBuf.cap → Memory.read t.mem (s.curBuf.base + k) = Config.draw (s.drawCount + k)) ∧
    (∀ a, (¬ s.inReply ∨ a < s.curBuf.base ∨ s.curBuf.base + s.curBuf.cap ≤ a) →
      Memory.read t.mem a = Memory.read s.mem a)

/-- 20_memory.md R58, 60_exceptions.md R146, 93_implementation_defined.md U9: a caller's write to the borrowed buffer while busy
raises F_BUF_RACE and changes nothing else; any other write stores its byte; a caller's read of the borrowed buffer while busy,
payload or destination, is a free byte and changes nothing but the count of draws; any other read gives what memory holds (that
the borrowed buffer is the whole region `cur_buf` names is the model's reading, log entry 28). -/
def Obligations.BorrowedBufferIsGuarded : Prop :=
  ∀ (s : State) (a : Nat) (v : Byte), MemoryInv s → s.faultRecord = none →
    (¬ s.isIn .idle → s.curBuf.base ≤ a → a < s.curBuf.base + s.curBuf.cap →
      s.callerWrite a v = { s with faultRecord := some .bufRace } ∧
      s.callerRead a = (Config.draw s.drawCount, { s with drawCount := s.drawCount + 1 })) ∧
    ((s.isIn .idle ∨ a < s.curBuf.base ∨ s.curBuf.base + s.curBuf.cap ≤ a) →
      s.callerWrite a v = { s with mem := (s.callerWrite a v).mem } ∧
      (∀ x, Memory.read (s.callerWrite a v).mem x = if x = a then v else Memory.read s.mem x) ∧
      s.callerRead a = (Memory.read s.mem a, s))

/-- The caller and the transport, which act between two steps (log entry 20), keep the invariant as a step does: 10_state.md R33,
20_memory.md R50 and R58. With EveryStepKeepsTheInvariant and ResetEstablishesTheInvariant it holds in every run. -/
def Obligations.EnvironmentKeepsTheInvariant : Prop :=
  ∀ s : State, s.Inv →
    (∀ a v, (s.callerWrite a v).Inv) ∧ (∀ a, (s.callerRead a).2.Inv) ∧
    (∀ w h, (s.presentRequest w h).Inv) ∧ (∀ d, (s.transportAnswer d).Inv)
end

