-- ==== Sys2Proof/Laws/Checksum.lean ====
section
/-!
SUPPORT. Arithmetic of the checksums: sums over parts, neg8, and the running sum of VERIFY_FOOTER as one exact sum mod 256
(00_scope.md R9; 40_frame_codec.md R85, R90, R94).
-/

namespace Sys2Proof.Machine

@[simp] theorem byteSum_nil : byteSum [] = 0 := rfl

@[simp] theorem byteSum_cons (b : Byte) (s : List Byte) : byteSum (b :: s) = b.toNat + byteSum s := by
  simp [byteSum]

@[simp] theorem byteSum_append (s t : List Byte) : byteSum (s ++ t) = byteSum s + byteSum t := by
  simp [byteSum]

/-- The value of `neg8`. -/
theorem neg8_toNat (v : Nat) : (neg8 v).toNat = (256 - v % 256) % 256 := by
  simp only [neg8, BitVec.toNat_ofNat]
  omega

/-- `(s + neg8(s)) mod 256 = 0` (R9). -/
theorem add_neg8 (v : Nat) : (v + (neg8 v).toNat) % 256 = 0 := by
  rw [neg8_toNat]
  omega

/-- Zero is the only byte whose number is 0. -/
theorem byte_eq_zero_iff (b : Byte) : b = 0x00 ↔ b.toNat = 0 := by
  constructor
  · rintro rfl; rfl
  · intro h; exact BitVec.eq_of_toNat_eq h

/-- One update of the running checksum as a number. -/
theorem accumulate_toNat (acc b : Byte) : (accumulate acc b).toNat = (acc.toNat + b.toNat) % 256 := by
  simp only [accumulate, BitVec.toNat_ofNat]
  omega

/-- A running sum updated byte by byte equals the sum over the whole sequence (R94). -/
theorem foldl_accumulate_toNat (acc : Byte) (s : List Byte) :
    (s.foldl accumulate acc).toNat = (acc.toNat + byteSum s) % 256 := by
  induction s generalizing acc with
  | nil => simp only [List.foldl_nil, byteSum_nil]; omega
  | cons b s ih =>
    simp only [List.foldl_cons, byteSum_cons]
    rw [ih, accumulate_toNat]
    omega

/-- `sum_acc` at the end of VERIFY_FOOTER is the exact sum of its operands mod 256 (R90). -/
theorem footerSum_toNat (tfi : Byte) (cmd : Option Byte) (data : List Byte) (dcs : Byte) :
    (footerSum tfi cmd data dcs).toNat =
      (tfi.toNat + (cmd.map BitVec.toNat).getD 0 + byteSum data + dcs.toNat) % 256 := by
  cases cmd <;> simp only [footerSum, accumulate_toNat, foldl_accumulate_toNat, Option.map_some, Option.map_none,
    Option.getD_some, Option.getD_none] <;> omega

/-- `dcs_ok` says that the exact sum is 0 mod 256 (R90). -/
theorem dcsOkOf_footerSum (tfi : Byte) (cmd : Option Byte) (data : List Byte) (dcs : Byte) :
    dcsOkOf (footerSum tfi cmd data dcs) = true ↔
      (tfi.toNat + (cmd.map BitVec.toNat).getD 0 + byteSum data + dcs.toNat) % 256 = 0 := by
  rw [← footerSum_toNat, dcsOkOf, beq_iff_eq, byte_eq_zero_iff]

/-- `hdr_ok` says that LEN + LCS is 0 mod 256 (R88). -/
theorem hdrOkOf_iff (len lcs : Byte) : hdrOkOf len lcs = true ↔ (len.toNat + lcs.toNat) % 256 = 0 := by
  simp [hdrOkOf]

/-- `remaining` is LEN - 1, and 0xFF for LEN = 0 (R88). -/
theorem remainingOf_toNat (len : Byte) : (remainingOf len).toNat = (len.toNat + 255) % 256 := by
  simp only [remainingOf, BitVec.toNat_ofNat]
  omega

end Sys2Proof.Machine
end

