-- ==== Sys2Proof/Laws/Decode.lean ====
section
/-!
SUPPORT. The fields of a request word, both ways (30_encoding.md R76, R80), and the status byte (R73).
-/

namespace Sys2Proof

/-- The three bytes of an assembled word carry its fields (R76, R80). -/
theorem assembleRequest_fields (op : BitVec 4) (cmd len : Byte) (rest : List Byte) :
    ∃ b0 b1 b2, wordBytes (assembleRequest op cmd len) ++ rest = b0 :: b1 :: b2 :: rest ∧
      requestOp (bytesWord b0 b1 b2) = op ∧ requestRsv (bytesWord b0 b1 b2) = 0#4 ∧
      requestCmd (bytesWord b0 b1 b2) = cmd ∧ requestLen (bytesWord b0 b1 b2) = len := by
  refine ⟨_, _, _, rfl, ?_, ?_, ?_, ?_⟩ <;>
  · apply BitVec.eq_of_getLsbD_eq
    intro i hi
    have : i = 0 ∨ i = 1 ∨ i = 2 ∨ i = 3 ∨ i = 4 ∨ i = 5 ∨ i = 6 ∨ i = 7 := by omega
    rcases this with rfl | rfl | rfl | rfl | rfl | rfl | rfl | rfl <;>
    first
    | (exfalso; revert hi; decide)
    | (simp only [requestOp, requestRsv, requestCmd, requestLen, bytesWord, assembleRequest,
        BitVec.getLsbD_extractLsb', BitVec.getLsbD_append, BitVec.getLsbD_setWidth, BitVec.getLsbD_or,
        BitVec.getLsbD_shiftLeft]
       simp)

/-- A word with `rsv = 0` is the word assembled from its fields (R76, R80). -/
theorem assembleRequest_of_fields (w : BitVec 24) (hr : requestRsv w = 0#4) :
    assembleRequest (requestOp w) (requestCmd w) (requestLen w) = w := by
  have hr' : ∀ i, i < 4 → w.getLsbD (4 + i) = false := by
    intro i hi
    have := congrArg (·.getLsbD i) hr
    simpa [requestRsv, hi] using this
  apply BitVec.eq_of_getLsbD_eq
  intro i hi
  have h0 := hr' 0 (by omega)
  have h1 := hr' 1 (by omega)
  have h2 := hr' 2 (by omega)
  have h3 := hr' 3 (by omega)
  clear hr hr'
  interval_cases i <;> simp_all [assembleRequest, requestOp, requestCmd, requestLen]

/-- The three bytes of the word of three bytes. -/
theorem wordBytes_bytesWord (b0 b1 b2 : Byte) : wordBytes (bytesWord b0 b1 b2) = [b0, b1, b2] := by
  simp only [wordBytes, bytesWord]
  congr 1
  · apply BitVec.eq_of_getLsbD_eq
    intro i hi
    simp only [BitVec.getLsbD_extractLsb', BitVec.getLsbD_append]
    simp [hi]
  · congr 1
    · apply BitVec.eq_of_getLsbD_eq
      intro i hi
      simp only [BitVec.getLsbD_extractLsb', BitVec.getLsbD_append]
      simp [hi, show ¬ 8 + i < 8 by omega]
    · congr 1
      apply BitVec.eq_of_getLsbD_eq
      intro i hi
      simp only [BitVec.getLsbD_extractLsb', BitVec.getLsbD_append]
      simp [hi, show ¬ 16 + i < 8 by omega, show 16 + i - 8 - 8 = i by omega, show ¬ 16 + i - 8 < 8 by omega]

/-- A status byte decodes to its own bits (R73). -/
theorem decodeStatus_statusByte : ∀ (rsv : BitVec 7) (rdy : Bool),
    decodeStatus (statusByte rsv rdy) = (if rdy then .wireStatusReady rsv else .wireStatusNotReady rsv) := by decide

/-- Every status byte is the encoding of what it decodes to (R73). -/
theorem encode_decodeStatus : ∀ b : Byte, encode (decodeStatus b) = [b] ∧ portOf (decodeStatus b) = .status := by decide

end Sys2Proof
end

