-- ==== Sys2Proof/Laws/Memory.lean ====
section
/-!
SUPPORT. The laws of the caller's memory: a read after a write, a write leaves every other address alone, and every
operation keeps the canonical form.
-/

namespace Sys2Proof.Machine

theorem Memory.read_cons (a : Nat) (b : Byte) (m : Memory) (x : Nat)
    (hx : x ≤ a → Memory.read m x = Memory.unlisted) :
    Memory.read (Memory.cons a b m) x = if x = a then b else Memory.read m x := by
  unfold Memory.cons
  split
  · rename_i hb
    split
    · rename_i h
      rw [hx (by omega), hb]
    · rfl
  · simp only [Memory.read]
    by_cases h : a = x
    · simp [h]
    · simp [h, Ne.symm h]

/-- Below every listed address memory reads as unlisted. -/
theorem Memory.read_below (m : Memory) (a x : Nat) (hw : m.wf = true) (ha : Memory.above a m = true) (hx : x ≤ a) :
    Memory.read m x = Memory.unlisted := by
  induction m generalizing a with
  | nil => rfl
  | cons p rest ih =>
    obtain ⟨a', b'⟩ := p
    simp only [Memory.above, decide_eq_true_eq] at ha
    simp only [Memory.wf, Bool.and_eq_true] at hw
    have : ¬ a' = x := by omega
    simp only [Memory.read, this, if_false]
    exact ih a' hw.2 hw.1.1 (by omega)

theorem Memory.above_mono (m : Memory) {a a' : Nat} (h : a ≤ a') (hm : Memory.above a' m = true) :
    Memory.above a m = true := by
  cases m with
  | nil => rfl
  | cons p rest => simp only [Memory.above, decide_eq_true_eq] at *; omega

theorem Memory.above_cons (m : Memory) (a a' : Nat) (b : Byte) (h : a < a') (hm : Memory.above a m = true) :
    Memory.above a (Memory.cons a' b m) = true := by
  unfold Memory.cons
  split
  · exact hm
  · simpa [Memory.above] using h

theorem Memory.cons_wf (m : Memory) (a : Nat) (b : Byte) (hw : m.wf = true) (ha : Memory.above a m = true) :
    (Memory.cons a b m).wf = true := by
  unfold Memory.cons
  split
  · exact hw
  · rename_i hb
    simp [Memory.wf, hw, ha, hb]

/-- A write above `a` keeps every listed address above `a`. -/
theorem Memory.above_write (m : Memory) (a x : Nat) (b : Byte) (h : a < x) (hw : m.wf = true)
    (hm : Memory.above a m = true) : Memory.above a (Memory.write m x b) = true := by
  cases m with
  | nil => exact Memory.above_cons [] a x b h rfl
  | cons p rest =>
    obtain ⟨a', b'⟩ := p
    simp only [Memory.wf, Bool.and_eq_true] at hw
    have ha' : a < a' := by simpa [Memory.above] using hm
    simp only [Memory.write]
    split
    · exact Memory.above_cons _ a x b h hm
    · split
      · rename_i h2
        exact Memory.above_cons _ a x b h (Memory.above_mono rest (by omega) hw.1.1)
      · simpa [Memory.above] using ha'

/-- A write keeps the canonical form. -/
theorem Memory.write_wf (m : Memory) (a : Nat) (b : Byte) (hw : m.wf = true) : (Memory.write m a b).wf = true := by
  induction m with
  | nil => exact Memory.cons_wf [] a b rfl rfl
  | cons p rest ih =>
    obtain ⟨a', b'⟩ := p
    have hw' := hw
    simp only [Memory.wf, Bool.and_eq_true] at hw'
    simp only [Memory.write]
    split
    · exact Memory.cons_wf _ a b hw (by simpa [Memory.above])
    · split
      · rename_i h2
        exact Memory.cons_wf _ a b hw'.2 (h2 ▸ hw'.1.1)
      · simp only [Memory.wf, Bool.and_eq_true]
        exact ⟨⟨Memory.above_write rest a' a b (by omega) hw'.2 hw'.1.1, hw'.1.2⟩, ih hw'.2⟩

/-- A read after a write: the byte written at its address, the old byte everywhere else. -/
theorem Memory.read_write (m : Memory) (a x : Nat) (b : Byte) (hw : m.wf = true) :
    Memory.read (Memory.write m a b) x = if x = a then b else Memory.read m x := by
  induction m with
  | nil => exact Memory.read_cons a b [] x (fun _ => rfl)
  | cons p rest ih =>
    obtain ⟨a', b'⟩ := p
    have hw' := hw
    simp only [Memory.wf, Bool.and_eq_true] at hw'
    simp only [Memory.write]
    split
    · rename_i h
      have hab : Memory.above a ((a', b') :: rest) = true := by simpa [Memory.above] using h
      exact Memory.read_cons a b _ x (fun hx => Memory.read_below _ a x hw hab hx)
    · split
      · rename_i h2
        subst h2
        rw [Memory.read_cons a' b rest x (fun hx => Memory.read_below _ a' x hw'.2 hw'.1.1 hx)]
        by_cases hx : x = a'
        · simp [hx]
        · simp [hx, Memory.read, Ne.symm hx]
      · rename_i h1 h2
        simp only [Memory.read]
        by_cases hx : a' = x
        · have : ¬ x = a := by omega
          simp [hx, this]
        · simp only [hx, if_false]
          exact ih hw'.2

/-- Writes keep the canonical form. -/
theorem Memory.writeAll_wf (m : Memory) (a : Nat) (bs : List Byte) (hw : m.wf = true) :
    (Memory.writeAll m a bs).wf = true := by
  induction bs generalizing m a with
  | nil => exact hw
  | cons b rest ih => exact ih _ _ (Memory.write_wf m a b hw)

/-- A read after writes at consecutive addresses. -/
theorem Memory.read_writeAll (m : Memory) (a x : Nat) (bs : List Byte) (hw : m.wf = true) :
    Memory.read (Memory.writeAll m a bs) x =
      if a ≤ x ∧ x < a + bs.length then byteAt bs (x - a) else Memory.read m x := by
  induction bs generalizing m a with
  | nil =>
    have : ¬ (a ≤ x ∧ x < a + ([] : List Byte).length) := by simp only [List.length_nil]; omega
    rw [if_neg this]
    rfl
  | cons b rest ih =>
    simp only [Memory.writeAll]
    rw [ih _ _ (Memory.write_wf m a b hw), Memory.read_write m a x b hw]
    simp only [List.length_cons]
    by_cases hxa : x = a
    · simp [hxa, byteAt]
    · by_cases h : a + 1 ≤ x ∧ x < a + 1 + rest.length
      · have h2 : a ≤ x ∧ x < a + (rest.length + 1) := by omega
        obtain ⟨k, hk⟩ : ∃ k, x - a = k + 1 := ⟨x - a - 1, by omega⟩
        have h4 : x - (a + 1) = k := by omega
        rw [if_pos h, if_pos h2, hk, h4]
        simp [byteAt]
      · have h2 : ¬ (a ≤ x ∧ x < a + (rest.length + 1)) := by omega
        rw [if_neg h, if_neg h2, if_neg hxa]

end Sys2Proof.Machine
end

