-- ==== Sys2Proof/Laws/State.lean ====
section
/-!
SUPPORT. What each named update of State does to each field: one lemma a field, true by rfl. They let a proof rewrite with
the updates without unfolding a record. Each holds in every state.
-/

namespace Sys2Proof.Machine

/-! ### goto -/

@[simp] theorem State.goto_state (s : State) (st : FsmState) : (s.goto st).state = st.code := rfl
@[simp] theorem State.goto_curOp (s : State) (st : FsmState) : (s.goto st).curOp = s.curOp := rfl
@[simp] theorem State.goto_curCmd (s : State) (st : FsmState) : (s.goto st).curCmd = s.curCmd := rfl
@[simp] theorem State.goto_curLen (s : State) (st : FsmState) : (s.goto st).curLen = s.curLen := rfl
@[simp] theorem State.goto_curBuf (s : State) (st : FsmState) : (s.goto st).curBuf = s.curBuf := rfl
@[simp] theorem State.goto_busAddr (s : State) (st : FsmState) : (s.goto st).busAddr = s.busAddr := rfl
@[simp] theorem State.goto_txFrame (s : State) (st : FsmState) : (s.goto st).txFrame = s.txFrame := rfl
@[simp] theorem State.goto_attCnt (s : State) (st : FsmState) : (s.goto st).attCnt = s.attCnt := rfl
@[simp] theorem State.goto_rdy (s : State) (st : FsmState) : (s.goto st).rdy = s.rdy := rfl
@[simp] theorem State.goto_ackOk (s : State) (st : FsmState) : (s.goto st).ackOk = s.ackOk := rfl
@[simp] theorem State.goto_rxLen (s : State) (st : FsmState) : (s.goto st).rxLen = s.rxLen := rfl
@[simp] theorem State.goto_rxLcs (s : State) (st : FsmState) : (s.goto st).rxLcs = s.rxLcs := rfl
@[simp] theorem State.goto_rxTfi (s : State) (st : FsmState) : (s.goto st).rxTfi = s.rxTfi := rfl
@[simp] theorem State.goto_rxDcs (s : State) (st : FsmState) : (s.goto st).rxDcs = s.rxDcs := rfl
@[simp] theorem State.goto_sumAcc (s : State) (st : FsmState) : (s.goto st).sumAcc = s.sumAcc := rfl
@[simp] theorem State.goto_remaining (s : State) (st : FsmState) : (s.goto st).remaining = s.remaining := rfl
@[simp] theorem State.goto_hdrOk (s : State) (st : FsmState) : (s.goto st).hdrOk = s.hdrOk := rfl
@[simp] theorem State.goto_dcsOk (s : State) (st : FsmState) : (s.goto st).dcsOk = s.dcsOk := rfl
@[simp] theorem State.goto_sendOk (s : State) (st : FsmState) : (s.goto st).sendOk = s.sendOk := rfl
@[simp] theorem State.goto_recvCount (s : State) (st : FsmState) : (s.goto st).recvCount = s.recvCount := rfl
@[simp] theorem State.goto_lastErr (s : State) (st : FsmState) : (s.goto st).lastErr = s.lastErr := rfl
@[simp] theorem State.goto_done (s : State) (st : FsmState) : (s.goto st).done = s.done := rfl
@[simp] theorem State.goto_timedOut (s : State) (st : FsmState) : (s.goto st).timedOut = s.timedOut := rfl
@[simp] theorem State.goto_reqValid (s : State) (st : FsmState) : (s.goto st).reqValid = s.reqValid := rfl
@[simp] theorem State.goto_reqWord (s : State) (st : FsmState) : (s.goto st).reqWord = s.reqWord := rfl
@[simp] theorem State.goto_reqBuf (s : State) (st : FsmState) : (s.goto st).reqBuf = s.reqBuf := rfl
@[simp] theorem State.goto_answers (s : State) (st : FsmState) : (s.goto st).answers = s.answers := rfl
@[simp] theorem State.goto_busLog (s : State) (st : FsmState) : (s.goto st).busLog = s.busLog := rfl
@[simp] theorem State.goto_mem (s : State) (st : FsmState) : (s.goto st).mem = s.mem := rfl
@[simp] theorem State.goto_faultRecord (s : State) (st : FsmState) : (s.goto st).faultRecord = s.faultRecord := rfl
@[simp] theorem State.goto_params (s : State) (st : FsmState) : (s.goto st).params = s.params := rfl
@[simp] theorem State.goto_drawCount (s : State) (st : FsmState) : (s.goto st).drawCount = s.drawCount := rfl

/-! ### raise -/

@[simp] theorem State.raise_state (s : State) (f : ModelFault) : (s.raise f).state = s.state := rfl
@[simp] theorem State.raise_curOp (s : State) (f : ModelFault) : (s.raise f).curOp = s.curOp := rfl
@[simp] theorem State.raise_curCmd (s : State) (f : ModelFault) : (s.raise f).curCmd = s.curCmd := rfl
@[simp] theorem State.raise_curLen (s : State) (f : ModelFault) : (s.raise f).curLen = s.curLen := rfl
@[simp] theorem State.raise_curBuf (s : State) (f : ModelFault) : (s.raise f).curBuf = s.curBuf := rfl
@[simp] theorem State.raise_busAddr (s : State) (f : ModelFault) : (s.raise f).busAddr = s.busAddr := rfl
@[simp] theorem State.raise_txFrame (s : State) (f : ModelFault) : (s.raise f).txFrame = s.txFrame := rfl
@[simp] theorem State.raise_attCnt (s : State) (f : ModelFault) : (s.raise f).attCnt = s.attCnt := rfl
@[simp] theorem State.raise_rdy (s : State) (f : ModelFault) : (s.raise f).rdy = s.rdy := rfl
@[simp] theorem State.raise_ackOk (s : State) (f : ModelFault) : (s.raise f).ackOk = s.ackOk := rfl
@[simp] theorem State.raise_rxLen (s : State) (f : ModelFault) : (s.raise f).rxLen = s.rxLen := rfl
@[simp] theorem State.raise_rxLcs (s : State) (f : ModelFault) : (s.raise f).rxLcs = s.rxLcs := rfl
@[simp] theorem State.raise_rxTfi (s : State) (f : ModelFault) : (s.raise f).rxTfi = s.rxTfi := rfl
@[simp] theorem State.raise_rxDcs (s : State) (f : ModelFault) : (s.raise f).rxDcs = s.rxDcs := rfl
@[simp] theorem State.raise_sumAcc (s : State) (f : ModelFault) : (s.raise f).sumAcc = s.sumAcc := rfl
@[simp] theorem State.raise_remaining (s : State) (f : ModelFault) : (s.raise f).remaining = s.remaining := rfl
@[simp] theorem State.raise_hdrOk (s : State) (f : ModelFault) : (s.raise f).hdrOk = s.hdrOk := rfl
@[simp] theorem State.raise_dcsOk (s : State) (f : ModelFault) : (s.raise f).dcsOk = s.dcsOk := rfl
@[simp] theorem State.raise_sendOk (s : State) (f : ModelFault) : (s.raise f).sendOk = s.sendOk := rfl
@[simp] theorem State.raise_recvCount (s : State) (f : ModelFault) : (s.raise f).recvCount = s.recvCount := rfl
@[simp] theorem State.raise_lastErr (s : State) (f : ModelFault) : (s.raise f).lastErr = s.lastErr := rfl
@[simp] theorem State.raise_done (s : State) (f : ModelFault) : (s.raise f).done = s.done := rfl
@[simp] theorem State.raise_timedOut (s : State) (f : ModelFault) : (s.raise f).timedOut = s.timedOut := rfl
@[simp] theorem State.raise_reqValid (s : State) (f : ModelFault) : (s.raise f).reqValid = s.reqValid := rfl
@[simp] theorem State.raise_reqWord (s : State) (f : ModelFault) : (s.raise f).reqWord = s.reqWord := rfl
@[simp] theorem State.raise_reqBuf (s : State) (f : ModelFault) : (s.raise f).reqBuf = s.reqBuf := rfl
@[simp] theorem State.raise_answers (s : State) (f : ModelFault) : (s.raise f).answers = s.answers := rfl
@[simp] theorem State.raise_busLog (s : State) (f : ModelFault) : (s.raise f).busLog = s.busLog := rfl
@[simp] theorem State.raise_mem (s : State) (f : ModelFault) : (s.raise f).mem = s.mem := rfl
@[simp] theorem State.raise_faultRecord (s : State) (f : ModelFault) : (s.raise f).faultRecord = some (s.faultRecord.getD f) := rfl
@[simp] theorem State.raise_params (s : State) (f : ModelFault) : (s.raise f).params = s.params := rfl
@[simp] theorem State.raise_drawCount (s : State) (f : ModelFault) : (s.raise f).drawCount = s.drawCount := rfl

/-! ### latchRequest -/

@[simp] theorem State.latchRequest_state (s : State) (op : BitVec 4) (cmd len : Byte) : (s.latchRequest op cmd len).state = s.state := rfl
@[simp] theorem State.latchRequest_curOp (s : State) (op : BitVec 4) (cmd len : Byte) : (s.latchRequest op cmd len).curOp = op := rfl
@[simp] theorem State.latchRequest_curCmd (s : State) (op : BitVec 4) (cmd len : Byte) : (s.latchRequest op cmd len).curCmd = cmd := rfl
@[simp] theorem State.latchRequest_curLen (s : State) (op : BitVec 4) (cmd len : Byte) : (s.latchRequest op cmd len).curLen = len := rfl
@[simp] theorem State.latchRequest_curBuf (s : State) (op : BitVec 4) (cmd len : Byte) : (s.latchRequest op cmd len).curBuf = s.reqBuf := rfl
@[simp] theorem State.latchRequest_busAddr (s : State) (op : BitVec 4) (cmd len : Byte) : (s.latchRequest op cmd len).busAddr = s.busAddr := rfl
@[simp] theorem State.latchRequest_txFrame (s : State) (op : BitVec 4) (cmd len : Byte) : (s.latchRequest op cmd len).txFrame = s.txFrame := rfl
@[simp] theorem State.latchRequest_attCnt (s : State) (op : BitVec 4) (cmd len : Byte) : (s.latchRequest op cmd len).attCnt = s.attCnt := rfl
@[simp] theorem State.latchRequest_rdy (s : State) (op : BitVec 4) (cmd len : Byte) : (s.latchRequest op cmd len).rdy = s.rdy := rfl
@[simp] theorem State.latchRequest_ackOk (s : State) (op : BitVec 4) (cmd len : Byte) : (s.latchRequest op cmd len).ackOk = s.ackOk := rfl
@[simp] theorem State.latchRequest_rxLen (s : State) (op : BitVec 4) (cmd len : Byte) : (s.latchRequest op cmd len).rxLen = s.rxLen := rfl
@[simp] theorem State.latchRequest_rxLcs (s : State) (op : BitVec 4) (cmd len : Byte) : (s.latchRequest op cmd len).rxLcs = s.rxLcs := rfl
@[simp] theorem State.latchRequest_rxTfi (s : State) (op : BitVec 4) (cmd len : Byte) : (s.latchRequest op cmd len).rxTfi = s.rxTfi := rfl
@[simp] theorem State.latchRequest_rxDcs (s : State) (op : BitVec 4) (cmd len : Byte) : (s.latchRequest op cmd len).rxDcs = s.rxDcs := rfl
@[simp] theorem State.latchRequest_sumAcc (s : State) (op : BitVec 4) (cmd len : Byte) : (s.latchRequest op cmd len).sumAcc = s.sumAcc := rfl
@[simp] theorem State.latchRequest_remaining (s : State) (op : BitVec 4) (cmd len : Byte) : (s.latchRequest op cmd len).remaining = s.remaining := rfl
@[simp] theorem State.latchRequest_hdrOk (s : State) (op : BitVec 4) (cmd len : Byte) : (s.latchRequest op cmd len).hdrOk = s.hdrOk := rfl
@[simp] theorem State.latchRequest_dcsOk (s : State) (op : BitVec 4) (cmd len : Byte) : (s.latchRequest op cmd len).dcsOk = s.dcsOk := rfl
@[simp] theorem State.latchRequest_sendOk (s : State) (op : BitVec 4) (cmd len : Byte) : (s.latchRequest op cmd len).sendOk = s.sendOk := rfl
@[simp] theorem State.latchRequest_recvCount (s : State) (op : BitVec 4) (cmd len : Byte) : (s.latchRequest op cmd len).recvCount = s.recvCount := rfl
@[simp] theorem State.latchRequest_lastErr (s : State) (op : BitVec 4) (cmd len : Byte) : (s.latchRequest op cmd len).lastErr = s.lastErr := rfl
@[simp] theorem State.latchRequest_done (s : State) (op : BitVec 4) (cmd len : Byte) : (s.latchRequest op cmd len).done = false := rfl
@[simp] theorem State.latchRequest_timedOut (s : State) (op : BitVec 4) (cmd len : Byte) : (s.latchRequest op cmd len).timedOut = s.timedOut := rfl
@[simp] theorem State.latchRequest_reqValid (s : State) (op : BitVec 4) (cmd len : Byte) : (s.latchRequest op cmd len).reqValid = false := rfl
@[simp] theorem State.latchRequest_reqWord (s : State) (op : BitVec 4) (cmd len : Byte) : (s.latchRequest op cmd len).reqWord = s.reqWord := rfl
@[simp] theorem State.latchRequest_reqBuf (s : State) (op : BitVec 4) (cmd len : Byte) : (s.latchRequest op cmd len).reqBuf = s.reqBuf := rfl
@[simp] theorem State.latchRequest_answers (s : State) (op : BitVec 4) (cmd len : Byte) : (s.latchRequest op cmd len).answers = s.answers := rfl
@[simp] theorem State.latchRequest_busLog (s : State) (op : BitVec 4) (cmd len : Byte) : (s.latchRequest op cmd len).busLog = s.busLog := rfl
@[simp] theorem State.latchRequest_mem (s : State) (op : BitVec 4) (cmd len : Byte) : (s.latchRequest op cmd len).mem = s.mem := rfl
@[simp] theorem State.latchRequest_faultRecord (s : State) (op : BitVec 4) (cmd len : Byte) : (s.latchRequest op cmd len).faultRecord = s.faultRecord := rfl
@[simp] theorem State.latchRequest_params (s : State) (op : BitVec 4) (cmd len : Byte) : (s.latchRequest op cmd len).params = s.params := rfl
@[simp] theorem State.latchRequest_drawCount (s : State) (op : BitVec 4) (cmd len : Byte) : (s.latchRequest op cmd len).drawCount = s.drawCount := rfl

/-! ### loadAttempts -/

@[simp] theorem State.loadAttempts_state (s : State) (n : BitVec 16) : (s.loadAttempts n).state = s.state := rfl
@[simp] theorem State.loadAttempts_curOp (s : State) (n : BitVec 16) : (s.loadAttempts n).curOp = s.curOp := rfl
@[simp] theorem State.loadAttempts_curCmd (s : State) (n : BitVec 16) : (s.loadAttempts n).curCmd = s.curCmd := rfl
@[simp] theorem State.loadAttempts_curLen (s : State) (n : BitVec 16) : (s.loadAttempts n).curLen = s.curLen := rfl
@[simp] theorem State.loadAttempts_curBuf (s : State) (n : BitVec 16) : (s.loadAttempts n).curBuf = s.curBuf := rfl
@[simp] theorem State.loadAttempts_busAddr (s : State) (n : BitVec 16) : (s.loadAttempts n).busAddr = s.busAddr := rfl
@[simp] theorem State.loadAttempts_txFrame (s : State) (n : BitVec 16) : (s.loadAttempts n).txFrame = s.txFrame := rfl
@[simp] theorem State.loadAttempts_attCnt (s : State) (n : BitVec 16) : (s.loadAttempts n).attCnt = n := rfl
@[simp] theorem State.loadAttempts_rdy (s : State) (n : BitVec 16) : (s.loadAttempts n).rdy = s.rdy := rfl
@[simp] theorem State.loadAttempts_ackOk (s : State) (n : BitVec 16) : (s.loadAttempts n).ackOk = s.ackOk := rfl
@[simp] theorem State.loadAttempts_rxLen (s : State) (n : BitVec 16) : (s.loadAttempts n).rxLen = s.rxLen := rfl
@[simp] theorem State.loadAttempts_rxLcs (s : State) (n : BitVec 16) : (s.loadAttempts n).rxLcs = s.rxLcs := rfl
@[simp] theorem State.loadAttempts_rxTfi (s : State) (n : BitVec 16) : (s.loadAttempts n).rxTfi = s.rxTfi := rfl
@[simp] theorem State.loadAttempts_rxDcs (s : State) (n : BitVec 16) : (s.loadAttempts n).rxDcs = s.rxDcs := rfl
@[simp] theorem State.loadAttempts_sumAcc (s : State) (n : BitVec 16) : (s.loadAttempts n).sumAcc = s.sumAcc := rfl
@[simp] theorem State.loadAttempts_remaining (s : State) (n : BitVec 16) : (s.loadAttempts n).remaining = s.remaining := rfl
@[simp] theorem State.loadAttempts_hdrOk (s : State) (n : BitVec 16) : (s.loadAttempts n).hdrOk = s.hdrOk := rfl
@[simp] theorem State.loadAttempts_dcsOk (s : State) (n : BitVec 16) : (s.loadAttempts n).dcsOk = s.dcsOk := rfl
@[simp] theorem State.loadAttempts_sendOk (s : State) (n : BitVec 16) : (s.loadAttempts n).sendOk = s.sendOk := rfl
@[simp] theorem State.loadAttempts_recvCount (s : State) (n : BitVec 16) : (s.loadAttempts n).recvCount = s.recvCount := rfl
@[simp] theorem State.loadAttempts_lastErr (s : State) (n : BitVec 16) : (s.loadAttempts n).lastErr = s.lastErr := rfl
@[simp] theorem State.loadAttempts_done (s : State) (n : BitVec 16) : (s.loadAttempts n).done = s.done := rfl
@[simp] theorem State.loadAttempts_timedOut (s : State) (n : BitVec 16) : (s.loadAttempts n).timedOut = s.timedOut := rfl
@[simp] theorem State.loadAttempts_reqValid (s : State) (n : BitVec 16) : (s.loadAttempts n).reqValid = s.reqValid := rfl
@[simp] theorem State.loadAttempts_reqWord (s : State) (n : BitVec 16) : (s.loadAttempts n).reqWord = s.reqWord := rfl
@[simp] theorem State.loadAttempts_reqBuf (s : State) (n : BitVec 16) : (s.loadAttempts n).reqBuf = s.reqBuf := rfl
@[simp] theorem State.loadAttempts_answers (s : State) (n : BitVec 16) : (s.loadAttempts n).answers = s.answers := rfl
@[simp] theorem State.loadAttempts_busLog (s : State) (n : BitVec 16) : (s.loadAttempts n).busLog = s.busLog := rfl
@[simp] theorem State.loadAttempts_mem (s : State) (n : BitVec 16) : (s.loadAttempts n).mem = s.mem := rfl
@[simp] theorem State.loadAttempts_faultRecord (s : State) (n : BitVec 16) : (s.loadAttempts n).faultRecord = s.faultRecord := rfl
@[simp] theorem State.loadAttempts_params (s : State) (n : BitVec 16) : (s.loadAttempts n).params = s.params := rfl
@[simp] theorem State.loadAttempts_drawCount (s : State) (n : BitVec 16) : (s.loadAttempts n).drawCount = s.drawCount := rfl

/-! ### countAttempt -/

@[simp] theorem State.countAttempt_state (s : State) (r : Bool) : (s.countAttempt r).state = s.state := rfl
@[simp] theorem State.countAttempt_curOp (s : State) (r : Bool) : (s.countAttempt r).curOp = s.curOp := rfl
@[simp] theorem State.countAttempt_curCmd (s : State) (r : Bool) : (s.countAttempt r).curCmd = s.curCmd := rfl
@[simp] theorem State.countAttempt_curLen (s : State) (r : Bool) : (s.countAttempt r).curLen = s.curLen := rfl
@[simp] theorem State.countAttempt_curBuf (s : State) (r : Bool) : (s.countAttempt r).curBuf = s.curBuf := rfl
@[simp] theorem State.countAttempt_busAddr (s : State) (r : Bool) : (s.countAttempt r).busAddr = s.busAddr := rfl
@[simp] theorem State.countAttempt_txFrame (s : State) (r : Bool) : (s.countAttempt r).txFrame = s.txFrame := rfl
@[simp] theorem State.countAttempt_attCnt (s : State) (r : Bool) : (s.countAttempt r).attCnt = s.attCnt - 1 := rfl
@[simp] theorem State.countAttempt_rdy (s : State) (r : Bool) : (s.countAttempt r).rdy = r := rfl
@[simp] theorem State.countAttempt_ackOk (s : State) (r : Bool) : (s.countAttempt r).ackOk = s.ackOk := rfl
@[simp] theorem State.countAttempt_rxLen (s : State) (r : Bool) : (s.countAttempt r).rxLen = s.rxLen := rfl
@[simp] theorem State.countAttempt_rxLcs (s : State) (r : Bool) : (s.countAttempt r).rxLcs = s.rxLcs := rfl
@[simp] theorem State.countAttempt_rxTfi (s : State) (r : Bool) : (s.countAttempt r).rxTfi = s.rxTfi := rfl
@[simp] theorem State.countAttempt_rxDcs (s : State) (r : Bool) : (s.countAttempt r).rxDcs = s.rxDcs := rfl
@[simp] theorem State.countAttempt_sumAcc (s : State) (r : Bool) : (s.countAttempt r).sumAcc = s.sumAcc := rfl
@[simp] theorem State.countAttempt_remaining (s : State) (r : Bool) : (s.countAttempt r).remaining = s.remaining := rfl
@[simp] theorem State.countAttempt_hdrOk (s : State) (r : Bool) : (s.countAttempt r).hdrOk = s.hdrOk := rfl
@[simp] theorem State.countAttempt_dcsOk (s : State) (r : Bool) : (s.countAttempt r).dcsOk = s.dcsOk := rfl
@[simp] theorem State.countAttempt_sendOk (s : State) (r : Bool) : (s.countAttempt r).sendOk = s.sendOk := rfl
@[simp] theorem State.countAttempt_recvCount (s : State) (r : Bool) : (s.countAttempt r).recvCount = s.recvCount := rfl
@[simp] theorem State.countAttempt_lastErr (s : State) (r : Bool) : (s.countAttempt r).lastErr = s.lastErr := rfl
@[simp] theorem State.countAttempt_done (s : State) (r : Bool) : (s.countAttempt r).done = s.done := rfl
@[simp] theorem State.countAttempt_timedOut (s : State) (r : Bool) : (s.countAttempt r).timedOut = s.timedOut := rfl
@[simp] theorem State.countAttempt_reqValid (s : State) (r : Bool) : (s.countAttempt r).reqValid = s.reqValid := rfl
@[simp] theorem State.countAttempt_reqWord (s : State) (r : Bool) : (s.countAttempt r).reqWord = s.reqWord := rfl
@[simp] theorem State.countAttempt_reqBuf (s : State) (r : Bool) : (s.countAttempt r).reqBuf = s.reqBuf := rfl
@[simp] theorem State.countAttempt_answers (s : State) (r : Bool) : (s.countAttempt r).answers = s.answers := rfl
@[simp] theorem State.countAttempt_busLog (s : State) (r : Bool) : (s.countAttempt r).busLog = s.busLog := rfl
@[simp] theorem State.countAttempt_mem (s : State) (r : Bool) : (s.countAttempt r).mem = s.mem := rfl
@[simp] theorem State.countAttempt_faultRecord (s : State) (r : Bool) : (s.countAttempt r).faultRecord = s.faultRecord := rfl
@[simp] theorem State.countAttempt_params (s : State) (r : Bool) : (s.countAttempt r).params = s.params := rfl
@[simp] theorem State.countAttempt_drawCount (s : State) (r : Bool) : (s.countAttempt r).drawCount = s.drawCount := rfl

/-! ### setTxFrame -/

@[simp] theorem State.setTxFrame_state (s : State) (f : List Byte) : (s.setTxFrame f).state = s.state := rfl
@[simp] theorem State.setTxFrame_curOp (s : State) (f : List Byte) : (s.setTxFrame f).curOp = s.curOp := rfl
@[simp] theorem State.setTxFrame_curCmd (s : State) (f : List Byte) : (s.setTxFrame f).curCmd = s.curCmd := rfl
@[simp] theorem State.setTxFrame_curLen (s : State) (f : List Byte) : (s.setTxFrame f).curLen = s.curLen := rfl
@[simp] theorem State.setTxFrame_curBuf (s : State) (f : List Byte) : (s.setTxFrame f).curBuf = s.curBuf := rfl
@[simp] theorem State.setTxFrame_busAddr (s : State) (f : List Byte) : (s.setTxFrame f).busAddr = s.busAddr := rfl
@[simp] theorem State.setTxFrame_txFrame (s : State) (f : List Byte) : (s.setTxFrame f).txFrame = f := rfl
@[simp] theorem State.setTxFrame_attCnt (s : State) (f : List Byte) : (s.setTxFrame f).attCnt = s.attCnt := rfl
@[simp] theorem State.setTxFrame_rdy (s : State) (f : List Byte) : (s.setTxFrame f).rdy = s.rdy := rfl
@[simp] theorem State.setTxFrame_ackOk (s : State) (f : List Byte) : (s.setTxFrame f).ackOk = s.ackOk := rfl
@[simp] theorem State.setTxFrame_rxLen (s : State) (f : List Byte) : (s.setTxFrame f).rxLen = s.rxLen := rfl
@[simp] theorem State.setTxFrame_rxLcs (s : State) (f : List Byte) : (s.setTxFrame f).rxLcs = s.rxLcs := rfl
@[simp] theorem State.setTxFrame_rxTfi (s : State) (f : List Byte) : (s.setTxFrame f).rxTfi = s.rxTfi := rfl
@[simp] theorem State.setTxFrame_rxDcs (s : State) (f : List Byte) : (s.setTxFrame f).rxDcs = s.rxDcs := rfl
@[simp] theorem State.setTxFrame_sumAcc (s : State) (f : List Byte) : (s.setTxFrame f).sumAcc = s.sumAcc := rfl
@[simp] theorem State.setTxFrame_remaining (s : State) (f : List Byte) : (s.setTxFrame f).remaining = s.remaining := rfl
@[simp] theorem State.setTxFrame_hdrOk (s : State) (f : List Byte) : (s.setTxFrame f).hdrOk = s.hdrOk := rfl
@[simp] theorem State.setTxFrame_dcsOk (s : State) (f : List Byte) : (s.setTxFrame f).dcsOk = s.dcsOk := rfl
@[simp] theorem State.setTxFrame_sendOk (s : State) (f : List Byte) : (s.setTxFrame f).sendOk = s.sendOk := rfl
@[simp] theorem State.setTxFrame_recvCount (s : State) (f : List Byte) : (s.setTxFrame f).recvCount = s.recvCount := rfl
@[simp] theorem State.setTxFrame_lastErr (s : State) (f : List Byte) : (s.setTxFrame f).lastErr = s.lastErr := rfl
@[simp] theorem State.setTxFrame_done (s : State) (f : List Byte) : (s.setTxFrame f).done = s.done := rfl
@[simp] theorem State.setTxFrame_timedOut (s : State) (f : List Byte) : (s.setTxFrame f).timedOut = s.timedOut := rfl
@[simp] theorem State.setTxFrame_reqValid (s : State) (f : List Byte) : (s.setTxFrame f).reqValid = s.reqValid := rfl
@[simp] theorem State.setTxFrame_reqWord (s : State) (f : List Byte) : (s.setTxFrame f).reqWord = s.reqWord := rfl
@[simp] theorem State.setTxFrame_reqBuf (s : State) (f : List Byte) : (s.setTxFrame f).reqBuf = s.reqBuf := rfl
@[simp] theorem State.setTxFrame_answers (s : State) (f : List Byte) : (s.setTxFrame f).answers = s.answers := rfl
@[simp] theorem State.setTxFrame_busLog (s : State) (f : List Byte) : (s.setTxFrame f).busLog = s.busLog := rfl
@[simp] theorem State.setTxFrame_mem (s : State) (f : List Byte) : (s.setTxFrame f).mem = s.mem := rfl
@[simp] theorem State.setTxFrame_faultRecord (s : State) (f : List Byte) : (s.setTxFrame f).faultRecord = s.faultRecord := rfl
@[simp] theorem State.setTxFrame_params (s : State) (f : List Byte) : (s.setTxFrame f).params = s.params := rfl
@[simp] theorem State.setTxFrame_drawCount (s : State) (f : List Byte) : (s.setTxFrame f).drawCount = s.drawCount := rfl

/-! ### setAckOk -/

@[simp] theorem State.setAckOk_state (s : State) (b : Bool) : (s.setAckOk b).state = s.state := rfl
@[simp] theorem State.setAckOk_curOp (s : State) (b : Bool) : (s.setAckOk b).curOp = s.curOp := rfl
@[simp] theorem State.setAckOk_curCmd (s : State) (b : Bool) : (s.setAckOk b).curCmd = s.curCmd := rfl
@[simp] theorem State.setAckOk_curLen (s : State) (b : Bool) : (s.setAckOk b).curLen = s.curLen := rfl
@[simp] theorem State.setAckOk_curBuf (s : State) (b : Bool) : (s.setAckOk b).curBuf = s.curBuf := rfl
@[simp] theorem State.setAckOk_busAddr (s : State) (b : Bool) : (s.setAckOk b).busAddr = s.busAddr := rfl
@[simp] theorem State.setAckOk_txFrame (s : State) (b : Bool) : (s.setAckOk b).txFrame = s.txFrame := rfl
@[simp] theorem State.setAckOk_attCnt (s : State) (b : Bool) : (s.setAckOk b).attCnt = s.attCnt := rfl
@[simp] theorem State.setAckOk_rdy (s : State) (b : Bool) : (s.setAckOk b).rdy = s.rdy := rfl
@[simp] theorem State.setAckOk_ackOk (s : State) (b : Bool) : (s.setAckOk b).ackOk = b := rfl
@[simp] theorem State.setAckOk_rxLen (s : State) (b : Bool) : (s.setAckOk b).rxLen = s.rxLen := rfl
@[simp] theorem State.setAckOk_rxLcs (s : State) (b : Bool) : (s.setAckOk b).rxLcs = s.rxLcs := rfl
@[simp] theorem State.setAckOk_rxTfi (s : State) (b : Bool) : (s.setAckOk b).rxTfi = s.rxTfi := rfl
@[simp] theorem State.setAckOk_rxDcs (s : State) (b : Bool) : (s.setAckOk b).rxDcs = s.rxDcs := rfl
@[simp] theorem State.setAckOk_sumAcc (s : State) (b : Bool) : (s.setAckOk b).sumAcc = s.sumAcc := rfl
@[simp] theorem State.setAckOk_remaining (s : State) (b : Bool) : (s.setAckOk b).remaining = s.remaining := rfl
@[simp] theorem State.setAckOk_hdrOk (s : State) (b : Bool) : (s.setAckOk b).hdrOk = s.hdrOk := rfl
@[simp] theorem State.setAckOk_dcsOk (s : State) (b : Bool) : (s.setAckOk b).dcsOk = s.dcsOk := rfl
@[simp] theorem State.setAckOk_sendOk (s : State) (b : Bool) : (s.setAckOk b).sendOk = s.sendOk := rfl
@[simp] theorem State.setAckOk_recvCount (s : State) (b : Bool) : (s.setAckOk b).recvCount = s.recvCount := rfl
@[simp] theorem State.setAckOk_lastErr (s : State) (b : Bool) : (s.setAckOk b).lastErr = s.lastErr := rfl
@[simp] theorem State.setAckOk_done (s : State) (b : Bool) : (s.setAckOk b).done = s.done := rfl
@[simp] theorem State.setAckOk_timedOut (s : State) (b : Bool) : (s.setAckOk b).timedOut = s.timedOut := rfl
@[simp] theorem State.setAckOk_reqValid (s : State) (b : Bool) : (s.setAckOk b).reqValid = s.reqValid := rfl
@[simp] theorem State.setAckOk_reqWord (s : State) (b : Bool) : (s.setAckOk b).reqWord = s.reqWord := rfl
@[simp] theorem State.setAckOk_reqBuf (s : State) (b : Bool) : (s.setAckOk b).reqBuf = s.reqBuf := rfl
@[simp] theorem State.setAckOk_answers (s : State) (b : Bool) : (s.setAckOk b).answers = s.answers := rfl
@[simp] theorem State.setAckOk_busLog (s : State) (b : Bool) : (s.setAckOk b).busLog = s.busLog := rfl
@[simp] theorem State.setAckOk_mem (s : State) (b : Bool) : (s.setAckOk b).mem = s.mem := rfl
@[simp] theorem State.setAckOk_faultRecord (s : State) (b : Bool) : (s.setAckOk b).faultRecord = s.faultRecord := rfl
@[simp] theorem State.setAckOk_params (s : State) (b : Bool) : (s.setAckOk b).params = s.params := rfl
@[simp] theorem State.setAckOk_drawCount (s : State) (b : Bool) : (s.setAckOk b).drawCount = s.drawCount := rfl

/-! ### latchReply -/

@[simp] theorem State.latchReply_state (s : State) (len lcs tfi dcs : Byte) : (s.latchReply len lcs tfi dcs).state = s.state := rfl
@[simp] theorem State.latchReply_curOp (s : State) (len lcs tfi dcs : Byte) : (s.latchReply len lcs tfi dcs).curOp = s.curOp := rfl
@[simp] theorem State.latchReply_curCmd (s : State) (len lcs tfi dcs : Byte) : (s.latchReply len lcs tfi dcs).curCmd = s.curCmd := rfl
@[simp] theorem State.latchReply_curLen (s : State) (len lcs tfi dcs : Byte) : (s.latchReply len lcs tfi dcs).curLen = s.curLen := rfl
@[simp] theorem State.latchReply_curBuf (s : State) (len lcs tfi dcs : Byte) : (s.latchReply len lcs tfi dcs).curBuf = s.curBuf := rfl
@[simp] theorem State.latchReply_busAddr (s : State) (len lcs tfi dcs : Byte) : (s.latchReply len lcs tfi dcs).busAddr = s.busAddr := rfl
@[simp] theorem State.latchReply_txFrame (s : State) (len lcs tfi dcs : Byte) : (s.latchReply len lcs tfi dcs).txFrame = s.txFrame := rfl
@[simp] theorem State.latchReply_attCnt (s : State) (len lcs tfi dcs : Byte) : (s.latchReply len lcs tfi dcs).attCnt = s.attCnt := rfl
@[simp] theorem State.latchReply_rdy (s : State) (len lcs tfi dcs : Byte) : (s.latchReply len lcs tfi dcs).rdy = s.rdy := rfl
@[simp] theorem State.latchReply_ackOk (s : State) (len lcs tfi dcs : Byte) : (s.latchReply len lcs tfi dcs).ackOk = s.ackOk := rfl
@[simp] theorem State.latchReply_rxLen (s : State) (len lcs tfi dcs : Byte) : (s.latchReply len lcs tfi dcs).rxLen = len := rfl
@[simp] theorem State.latchReply_rxLcs (s : State) (len lcs tfi dcs : Byte) : (s.latchReply len lcs tfi dcs).rxLcs = lcs := rfl
@[simp] theorem State.latchReply_rxTfi (s : State) (len lcs tfi dcs : Byte) : (s.latchReply len lcs tfi dcs).rxTfi = tfi := rfl
@[simp] theorem State.latchReply_rxDcs (s : State) (len lcs tfi dcs : Byte) : (s.latchReply len lcs tfi dcs).rxDcs = dcs := rfl
@[simp] theorem State.latchReply_sumAcc (s : State) (len lcs tfi dcs : Byte) : (s.latchReply len lcs tfi dcs).sumAcc = s.sumAcc := rfl
@[simp] theorem State.latchReply_remaining (s : State) (len lcs tfi dcs : Byte) : (s.latchReply len lcs tfi dcs).remaining = s.remaining := rfl
@[simp] theorem State.latchReply_hdrOk (s : State) (len lcs tfi dcs : Byte) : (s.latchReply len lcs tfi dcs).hdrOk = s.hdrOk := rfl
@[simp] theorem State.latchReply_dcsOk (s : State) (len lcs tfi dcs : Byte) : (s.latchReply len lcs tfi dcs).dcsOk = s.dcsOk := rfl
@[simp] theorem State.latchReply_sendOk (s : State) (len lcs tfi dcs : Byte) : (s.latchReply len lcs tfi dcs).sendOk = s.sendOk := rfl
@[simp] theorem State.latchReply_recvCount (s : State) (len lcs tfi dcs : Byte) : (s.latchReply len lcs tfi dcs).recvCount = s.recvCount := rfl
@[simp] theorem State.latchReply_lastErr (s : State) (len lcs tfi dcs : Byte) : (s.latchReply len lcs tfi dcs).lastErr = s.lastErr := rfl
@[simp] theorem State.latchReply_done (s : State) (len lcs tfi dcs : Byte) : (s.latchReply len lcs tfi dcs).done = s.done := rfl
@[simp] theorem State.latchReply_timedOut (s : State) (len lcs tfi dcs : Byte) : (s.latchReply len lcs tfi dcs).timedOut = s.timedOut := rfl
@[simp] theorem State.latchReply_reqValid (s : State) (len lcs tfi dcs : Byte) : (s.latchReply len lcs tfi dcs).reqValid = s.reqValid := rfl
@[simp] theorem State.latchReply_reqWord (s : State) (len lcs tfi dcs : Byte) : (s.latchReply len lcs tfi dcs).reqWord = s.reqWord := rfl
@[simp] theorem State.latchReply_reqBuf (s : State) (len lcs tfi dcs : Byte) : (s.latchReply len lcs tfi dcs).reqBuf = s.reqBuf := rfl
@[simp] theorem State.latchReply_answers (s : State) (len lcs tfi dcs : Byte) : (s.latchReply len lcs tfi dcs).answers = s.answers := rfl
@[simp] theorem State.latchReply_busLog (s : State) (len lcs tfi dcs : Byte) : (s.latchReply len lcs tfi dcs).busLog = s.busLog := rfl
@[simp] theorem State.latchReply_mem (s : State) (len lcs tfi dcs : Byte) : (s.latchReply len lcs tfi dcs).mem = s.mem := rfl
@[simp] theorem State.latchReply_faultRecord (s : State) (len lcs tfi dcs : Byte) : (s.latchReply len lcs tfi dcs).faultRecord = s.faultRecord := rfl
@[simp] theorem State.latchReply_params (s : State) (len lcs tfi dcs : Byte) : (s.latchReply len lcs tfi dcs).params = s.params := rfl
@[simp] theorem State.latchReply_drawCount (s : State) (len lcs tfi dcs : Byte) : (s.latchReply len lcs tfi dcs).drawCount = s.drawCount := rfl

/-! ### setHeader -/

@[simp] theorem State.setHeader_state (s : State) (ok : Bool) (rem : Byte) : (s.setHeader ok rem).state = s.state := rfl
@[simp] theorem State.setHeader_curOp (s : State) (ok : Bool) (rem : Byte) : (s.setHeader ok rem).curOp = s.curOp := rfl
@[simp] theorem State.setHeader_curCmd (s : State) (ok : Bool) (rem : Byte) : (s.setHeader ok rem).curCmd = s.curCmd := rfl
@[simp] theorem State.setHeader_curLen (s : State) (ok : Bool) (rem : Byte) : (s.setHeader ok rem).curLen = s.curLen := rfl
@[simp] theorem State.setHeader_curBuf (s : State) (ok : Bool) (rem : Byte) : (s.setHeader ok rem).curBuf = s.curBuf := rfl
@[simp] theorem State.setHeader_busAddr (s : State) (ok : Bool) (rem : Byte) : (s.setHeader ok rem).busAddr = s.busAddr := rfl
@[simp] theorem State.setHeader_txFrame (s : State) (ok : Bool) (rem : Byte) : (s.setHeader ok rem).txFrame = s.txFrame := rfl
@[simp] theorem State.setHeader_attCnt (s : State) (ok : Bool) (rem : Byte) : (s.setHeader ok rem).attCnt = s.attCnt := rfl
@[simp] theorem State.setHeader_rdy (s : State) (ok : Bool) (rem : Byte) : (s.setHeader ok rem).rdy = s.rdy := rfl
@[simp] theorem State.setHeader_ackOk (s : State) (ok : Bool) (rem : Byte) : (s.setHeader ok rem).ackOk = s.ackOk := rfl
@[simp] theorem State.setHeader_rxLen (s : State) (ok : Bool) (rem : Byte) : (s.setHeader ok rem).rxLen = s.rxLen := rfl
@[simp] theorem State.setHeader_rxLcs (s : State) (ok : Bool) (rem : Byte) : (s.setHeader ok rem).rxLcs = s.rxLcs := rfl
@[simp] theorem State.setHeader_rxTfi (s : State) (ok : Bool) (rem : Byte) : (s.setHeader ok rem).rxTfi = s.rxTfi := rfl
@[simp] theorem State.setHeader_rxDcs (s : State) (ok : Bool) (rem : Byte) : (s.setHeader ok rem).rxDcs = s.rxDcs := rfl
@[simp] theorem State.setHeader_sumAcc (s : State) (ok : Bool) (rem : Byte) : (s.setHeader ok rem).sumAcc = s.sumAcc := rfl
@[simp] theorem State.setHeader_remaining (s : State) (ok : Bool) (rem : Byte) : (s.setHeader ok rem).remaining = rem := rfl
@[simp] theorem State.setHeader_hdrOk (s : State) (ok : Bool) (rem : Byte) : (s.setHeader ok rem).hdrOk = ok := rfl
@[simp] theorem State.setHeader_dcsOk (s : State) (ok : Bool) (rem : Byte) : (s.setHeader ok rem).dcsOk = s.dcsOk := rfl
@[simp] theorem State.setHeader_sendOk (s : State) (ok : Bool) (rem : Byte) : (s.setHeader ok rem).sendOk = s.sendOk := rfl
@[simp] theorem State.setHeader_recvCount (s : State) (ok : Bool) (rem : Byte) : (s.setHeader ok rem).recvCount = s.recvCount := rfl
@[simp] theorem State.setHeader_lastErr (s : State) (ok : Bool) (rem : Byte) : (s.setHeader ok rem).lastErr = s.lastErr := rfl
@[simp] theorem State.setHeader_done (s : State) (ok : Bool) (rem : Byte) : (s.setHeader ok rem).done = s.done := rfl
@[simp] theorem State.setHeader_timedOut (s : State) (ok : Bool) (rem : Byte) : (s.setHeader ok rem).timedOut = s.timedOut := rfl
@[simp] theorem State.setHeader_reqValid (s : State) (ok : Bool) (rem : Byte) : (s.setHeader ok rem).reqValid = s.reqValid := rfl
@[simp] theorem State.setHeader_reqWord (s : State) (ok : Bool) (rem : Byte) : (s.setHeader ok rem).reqWord = s.reqWord := rfl
@[simp] theorem State.setHeader_reqBuf (s : State) (ok : Bool) (rem : Byte) : (s.setHeader ok rem).reqBuf = s.reqBuf := rfl
@[simp] theorem State.setHeader_answers (s : State) (ok : Bool) (rem : Byte) : (s.setHeader ok rem).answers = s.answers := rfl
@[simp] theorem State.setHeader_busLog (s : State) (ok : Bool) (rem : Byte) : (s.setHeader ok rem).busLog = s.busLog := rfl
@[simp] theorem State.setHeader_mem (s : State) (ok : Bool) (rem : Byte) : (s.setHeader ok rem).mem = s.mem := rfl
@[simp] theorem State.setHeader_faultRecord (s : State) (ok : Bool) (rem : Byte) : (s.setHeader ok rem).faultRecord = s.faultRecord := rfl
@[simp] theorem State.setHeader_params (s : State) (ok : Bool) (rem : Byte) : (s.setHeader ok rem).params = s.params := rfl
@[simp] theorem State.setHeader_drawCount (s : State) (ok : Bool) (rem : Byte) : (s.setHeader ok rem).drawCount = s.drawCount := rfl

/-! ### setFooter -/

@[simp] theorem State.setFooter_state (s : State) (sum : Byte) (ok : Bool) : (s.setFooter sum ok).state = s.state := rfl
@[simp] theorem State.setFooter_curOp (s : State) (sum : Byte) (ok : Bool) : (s.setFooter sum ok).curOp = s.curOp := rfl
@[simp] theorem State.setFooter_curCmd (s : State) (sum : Byte) (ok : Bool) : (s.setFooter sum ok).curCmd = s.curCmd := rfl
@[simp] theorem State.setFooter_curLen (s : State) (sum : Byte) (ok : Bool) : (s.setFooter sum ok).curLen = s.curLen := rfl
@[simp] theorem State.setFooter_curBuf (s : State) (sum : Byte) (ok : Bool) : (s.setFooter sum ok).curBuf = s.curBuf := rfl
@[simp] theorem State.setFooter_busAddr (s : State) (sum : Byte) (ok : Bool) : (s.setFooter sum ok).busAddr = s.busAddr := rfl
@[simp] theorem State.setFooter_txFrame (s : State) (sum : Byte) (ok : Bool) : (s.setFooter sum ok).txFrame = s.txFrame := rfl
@[simp] theorem State.setFooter_attCnt (s : State) (sum : Byte) (ok : Bool) : (s.setFooter sum ok).attCnt = s.attCnt := rfl
@[simp] theorem State.setFooter_rdy (s : State) (sum : Byte) (ok : Bool) : (s.setFooter sum ok).rdy = s.rdy := rfl
@[simp] theorem State.setFooter_ackOk (s : State) (sum : Byte) (ok : Bool) : (s.setFooter sum ok).ackOk = s.ackOk := rfl
@[simp] theorem State.setFooter_rxLen (s : State) (sum : Byte) (ok : Bool) : (s.setFooter sum ok).rxLen = s.rxLen := rfl
@[simp] theorem State.setFooter_rxLcs (s : State) (sum : Byte) (ok : Bool) : (s.setFooter sum ok).rxLcs = s.rxLcs := rfl
@[simp] theorem State.setFooter_rxTfi (s : State) (sum : Byte) (ok : Bool) : (s.setFooter sum ok).rxTfi = s.rxTfi := rfl
@[simp] theorem State.setFooter_rxDcs (s : State) (sum : Byte) (ok : Bool) : (s.setFooter sum ok).rxDcs = s.rxDcs := rfl
@[simp] theorem State.setFooter_sumAcc (s : State) (sum : Byte) (ok : Bool) : (s.setFooter sum ok).sumAcc = sum := rfl
@[simp] theorem State.setFooter_remaining (s : State) (sum : Byte) (ok : Bool) : (s.setFooter sum ok).remaining = s.remaining := rfl
@[simp] theorem State.setFooter_hdrOk (s : State) (sum : Byte) (ok : Bool) : (s.setFooter sum ok).hdrOk = s.hdrOk := rfl
@[simp] theorem State.setFooter_dcsOk (s : State) (sum : Byte) (ok : Bool) : (s.setFooter sum ok).dcsOk = ok := rfl
@[simp] theorem State.setFooter_sendOk (s : State) (sum : Byte) (ok : Bool) : (s.setFooter sum ok).sendOk = s.sendOk := rfl
@[simp] theorem State.setFooter_recvCount (s : State) (sum : Byte) (ok : Bool) : (s.setFooter sum ok).recvCount = s.recvCount := rfl
@[simp] theorem State.setFooter_lastErr (s : State) (sum : Byte) (ok : Bool) : (s.setFooter sum ok).lastErr = s.lastErr := rfl
@[simp] theorem State.setFooter_done (s : State) (sum : Byte) (ok : Bool) : (s.setFooter sum ok).done = s.done := rfl
@[simp] theorem State.setFooter_timedOut (s : State) (sum : Byte) (ok : Bool) : (s.setFooter sum ok).timedOut = s.timedOut := rfl
@[simp] theorem State.setFooter_reqValid (s : State) (sum : Byte) (ok : Bool) : (s.setFooter sum ok).reqValid = s.reqValid := rfl
@[simp] theorem State.setFooter_reqWord (s : State) (sum : Byte) (ok : Bool) : (s.setFooter sum ok).reqWord = s.reqWord := rfl
@[simp] theorem State.setFooter_reqBuf (s : State) (sum : Byte) (ok : Bool) : (s.setFooter sum ok).reqBuf = s.reqBuf := rfl
@[simp] theorem State.setFooter_answers (s : State) (sum : Byte) (ok : Bool) : (s.setFooter sum ok).answers = s.answers := rfl
@[simp] theorem State.setFooter_busLog (s : State) (sum : Byte) (ok : Bool) : (s.setFooter sum ok).busLog = s.busLog := rfl
@[simp] theorem State.setFooter_mem (s : State) (sum : Byte) (ok : Bool) : (s.setFooter sum ok).mem = s.mem := rfl
@[simp] theorem State.setFooter_faultRecord (s : State) (sum : Byte) (ok : Bool) : (s.setFooter sum ok).faultRecord = s.faultRecord := rfl
@[simp] theorem State.setFooter_params (s : State) (sum : Byte) (ok : Bool) : (s.setFooter sum ok).params = s.params := rfl
@[simp] theorem State.setFooter_drawCount (s : State) (sum : Byte) (ok : Bool) : (s.setFooter sum ok).drawCount = s.drawCount := rfl

/-! ### noteTimeout -/

@[simp] theorem State.noteTimeout_state (s : State) (b : Bool) : (s.noteTimeout b).state = s.state := rfl
@[simp] theorem State.noteTimeout_curOp (s : State) (b : Bool) : (s.noteTimeout b).curOp = s.curOp := rfl
@[simp] theorem State.noteTimeout_curCmd (s : State) (b : Bool) : (s.noteTimeout b).curCmd = s.curCmd := rfl
@[simp] theorem State.noteTimeout_curLen (s : State) (b : Bool) : (s.noteTimeout b).curLen = s.curLen := rfl
@[simp] theorem State.noteTimeout_curBuf (s : State) (b : Bool) : (s.noteTimeout b).curBuf = s.curBuf := rfl
@[simp] theorem State.noteTimeout_busAddr (s : State) (b : Bool) : (s.noteTimeout b).busAddr = s.busAddr := rfl
@[simp] theorem State.noteTimeout_txFrame (s : State) (b : Bool) : (s.noteTimeout b).txFrame = s.txFrame := rfl
@[simp] theorem State.noteTimeout_attCnt (s : State) (b : Bool) : (s.noteTimeout b).attCnt = s.attCnt := rfl
@[simp] theorem State.noteTimeout_rdy (s : State) (b : Bool) : (s.noteTimeout b).rdy = s.rdy := rfl
@[simp] theorem State.noteTimeout_ackOk (s : State) (b : Bool) : (s.noteTimeout b).ackOk = s.ackOk := rfl
@[simp] theorem State.noteTimeout_rxLen (s : State) (b : Bool) : (s.noteTimeout b).rxLen = s.rxLen := rfl
@[simp] theorem State.noteTimeout_rxLcs (s : State) (b : Bool) : (s.noteTimeout b).rxLcs = s.rxLcs := rfl
@[simp] theorem State.noteTimeout_rxTfi (s : State) (b : Bool) : (s.noteTimeout b).rxTfi = s.rxTfi := rfl
@[simp] theorem State.noteTimeout_rxDcs (s : State) (b : Bool) : (s.noteTimeout b).rxDcs = s.rxDcs := rfl
@[simp] theorem State.noteTimeout_sumAcc (s : State) (b : Bool) : (s.noteTimeout b).sumAcc = s.sumAcc := rfl
@[simp] theorem State.noteTimeout_remaining (s : State) (b : Bool) : (s.noteTimeout b).remaining = s.remaining := rfl
@[simp] theorem State.noteTimeout_hdrOk (s : State) (b : Bool) : (s.noteTimeout b).hdrOk = s.hdrOk := rfl
@[simp] theorem State.noteTimeout_dcsOk (s : State) (b : Bool) : (s.noteTimeout b).dcsOk = s.dcsOk := rfl
@[simp] theorem State.noteTimeout_sendOk (s : State) (b : Bool) : (s.noteTimeout b).sendOk = s.sendOk := rfl
@[simp] theorem State.noteTimeout_recvCount (s : State) (b : Bool) : (s.noteTimeout b).recvCount = s.recvCount := rfl
@[simp] theorem State.noteTimeout_lastErr (s : State) (b : Bool) : (s.noteTimeout b).lastErr = s.lastErr := rfl
@[simp] theorem State.noteTimeout_done (s : State) (b : Bool) : (s.noteTimeout b).done = s.done := rfl
@[simp] theorem State.noteTimeout_timedOut (s : State) (b : Bool) : (s.noteTimeout b).timedOut = b := rfl
@[simp] theorem State.noteTimeout_reqValid (s : State) (b : Bool) : (s.noteTimeout b).reqValid = s.reqValid := rfl
@[simp] theorem State.noteTimeout_reqWord (s : State) (b : Bool) : (s.noteTimeout b).reqWord = s.reqWord := rfl
@[simp] theorem State.noteTimeout_reqBuf (s : State) (b : Bool) : (s.noteTimeout b).reqBuf = s.reqBuf := rfl
@[simp] theorem State.noteTimeout_answers (s : State) (b : Bool) : (s.noteTimeout b).answers = s.answers := rfl
@[simp] theorem State.noteTimeout_busLog (s : State) (b : Bool) : (s.noteTimeout b).busLog = s.busLog := rfl
@[simp] theorem State.noteTimeout_mem (s : State) (b : Bool) : (s.noteTimeout b).mem = s.mem := rfl
@[simp] theorem State.noteTimeout_faultRecord (s : State) (b : Bool) : (s.noteTimeout b).faultRecord = s.faultRecord := rfl
@[simp] theorem State.noteTimeout_params (s : State) (b : Bool) : (s.noteTimeout b).params = s.params := rfl
@[simp] theorem State.noteTimeout_drawCount (s : State) (b : Bool) : (s.noteTimeout b).drawCount = s.drawCount := rfl

/-! ### completeSend -/

@[simp] theorem State.completeSend_state (s : State) (ok : Bool) (e : ErrorCode) : (s.completeSend ok e).state = FsmState.idle.code := rfl
@[simp] theorem State.completeSend_curOp (s : State) (ok : Bool) (e : ErrorCode) : (s.completeSend ok e).curOp = s.curOp := rfl
@[simp] theorem State.completeSend_curCmd (s : State) (ok : Bool) (e : ErrorCode) : (s.completeSend ok e).curCmd = s.curCmd := rfl
@[simp] theorem State.completeSend_curLen (s : State) (ok : Bool) (e : ErrorCode) : (s.completeSend ok e).curLen = s.curLen := rfl
@[simp] theorem State.completeSend_curBuf (s : State) (ok : Bool) (e : ErrorCode) : (s.completeSend ok e).curBuf = s.curBuf := rfl
@[simp] theorem State.completeSend_busAddr (s : State) (ok : Bool) (e : ErrorCode) : (s.completeSend ok e).busAddr = s.busAddr := rfl
@[simp] theorem State.completeSend_txFrame (s : State) (ok : Bool) (e : ErrorCode) : (s.completeSend ok e).txFrame = s.txFrame := rfl
@[simp] theorem State.completeSend_attCnt (s : State) (ok : Bool) (e : ErrorCode) : (s.completeSend ok e).attCnt = s.attCnt := rfl
@[simp] theorem State.completeSend_rdy (s : State) (ok : Bool) (e : ErrorCode) : (s.completeSend ok e).rdy = s.rdy := rfl
@[simp] theorem State.completeSend_ackOk (s : State) (ok : Bool) (e : ErrorCode) : (s.completeSend ok e).ackOk = s.ackOk := rfl
@[simp] theorem State.completeSend_rxLen (s : State) (ok : Bool) (e : ErrorCode) : (s.completeSend ok e).rxLen = s.rxLen := rfl
@[simp] theorem State.completeSend_rxLcs (s : State) (ok : Bool) (e : ErrorCode) : (s.completeSend ok e).rxLcs = s.rxLcs := rfl
@[simp] theorem State.completeSend_rxTfi (s : State) (ok : Bool) (e : ErrorCode) : (s.completeSend ok e).rxTfi = s.rxTfi := rfl
@[simp] theorem State.completeSend_rxDcs (s : State) (ok : Bool) (e : ErrorCode) : (s.completeSend ok e).rxDcs = s.rxDcs := rfl
@[simp] theorem State.completeSend_sumAcc (s : State) (ok : Bool) (e : ErrorCode) : (s.completeSend ok e).sumAcc = s.sumAcc := rfl
@[simp] theorem State.completeSend_remaining (s : State) (ok : Bool) (e : ErrorCode) : (s.completeSend ok e).remaining = s.remaining := rfl
@[simp] theorem State.completeSend_hdrOk (s : State) (ok : Bool) (e : ErrorCode) : (s.completeSend ok e).hdrOk = s.hdrOk := rfl
@[simp] theorem State.completeSend_dcsOk (s : State) (ok : Bool) (e : ErrorCode) : (s.completeSend ok e).dcsOk = s.dcsOk := rfl
@[simp] theorem State.completeSend_sendOk (s : State) (ok : Bool) (e : ErrorCode) : (s.completeSend ok e).sendOk = ok := rfl
@[simp] theorem State.completeSend_recvCount (s : State) (ok : Bool) (e : ErrorCode) : (s.completeSend ok e).recvCount = s.recvCount := rfl
@[simp] theorem State.completeSend_lastErr (s : State) (ok : Bool) (e : ErrorCode) : (s.completeSend ok e).lastErr = e.code := rfl
@[simp] theorem State.completeSend_done (s : State) (ok : Bool) (e : ErrorCode) : (s.completeSend ok e).done = true := rfl
@[simp] theorem State.completeSend_timedOut (s : State) (ok : Bool) (e : ErrorCode) : (s.completeSend ok e).timedOut = s.timedOut := rfl
@[simp] theorem State.completeSend_reqValid (s : State) (ok : Bool) (e : ErrorCode) : (s.completeSend ok e).reqValid = s.reqValid := rfl
@[simp] theorem State.completeSend_reqWord (s : State) (ok : Bool) (e : ErrorCode) : (s.completeSend ok e).reqWord = s.reqWord := rfl
@[simp] theorem State.completeSend_reqBuf (s : State) (ok : Bool) (e : ErrorCode) : (s.completeSend ok e).reqBuf = s.reqBuf := rfl
@[simp] theorem State.completeSend_answers (s : State) (ok : Bool) (e : ErrorCode) : (s.completeSend ok e).answers = s.answers := rfl
@[simp] theorem State.completeSend_busLog (s : State) (ok : Bool) (e : ErrorCode) : (s.completeSend ok e).busLog = s.busLog := rfl
@[simp] theorem State.completeSend_mem (s : State) (ok : Bool) (e : ErrorCode) : (s.completeSend ok e).mem = s.mem := rfl
@[simp] theorem State.completeSend_faultRecord (s : State) (ok : Bool) (e : ErrorCode) : (s.completeSend ok e).faultRecord = s.faultRecord := rfl
@[simp] theorem State.completeSend_params (s : State) (ok : Bool) (e : ErrorCode) : (s.completeSend ok e).params = s.params := rfl
@[simp] theorem State.completeSend_drawCount (s : State) (ok : Bool) (e : ErrorCode) : (s.completeSend ok e).drawCount = s.drawCount := rfl

/-! ### completeReceive -/

@[simp] theorem State.completeReceive_state (s : State) (count : Byte) (e : ErrorCode) : (s.completeReceive count e).state = FsmState.idle.code := rfl
@[simp] theorem State.completeReceive_curOp (s : State) (count : Byte) (e : ErrorCode) : (s.completeReceive count e).curOp = s.curOp := rfl
@[simp] theorem State.completeReceive_curCmd (s : State) (count : Byte) (e : ErrorCode) : (s.completeReceive count e).curCmd = s.curCmd := rfl
@[simp] theorem State.completeReceive_curLen (s : State) (count : Byte) (e : ErrorCode) : (s.completeReceive count e).curLen = s.curLen := rfl
@[simp] theorem State.completeReceive_curBuf (s : State) (count : Byte) (e : ErrorCode) : (s.completeReceive count e).curBuf = s.curBuf := rfl
@[simp] theorem State.completeReceive_busAddr (s : State) (count : Byte) (e : ErrorCode) : (s.completeReceive count e).busAddr = s.busAddr := rfl
@[simp] theorem State.completeReceive_txFrame (s : State) (count : Byte) (e : ErrorCode) : (s.completeReceive count e).txFrame = s.txFrame := rfl
@[simp] theorem State.completeReceive_attCnt (s : State) (count : Byte) (e : ErrorCode) : (s.completeReceive count e).attCnt = s.attCnt := rfl
@[simp] theorem State.completeReceive_rdy (s : State) (count : Byte) (e : ErrorCode) : (s.completeReceive count e).rdy = s.rdy := rfl
@[simp] theorem State.completeReceive_ackOk (s : State) (count : Byte) (e : ErrorCode) : (s.completeReceive count e).ackOk = s.ackOk := rfl
@[simp] theorem State.completeReceive_rxLen (s : State) (count : Byte) (e : ErrorCode) : (s.completeReceive count e).rxLen = s.rxLen := rfl
@[simp] theorem State.completeReceive_rxLcs (s : State) (count : Byte) (e : ErrorCode) : (s.completeReceive count e).rxLcs = s.rxLcs := rfl
@[simp] theorem State.completeReceive_rxTfi (s : State) (count : Byte) (e : ErrorCode) : (s.completeReceive count e).rxTfi = s.rxTfi := rfl
@[simp] theorem State.completeReceive_rxDcs (s : State) (count : Byte) (e : ErrorCode) : (s.completeReceive count e).rxDcs = s.rxDcs := rfl
@[simp] theorem State.completeReceive_sumAcc (s : State) (count : Byte) (e : ErrorCode) : (s.completeReceive count e).sumAcc = s.sumAcc := rfl
@[simp] theorem State.completeReceive_remaining (s : State) (count : Byte) (e : ErrorCode) : (s.completeReceive count e).remaining = s.remaining := rfl
@[simp] theorem State.completeReceive_hdrOk (s : State) (count : Byte) (e : ErrorCode) : (s.completeReceive count e).hdrOk = s.hdrOk := rfl
@[simp] theorem State.completeReceive_dcsOk (s : State) (count : Byte) (e : ErrorCode) : (s.completeReceive count e).dcsOk = s.dcsOk := rfl
@[simp] theorem State.completeReceive_sendOk (s : State) (count : Byte) (e : ErrorCode) : (s.completeReceive count e).sendOk = s.sendOk := rfl
@[simp] theorem State.completeReceive_recvCount (s : State) (count : Byte) (e : ErrorCode) : (s.completeReceive count e).recvCount = count := rfl
@[simp] theorem State.completeReceive_lastErr (s : State) (count : Byte) (e : ErrorCode) : (s.completeReceive count e).lastErr = e.code := rfl
@[simp] theorem State.completeReceive_done (s : State) (count : Byte) (e : ErrorCode) : (s.completeReceive count e).done = true := rfl
@[simp] theorem State.completeReceive_timedOut (s : State) (count : Byte) (e : ErrorCode) : (s.completeReceive count e).timedOut = s.timedOut := rfl
@[simp] theorem State.completeReceive_reqValid (s : State) (count : Byte) (e : ErrorCode) : (s.completeReceive count e).reqValid = s.reqValid := rfl
@[simp] theorem State.completeReceive_reqWord (s : State) (count : Byte) (e : ErrorCode) : (s.completeReceive count e).reqWord = s.reqWord := rfl
@[simp] theorem State.completeReceive_reqBuf (s : State) (count : Byte) (e : ErrorCode) : (s.completeReceive count e).reqBuf = s.reqBuf := rfl
@[simp] theorem State.completeReceive_answers (s : State) (count : Byte) (e : ErrorCode) : (s.completeReceive count e).answers = s.answers := rfl
@[simp] theorem State.completeReceive_busLog (s : State) (count : Byte) (e : ErrorCode) : (s.completeReceive count e).busLog = s.busLog := rfl
@[simp] theorem State.completeReceive_mem (s : State) (count : Byte) (e : ErrorCode) : (s.completeReceive count e).mem = s.mem := rfl
@[simp] theorem State.completeReceive_faultRecord (s : State) (count : Byte) (e : ErrorCode) : (s.completeReceive count e).faultRecord = s.faultRecord := rfl
@[simp] theorem State.completeReceive_params (s : State) (count : Byte) (e : ErrorCode) : (s.completeReceive count e).params = s.params := rfl
@[simp] theorem State.completeReceive_drawCount (s : State) (count : Byte) (e : ErrorCode) : (s.completeReceive count e).drawCount = s.drawCount := rfl

/-! ### setAnswers -/

@[simp] theorem State.setAnswers_state (s : State) (as : List (List Byte)) : (s.setAnswers as).state = s.state := rfl
@[simp] theorem State.setAnswers_curOp (s : State) (as : List (List Byte)) : (s.setAnswers as).curOp = s.curOp := rfl
@[simp] theorem State.setAnswers_curCmd (s : State) (as : List (List Byte)) : (s.setAnswers as).curCmd = s.curCmd := rfl
@[simp] theorem State.setAnswers_curLen (s : State) (as : List (List Byte)) : (s.setAnswers as).curLen = s.curLen := rfl
@[simp] theorem State.setAnswers_curBuf (s : State) (as : List (List Byte)) : (s.setAnswers as).curBuf = s.curBuf := rfl
@[simp] theorem State.setAnswers_busAddr (s : State) (as : List (List Byte)) : (s.setAnswers as).busAddr = s.busAddr := rfl
@[simp] theorem State.setAnswers_txFrame (s : State) (as : List (List Byte)) : (s.setAnswers as).txFrame = s.txFrame := rfl
@[simp] theorem State.setAnswers_attCnt (s : State) (as : List (List Byte)) : (s.setAnswers as).attCnt = s.attCnt := rfl
@[simp] theorem State.setAnswers_rdy (s : State) (as : List (List Byte)) : (s.setAnswers as).rdy = s.rdy := rfl
@[simp] theorem State.setAnswers_ackOk (s : State) (as : List (List Byte)) : (s.setAnswers as).ackOk = s.ackOk := rfl
@[simp] theorem State.setAnswers_rxLen (s : State) (as : List (List Byte)) : (s.setAnswers as).rxLen = s.rxLen := rfl
@[simp] theorem State.setAnswers_rxLcs (s : State) (as : List (List Byte)) : (s.setAnswers as).rxLcs = s.rxLcs := rfl
@[simp] theorem State.setAnswers_rxTfi (s : State) (as : List (List Byte)) : (s.setAnswers as).rxTfi = s.rxTfi := rfl
@[simp] theorem State.setAnswers_rxDcs (s : State) (as : List (List Byte)) : (s.setAnswers as).rxDcs = s.rxDcs := rfl
@[simp] theorem State.setAnswers_sumAcc (s : State) (as : List (List Byte)) : (s.setAnswers as).sumAcc = s.sumAcc := rfl
@[simp] theorem State.setAnswers_remaining (s : State) (as : List (List Byte)) : (s.setAnswers as).remaining = s.remaining := rfl
@[simp] theorem State.setAnswers_hdrOk (s : State) (as : List (List Byte)) : (s.setAnswers as).hdrOk = s.hdrOk := rfl
@[simp] theorem State.setAnswers_dcsOk (s : State) (as : List (List Byte)) : (s.setAnswers as).dcsOk = s.dcsOk := rfl
@[simp] theorem State.setAnswers_sendOk (s : State) (as : List (List Byte)) : (s.setAnswers as).sendOk = s.sendOk := rfl
@[simp] theorem State.setAnswers_recvCount (s : State) (as : List (List Byte)) : (s.setAnswers as).recvCount = s.recvCount := rfl
@[simp] theorem State.setAnswers_lastErr (s : State) (as : List (List Byte)) : (s.setAnswers as).lastErr = s.lastErr := rfl
@[simp] theorem State.setAnswers_done (s : State) (as : List (List Byte)) : (s.setAnswers as).done = s.done := rfl
@[simp] theorem State.setAnswers_timedOut (s : State) (as : List (List Byte)) : (s.setAnswers as).timedOut = s.timedOut := rfl
@[simp] theorem State.setAnswers_reqValid (s : State) (as : List (List Byte)) : (s.setAnswers as).reqValid = s.reqValid := rfl
@[simp] theorem State.setAnswers_reqWord (s : State) (as : List (List Byte)) : (s.setAnswers as).reqWord = s.reqWord := rfl
@[simp] theorem State.setAnswers_reqBuf (s : State) (as : List (List Byte)) : (s.setAnswers as).reqBuf = s.reqBuf := rfl
@[simp] theorem State.setAnswers_answers (s : State) (as : List (List Byte)) : (s.setAnswers as).answers = as := rfl
@[simp] theorem State.setAnswers_busLog (s : State) (as : List (List Byte)) : (s.setAnswers as).busLog = s.busLog := rfl
@[simp] theorem State.setAnswers_mem (s : State) (as : List (List Byte)) : (s.setAnswers as).mem = s.mem := rfl
@[simp] theorem State.setAnswers_faultRecord (s : State) (as : List (List Byte)) : (s.setAnswers as).faultRecord = s.faultRecord := rfl
@[simp] theorem State.setAnswers_params (s : State) (as : List (List Byte)) : (s.setAnswers as).params = s.params := rfl
@[simp] theorem State.setAnswers_drawCount (s : State) (as : List (List Byte)) : (s.setAnswers as).drawCount = s.drawCount := rfl

/-! ### logTxn -/

@[simp] theorem State.logTxn_state (s : State) (t : Txn) : (s.logTxn t).state = s.state := rfl
@[simp] theorem State.logTxn_curOp (s : State) (t : Txn) : (s.logTxn t).curOp = s.curOp := rfl
@[simp] theorem State.logTxn_curCmd (s : State) (t : Txn) : (s.logTxn t).curCmd = s.curCmd := rfl
@[simp] theorem State.logTxn_curLen (s : State) (t : Txn) : (s.logTxn t).curLen = s.curLen := rfl
@[simp] theorem State.logTxn_curBuf (s : State) (t : Txn) : (s.logTxn t).curBuf = s.curBuf := rfl
@[simp] theorem State.logTxn_busAddr (s : State) (t : Txn) : (s.logTxn t).busAddr = s.busAddr := rfl
@[simp] theorem State.logTxn_txFrame (s : State) (t : Txn) : (s.logTxn t).txFrame = s.txFrame := rfl
@[simp] theorem State.logTxn_attCnt (s : State) (t : Txn) : (s.logTxn t).attCnt = s.attCnt := rfl
@[simp] theorem State.logTxn_rdy (s : State) (t : Txn) : (s.logTxn t).rdy = s.rdy := rfl
@[simp] theorem State.logTxn_ackOk (s : State) (t : Txn) : (s.logTxn t).ackOk = s.ackOk := rfl
@[simp] theorem State.logTxn_rxLen (s : State) (t : Txn) : (s.logTxn t).rxLen = s.rxLen := rfl
@[simp] theorem State.logTxn_rxLcs (s : State) (t : Txn) : (s.logTxn t).rxLcs = s.rxLcs := rfl
@[simp] theorem State.logTxn_rxTfi (s : State) (t : Txn) : (s.logTxn t).rxTfi = s.rxTfi := rfl
@[simp] theorem State.logTxn_rxDcs (s : State) (t : Txn) : (s.logTxn t).rxDcs = s.rxDcs := rfl
@[simp] theorem State.logTxn_sumAcc (s : State) (t : Txn) : (s.logTxn t).sumAcc = s.sumAcc := rfl
@[simp] theorem State.logTxn_remaining (s : State) (t : Txn) : (s.logTxn t).remaining = s.remaining := rfl
@[simp] theorem State.logTxn_hdrOk (s : State) (t : Txn) : (s.logTxn t).hdrOk = s.hdrOk := rfl
@[simp] theorem State.logTxn_dcsOk (s : State) (t : Txn) : (s.logTxn t).dcsOk = s.dcsOk := rfl
@[simp] theorem State.logTxn_sendOk (s : State) (t : Txn) : (s.logTxn t).sendOk = s.sendOk := rfl
@[simp] theorem State.logTxn_recvCount (s : State) (t : Txn) : (s.logTxn t).recvCount = s.recvCount := rfl
@[simp] theorem State.logTxn_lastErr (s : State) (t : Txn) : (s.logTxn t).lastErr = s.lastErr := rfl
@[simp] theorem State.logTxn_done (s : State) (t : Txn) : (s.logTxn t).done = s.done := rfl
@[simp] theorem State.logTxn_timedOut (s : State) (t : Txn) : (s.logTxn t).timedOut = s.timedOut := rfl
@[simp] theorem State.logTxn_reqValid (s : State) (t : Txn) : (s.logTxn t).reqValid = s.reqValid := rfl
@[simp] theorem State.logTxn_reqWord (s : State) (t : Txn) : (s.logTxn t).reqWord = s.reqWord := rfl
@[simp] theorem State.logTxn_reqBuf (s : State) (t : Txn) : (s.logTxn t).reqBuf = s.reqBuf := rfl
@[simp] theorem State.logTxn_answers (s : State) (t : Txn) : (s.logTxn t).answers = s.answers := rfl
@[simp] theorem State.logTxn_busLog (s : State) (t : Txn) : (s.logTxn t).busLog = s.busLog ++ [t] := rfl
@[simp] theorem State.logTxn_mem (s : State) (t : Txn) : (s.logTxn t).mem = s.mem := rfl
@[simp] theorem State.logTxn_faultRecord (s : State) (t : Txn) : (s.logTxn t).faultRecord = s.faultRecord := rfl
@[simp] theorem State.logTxn_params (s : State) (t : Txn) : (s.logTxn t).params = s.params := rfl
@[simp] theorem State.logTxn_drawCount (s : State) (t : Txn) : (s.logTxn t).drawCount = s.drawCount := rfl

/-! ### advanceDraws -/

@[simp] theorem State.advanceDraws_state (s : State) (n : Nat) : (s.advanceDraws n).state = s.state := rfl
@[simp] theorem State.advanceDraws_curOp (s : State) (n : Nat) : (s.advanceDraws n).curOp = s.curOp := rfl
@[simp] theorem State.advanceDraws_curCmd (s : State) (n : Nat) : (s.advanceDraws n).curCmd = s.curCmd := rfl
@[simp] theorem State.advanceDraws_curLen (s : State) (n : Nat) : (s.advanceDraws n).curLen = s.curLen := rfl
@[simp] theorem State.advanceDraws_curBuf (s : State) (n : Nat) : (s.advanceDraws n).curBuf = s.curBuf := rfl
@[simp] theorem State.advanceDraws_busAddr (s : State) (n : Nat) : (s.advanceDraws n).busAddr = s.busAddr := rfl
@[simp] theorem State.advanceDraws_txFrame (s : State) (n : Nat) : (s.advanceDraws n).txFrame = s.txFrame := rfl
@[simp] theorem State.advanceDraws_attCnt (s : State) (n : Nat) : (s.advanceDraws n).attCnt = s.attCnt := rfl
@[simp] theorem State.advanceDraws_rdy (s : State) (n : Nat) : (s.advanceDraws n).rdy = s.rdy := rfl
@[simp] theorem State.advanceDraws_ackOk (s : State) (n : Nat) : (s.advanceDraws n).ackOk = s.ackOk := rfl
@[simp] theorem State.advanceDraws_rxLen (s : State) (n : Nat) : (s.advanceDraws n).rxLen = s.rxLen := rfl
@[simp] theorem State.advanceDraws_rxLcs (s : State) (n : Nat) : (s.advanceDraws n).rxLcs = s.rxLcs := rfl
@[simp] theorem State.advanceDraws_rxTfi (s : State) (n : Nat) : (s.advanceDraws n).rxTfi = s.rxTfi := rfl
@[simp] theorem State.advanceDraws_rxDcs (s : State) (n : Nat) : (s.advanceDraws n).rxDcs = s.rxDcs := rfl
@[simp] theorem State.advanceDraws_sumAcc (s : State) (n : Nat) : (s.advanceDraws n).sumAcc = s.sumAcc := rfl
@[simp] theorem State.advanceDraws_remaining (s : State) (n : Nat) : (s.advanceDraws n).remaining = s.remaining := rfl
@[simp] theorem State.advanceDraws_hdrOk (s : State) (n : Nat) : (s.advanceDraws n).hdrOk = s.hdrOk := rfl
@[simp] theorem State.advanceDraws_dcsOk (s : State) (n : Nat) : (s.advanceDraws n).dcsOk = s.dcsOk := rfl
@[simp] theorem State.advanceDraws_sendOk (s : State) (n : Nat) : (s.advanceDraws n).sendOk = s.sendOk := rfl
@[simp] theorem State.advanceDraws_recvCount (s : State) (n : Nat) : (s.advanceDraws n).recvCount = s.recvCount := rfl
@[simp] theorem State.advanceDraws_lastErr (s : State) (n : Nat) : (s.advanceDraws n).lastErr = s.lastErr := rfl
@[simp] theorem State.advanceDraws_done (s : State) (n : Nat) : (s.advanceDraws n).done = s.done := rfl
@[simp] theorem State.advanceDraws_timedOut (s : State) (n : Nat) : (s.advanceDraws n).timedOut = s.timedOut := rfl
@[simp] theorem State.advanceDraws_reqValid (s : State) (n : Nat) : (s.advanceDraws n).reqValid = s.reqValid := rfl
@[simp] theorem State.advanceDraws_reqWord (s : State) (n : Nat) : (s.advanceDraws n).reqWord = s.reqWord := rfl
@[simp] theorem State.advanceDraws_reqBuf (s : State) (n : Nat) : (s.advanceDraws n).reqBuf = s.reqBuf := rfl
@[simp] theorem State.advanceDraws_answers (s : State) (n : Nat) : (s.advanceDraws n).answers = s.answers := rfl
@[simp] theorem State.advanceDraws_busLog (s : State) (n : Nat) : (s.advanceDraws n).busLog = s.busLog := rfl
@[simp] theorem State.advanceDraws_mem (s : State) (n : Nat) : (s.advanceDraws n).mem = s.mem := rfl
@[simp] theorem State.advanceDraws_faultRecord (s : State) (n : Nat) : (s.advanceDraws n).faultRecord = s.faultRecord := rfl
@[simp] theorem State.advanceDraws_params (s : State) (n : Nat) : (s.advanceDraws n).params = s.params := rfl
@[simp] theorem State.advanceDraws_drawCount (s : State) (n : Nat) : (s.advanceDraws n).drawCount = s.drawCount + n := rfl

/-! ### setMem -/

@[simp] theorem State.setMem_state (s : State) (m : Memory) : (s.setMem m).state = s.state := rfl
@[simp] theorem State.setMem_curOp (s : State) (m : Memory) : (s.setMem m).curOp = s.curOp := rfl
@[simp] theorem State.setMem_curCmd (s : State) (m : Memory) : (s.setMem m).curCmd = s.curCmd := rfl
@[simp] theorem State.setMem_curLen (s : State) (m : Memory) : (s.setMem m).curLen = s.curLen := rfl
@[simp] theorem State.setMem_curBuf (s : State) (m : Memory) : (s.setMem m).curBuf = s.curBuf := rfl
@[simp] theorem State.setMem_busAddr (s : State) (m : Memory) : (s.setMem m).busAddr = s.busAddr := rfl
@[simp] theorem State.setMem_txFrame (s : State) (m : Memory) : (s.setMem m).txFrame = s.txFrame := rfl
@[simp] theorem State.setMem_attCnt (s : State) (m : Memory) : (s.setMem m).attCnt = s.attCnt := rfl
@[simp] theorem State.setMem_rdy (s : State) (m : Memory) : (s.setMem m).rdy = s.rdy := rfl
@[simp] theorem State.setMem_ackOk (s : State) (m : Memory) : (s.setMem m).ackOk = s.ackOk := rfl
@[simp] theorem State.setMem_rxLen (s : State) (m : Memory) : (s.setMem m).rxLen = s.rxLen := rfl
@[simp] theorem State.setMem_rxLcs (s : State) (m : Memory) : (s.setMem m).rxLcs = s.rxLcs := rfl
@[simp] theorem State.setMem_rxTfi (s : State) (m : Memory) : (s.setMem m).rxTfi = s.rxTfi := rfl
@[simp] theorem State.setMem_rxDcs (s : State) (m : Memory) : (s.setMem m).rxDcs = s.rxDcs := rfl
@[simp] theorem State.setMem_sumAcc (s : State) (m : Memory) : (s.setMem m).sumAcc = s.sumAcc := rfl
@[simp] theorem State.setMem_remaining (s : State) (m : Memory) : (s.setMem m).remaining = s.remaining := rfl
@[simp] theorem State.setMem_hdrOk (s : State) (m : Memory) : (s.setMem m).hdrOk = s.hdrOk := rfl
@[simp] theorem State.setMem_dcsOk (s : State) (m : Memory) : (s.setMem m).dcsOk = s.dcsOk := rfl
@[simp] theorem State.setMem_sendOk (s : State) (m : Memory) : (s.setMem m).sendOk = s.sendOk := rfl
@[simp] theorem State.setMem_recvCount (s : State) (m : Memory) : (s.setMem m).recvCount = s.recvCount := rfl
@[simp] theorem State.setMem_lastErr (s : State) (m : Memory) : (s.setMem m).lastErr = s.lastErr := rfl
@[simp] theorem State.setMem_done (s : State) (m : Memory) : (s.setMem m).done = s.done := rfl
@[simp] theorem State.setMem_timedOut (s : State) (m : Memory) : (s.setMem m).timedOut = s.timedOut := rfl
@[simp] theorem State.setMem_reqValid (s : State) (m : Memory) : (s.setMem m).reqValid = s.reqValid := rfl
@[simp] theorem State.setMem_reqWord (s : State) (m : Memory) : (s.setMem m).reqWord = s.reqWord := rfl
@[simp] theorem State.setMem_reqBuf (s : State) (m : Memory) : (s.setMem m).reqBuf = s.reqBuf := rfl
@[simp] theorem State.setMem_answers (s : State) (m : Memory) : (s.setMem m).answers = s.answers := rfl
@[simp] theorem State.setMem_busLog (s : State) (m : Memory) : (s.setMem m).busLog = s.busLog := rfl
@[simp] theorem State.setMem_mem (s : State) (m : Memory) : (s.setMem m).mem = m := rfl
@[simp] theorem State.setMem_faultRecord (s : State) (m : Memory) : (s.setMem m).faultRecord = s.faultRecord := rfl
@[simp] theorem State.setMem_params (s : State) (m : Memory) : (s.setMem m).params = s.params := rfl
@[simp] theorem State.setMem_drawCount (s : State) (m : Memory) : (s.setMem m).drawCount = s.drawCount := rfl

end Sys2Proof.Machine
end

