-- ==== Sys2Proof/Laws/Ops.lean ====
section
/-!
SUPPORT. One lemma per shared operation, saying everything it can do. Citing these is enough; none of the operations needs
to be unfolded again.
-/

namespace Sys2Proof.Machine

/-! ## Codes -/

/-- The code of a state is read back as that state (R22). -/
@[simp] theorem FsmState.ofCode_code (st : FsmState) : FsmState.ofCode st.code = some st := by cases st <;> rfl

/-- A code read as a state is that state's code (R22). -/
theorem FsmState.code_of_ofCode {c : BitVec 4} {st : FsmState} (h : FsmState.ofCode c = some st) : c = st.code := by
  revert c st
  decide

/-- The codes 0xD to 0xF are no state (R23). -/
theorem FsmState.ofCode_none_iff (c : BitVec 4) : FsmState.ofCode c = none ↔ 0xD ≤ c.toNat := by
  revert c
  decide

/-- Distinct states have distinct codes (R22). -/
@[simp] theorem FsmState.code_inj (a b : FsmState) : a.code = b.code ↔ a = b := by
  revert a b
  intro a b
  cases a <;> cases b <;> decide

/-! ## Buffers -/

/-- Every access to indices 0 .. n-1 is admitted exactly when n is within the capacity (R47, R48). -/
theorem BufHandle.admitsAll_iff (h : BufHandle) (n : Nat) : h.admitsAll n = true ↔ n ≤ h.cap := by
  simp only [BufHandle.admitsAll, List.all_eq_true, List.mem_range, BufHandle.admits, decide_eq_true_eq]
  constructor
  · intro H
    by_contra hlt
    have := H h.cap (by omega)
    omega
  · intro H i hi
    omega

@[simp] theorem bufReads_length (s : State) (h : BufHandle) (n : Nat) : (bufReads s h n).length = n := by
  simp [bufReads]

@[simp] theorem draws_length (k n : Nat) : (draws k n).length = n := by
  simp [draws]

theorem byteAt_draws (k n i : Nat) (h : i < n) : byteAt (draws k n) i = Config.draw (k + i) := by
  simp [byteAt, draws, List.getElem?_range h]

/-! ## Transactions -/

/-- A read transaction returns exactly as many bytes as it asked for (R52). -/
@[simp] theorem readBytes_length (s : State) (d : List Byte) (n : Nat) : (readBytes s d n).length = n := by
  simp only [readBytes, List.length_append, draws_length, List.length_take]
  omega

/-- A transport that delivers every byte leaves none to draw (R52). -/
theorem readBytes_full (s : State) (d : List Byte) (n : Nat) (h : n ≤ d.length) : readBytes s d n = d.take n := by
  have : n - (d.take n).length = 0 := by simp only [List.length_take]; omega
  rw [readBytes, this]
  simp [draws]

theorem drawsTaken_full (d : List Byte) (n : Nat) (h : n ≤ d.length) : drawsTaken d n = 0 := by
  simp only [drawsTaken, List.length_take]; omega

/-- A read transaction holds exactly when the transport has not answered (R50). -/
theorem busRead_eq_none (s : State) (n : Nat) : busRead s n = none ↔ s.answers = [] := by
  unfold busRead
  split <;> simp_all

/-- What a read transaction does (R52). -/
theorem busRead_cons (s : State) (n : Nat) (d : List Byte) (rest : List (List Byte)) (h : s.answers = d :: rest) :
    busRead s n =
      some (readBytes s d n, ((s.setAnswers rest).advanceDraws (drawsTaken d n)).logTxn (.read s.busAddr n)) := by
  simp [busRead, h]

/-- What a write transaction does (R51). -/
theorem busWrite_cons (s : State) (f d : List Byte) (rest : List (List Byte)) (h : s.answers = d :: rest) :
    busWrite s f = .done ((s.setAnswers rest).logTxn (.write s.busAddr f)) := by
  simp [busWrite, h]

theorem busWrite_nil (s : State) (f : List Byte) (h : s.answers = []) : busWrite s f = .held := by
  simp [busWrite, h]

/-! ## The sub-blocks -/

/-- ENCODE writes `tx_frame`, or has no step (R86, R47). -/
theorem encodeOp_eq (s : State) :
    encodeOp s = if s.curLen.toNat ≤ s.curBuf.cap then
        .done (s.setTxFrame (commandFrame s.curCmd (bufReads s s.curBuf s.curLen.toNat)))
      else .stuck .stuckBufRead := by
  unfold encodeOp
  by_cases h : s.curLen.toNat ≤ s.curBuf.cap
  · rw [if_pos h, if_pos ((BufHandle.admitsAll_iff _ _).2 h)]
  · rw [if_neg h, if_neg (fun H => h ((BufHandle.admitsAll_iff _ _).1 H))]

/-- A command frame has n + 9 bytes (R64). -/
@[simp] theorem commandFrame_length (cmd : Byte) (p : List Byte) : (commandFrame cmd p).length = p.length + 9 := by
  simp [commandFrame, frameStart]

/-- READ_ACK holds, or reads one transaction and sets `ack_ok` (R102). -/
theorem readAckOp_cons (s : State) (d : List Byte) (rest : List (List Byte)) (h : s.answers = d :: rest) :
    readAckOp s = .done ((((s.setAnswers rest).advanceDraws (drawsTaken d (ackReadCount s.params))).logTxn
        (.read s.busAddr (ackReadCount s.params))).setAckOk
        (ackOkOf s.params ((readBytes s d (ackReadCount s.params)).drop s.params.ackPrefix.val))) := by
  simp [readAckOp, busRead_cons s _ d rest h, ackArrives]

theorem readAckOp_nil (s : State) (h : s.answers = []) : readAckOp s = .held := by
  simp [readAckOp, (busRead_eq_none s _).2 h]

/-- One iteration of the poll with no attempt left (R96). -/
theorem pollOnce_zero (s : State) (h : s.attCnt = 0) : pollOnce s = (.notReady, s) := by
  simp [pollOnce, h]

/-- One iteration of the poll that the transport has not answered (R50). -/
theorem pollOnce_nil (s : State) (h : s.attCnt ≠ 0) (ha : s.answers = []) : pollOnce s = (.held, s) := by
  rw [pollOnce, if_neg h, (busRead_eq_none s 1).2 ha]

/-- One iteration of the poll: one transaction, the attempt counted, RDY latched (R96). -/
theorem pollOnce_cons (s : State) (h : s.attCnt ≠ 0) (d : List Byte) (rest : List (List Byte))
    (ha : s.answers = d :: rest) :
    pollOnce s =
      (if statusRdy (byteAt (readBytes s d 1) 0) then .ready else .again,
       (((s.setAnswers rest).advanceDraws (drawsTaken d 1)).logTxn (.read s.busAddr 1)).countAttempt
        (statusRdy (byteAt (readBytes s d 1) 0))) := by
  rw [pollOnce, if_neg h, busRead_cons s 1 d rest ha]
  simp only [statusArrives]
  rw [if_neg (show ¬ State.attCnt (((s.setAnswers rest).advanceDraws (drawsTaken d 1)).logTxn _) = 0 from h)]
  rfl

/-- READ_RESPONSE's parser runs, or a destination access has no step (R108, R48). -/
theorem parseReply_eq (f : List Byte) (s : State) :
    parseReply f s = if s.curLen.toNat ≤ s.curBuf.cap then
        .done (deliverReply (replyData f s.curLen.toNat) (checkReply (replyData f s.curLen.toNat)
          (s.latchReply (replyLen f) (replyLcs f) (replyTfi f) (replyDcs f s.curLen.toNat))))
      else .stuck .stuckBufWrite := by
  unfold parseReply
  by_cases h : s.curLen.toNat ≤ s.curBuf.cap
  · simp only [if_pos h, if_pos ((BufHandle.admitsAll_iff _ _).2 h)]
  · have : s.curBuf.admitsAll s.curLen.toNat ≠ true := fun H => h ((BufHandle.admitsAll_iff _ _).1 H)
    simp only [if_neg h, if_neg this]

theorem readResponseOp_nil (s : State) (h : s.answers = []) : readResponseOp s = .held := by
  simp [readResponseOp, (busRead_eq_none s _).2 h]

/-- READ_RESPONSE on an answered transaction (R108). -/
theorem readResponseOp_cons (s : State) (d : List Byte) (rest : List (List Byte)) (h : s.answers = d :: rest) :
    readResponseOp s =
      parseReply ((readBytes s d (replyReadCount s.params s.curLen.toNat)).drop s.params.respPrefix.val)
        (((s.setAnswers rest).advanceDraws (drawsTaken d (replyReadCount s.params s.curLen.toNat))).logTxn
          (.read s.busAddr (replyReadCount s.params s.curLen.toNat))) := by
  simp [readResponseOp, busRead_cons s _ d rest h]

/-- A reply both of whose checks passed reaches the destination (R108). -/
theorem deliverReply_pass (d : List Byte) (s : State) (h : (s.hdrOk && s.dcsOk) = true) :
    deliverReply d s = bufWrites s s.curBuf d := by
  rw [deliverReply, if_pos h]

/-- The destination of a reply with a failed check holds draws (R108, R114). -/
theorem deliverReply_fail (d : List Byte) (s : State) (h : ¬ (s.hdrOk && s.dcsOk) = true) :
    deliverReply d s = scrubDestination (bufWrites s s.curBuf d) d.length := by
  rw [deliverReply, if_neg h]

/-- Everything the parser does where the destination is long enough: the registers, memory and its frame (R108 to R114). -/
theorem parseReply_spec (f : List Byte) (s : State) (hc : s.curLen.toNat ≤ s.curBuf.cap)
    (hf : 6 + s.curLen.toNat ≤ f.length) :
    ∃ m k, parseReply f s = .done { s with
        rxLen := byteAt f 3, rxLcs := byteAt f 4, rxTfi := byteAt f 5, rxDcs := byteAt f (6 + s.curLen.toNat),
        hdrOk := hdrOkOf (byteAt f 3) (byteAt f 4), remaining := remainingOf (byteAt f 3),
        sumAcc := footerSum (byteAt f 5) none ((f.drop 6).take s.curLen.toNat) (byteAt f (6 + s.curLen.toNat)),
        dcsOk := dcsOkOf (footerSum (byteAt f 5) none ((f.drop 6).take s.curLen.toNat) (byteAt f (6 + s.curLen.toNat))),
        mem := m, drawCount := s.drawCount + k } ∧
      (s.mem.wf = true → m.wf = true) ∧
      (s.mem.wf = true → ∀ a, (a < s.curBuf.base ∨ s.curBuf.base + s.curLen.toNat ≤ a) →
        Memory.read m a = Memory.read s.mem a) ∧
      (hdrOkOf (byteAt f 3) (byteAt f 4) = true →
        dcsOkOf (footerSum (byteAt f 5) none ((f.drop 6).take s.curLen.toNat) (byteAt f (6 + s.curLen.toNat))) = true →
        k = 0 ∧ (s.mem.wf = true → ∀ i, i < s.curLen.toNat →
          Memory.read m (s.curBuf.base + i) = byteAt ((f.drop 6).take s.curLen.toNat) i)) := by
  have hlen : ((f.drop 6).take s.curLen.toNat).length = s.curLen.toNat := by
    simp only [List.length_take, List.length_drop]; omega
  rw [parseReply_eq, if_pos hc]
  simp only [replyData, replyLen, replyLcs, replyTfi, replyDcs]
  generalize (f.drop 6).take s.curLen.toNat = data at *
  generalize byteAt f 3 = b3
  generalize byteAt f 4 = b4
  generalize byteAt f 5 = b5
  generalize byteAt f (6 + s.curLen.toNat) = b6
  simp only [checkReply, verifyFooterOp, decodeHeaderOp, State.latchReply, State.setFooter, State.setHeader]
  by_cases hok : (hdrOkOf b3 b4 && dcsOkOf (footerSum b5 none data b6)) = true
  · rw [deliverReply_pass _ _ (by exact hok)]
    refine ⟨Memory.writeAll s.mem s.curBuf.base data, 0, by simp [bufWrites, State.setMem],
      Memory.writeAll_wf _ _ _, fun hw a ha => ?_, fun _ _ => ⟨rfl, fun hw i hi => ?_⟩⟩
    · rw [Memory.read_writeAll _ _ _ _ hw, if_neg (by omega)]
    · rw [Memory.read_writeAll _ _ _ _ hw, if_pos (by omega)]
      congr 1; omega
  · rw [deliverReply_fail _ _ (by exact hok)]
    refine ⟨Memory.writeAll (Memory.writeAll s.mem s.curBuf.base data) s.curBuf.base (draws s.drawCount data.length),
      data.length, by simp [bufWrites, State.setMem, scrubDestination, State.advanceDraws],
      fun hw => Memory.writeAll_wf _ _ _ (Memory.writeAll_wf _ _ _ hw), fun hw a ha => ?_,
      fun h1 h2 => absurd (Bool.and_eq_true _ _ ▸ ⟨h1, h2⟩) hok⟩
    rw [Memory.read_writeAll _ _ _ _ (Memory.writeAll_wf _ _ _ hw), if_neg (by simp only [draws_length]; omega),
      Memory.read_writeAll _ _ _ _ hw, if_neg (by omega)]

/-- Everything READ_RESPONSE does on an answered transaction where the destination is long enough (R108 to R114). -/
theorem readResponseOp_spec (s : State) (d : List Byte) (rest : List (List Byte)) (h : s.answers = d :: rest)
    (hc : s.curLen.toNat ≤ s.curBuf.cap) {count : Nat} (hco : count = s.params.respPrefix.val + 8 + s.curLen.toNat)
    {f data : List Byte} (hf : f = (readBytes s d count).drop s.params.respPrefix.val)
    (hd : data = (f.drop 6).take s.curLen.toNat) :
    ∃ m k, readResponseOp s = .done { s with
        rxLen := byteAt f 3, rxLcs := byteAt f 4, rxTfi := byteAt f 5, rxDcs := byteAt f (6 + s.curLen.toNat),
        hdrOk := hdrOkOf (byteAt f 3) (byteAt f 4), remaining := remainingOf (byteAt f 3),
        sumAcc := footerSum (byteAt f 5) none data (byteAt f (6 + s.curLen.toNat)),
        dcsOk := dcsOkOf (footerSum (byteAt f 5) none data (byteAt f (6 + s.curLen.toNat))),
        answers := rest, busLog := s.busLog ++ [.read s.busAddr count], mem := m,
        drawCount := s.drawCount + drawsTaken d count + k } ∧
      (s.mem.wf = true → m.wf = true) ∧
      (s.mem.wf = true → ∀ a, (a < s.curBuf.base ∨ s.curBuf.base + s.curLen.toNat ≤ a) →
        Memory.read m a = Memory.read s.mem a) ∧
      (hdrOkOf (byteAt f 3) (byteAt f 4) = true →
        dcsOkOf (footerSum (byteAt f 5) none data (byteAt f (6 + s.curLen.toNat))) = true →
        k = 0 ∧ (s.mem.wf = true → ∀ i, i < s.curLen.toNat → Memory.read m (s.curBuf.base + i) = byteAt data i)) := by
  have hfl : 6 + s.curLen.toNat ≤ f.length := by rw [hf, List.length_drop, readBytes_length]; omega
  have : replyReadCount s.params s.curLen.toNat = count := by rw [hco]; rfl
  rw [readResponseOp_cons s d rest h, this, ← hf, hd]
  exact parseReply_spec f (((s.setAnswers rest).advanceDraws (drawsTaken d count)).logTxn (.read s.busAddr count)) hc hfl

/-- READ_RESPONSE on an answered transaction where the destination is too short (R48). -/
theorem readResponseOp_stuck (s : State) (d : List Byte) (rest : List (List Byte)) (h : s.answers = d :: rest)
    (hc : ¬ s.curLen.toNat ≤ s.curBuf.cap) : readResponseOp s = .stuck .stuckBufWrite := by
  rw [readResponseOp_cons s d rest h, parseReply_eq]
  rw [if_neg (by exact hc)]

/-! ## The memory of the reset state -/

theorem reset_mem_wf : State.reset.mem.wf = true := rfl

/-- Every named update but `setMem` leaves memory alone, and buffer writes keep its canonical form (R48). -/
theorem bufWrites_wf (s : State) (h : BufHandle) (vs : List Byte) (hw : s.mem.wf = true) :
    (bufWrites s h vs).mem.wf = true := Memory.writeAll_wf _ _ _ hw

/-- A byte is borrowed exactly while the core is busy and inside the region `cur_buf` names (20_memory.md R46, R58). -/
theorem borrows_iff (s : State) (a : Nat) :
    s.borrows a = true ↔ s.state ≠ FsmState.idle.code ∧ s.curBuf.base ≤ a ∧ a < s.curBuf.base + s.curBuf.cap := by
  simp [State.borrows, State.busy, BufHandle.covers]

theorem callerWrite_wf (s : State) (a : Nat) (v : Byte) (hw : s.mem.wf = true) : (s.callerWrite a v).mem.wf = true := by
  unfold State.callerWrite
  split
  · exact hw
  · exact Memory.write_wf _ _ _ hw

theorem assertReset_wf (s : State) (hw : s.mem.wf = true) : s.assertReset.mem.wf = true := by
  unfold State.assertReset abandonDestination
  split
  · exact Memory.writeAll_wf _ _ _ hw
  · exact hw

/-- `P_BUS_ADDR` has `P_ADDR_W` bits (00_scope.md R7). -/
theorem params_busAddr_lt (p : Params) : p.busAddr < 2 ^ p.addrW := p.busAddrBits.isLt

/-- A byte the transport did not deliver is the next draw (20_memory.md R52). -/
theorem byteAt_readBytes_draw (s : State) (d : List Byte) (n i : Nat) (h1 : d.length ≤ i) (h2 : i < n) :
    byteAt (readBytes s d n) i = Config.draw (s.drawCount + (i - d.length)) := by
  have hd : d.take n = d := List.take_of_length_le (by omega)
  simp only [byteAt, readBytes, hd]
  rw [List.getD_append_right _ _ _ _ h1]
  exact byteAt_draws _ _ _ (by omega)

/-- What abandoning does to the destination (70_reset_and_hazards.md R154): nothing where no RECEIVE_RESPONSE is in progress;
otherwise each byte of the buffer is a draw, and no other byte changes. -/
theorem abandonDestination_spec (s : State) (hw : s.mem.wf = true) :
    ∃ m k, abandonDestination s = { s with mem := m, drawCount := k } ∧
      (s.receiving = true → ∀ i, i < s.curBuf.cap → Memory.read m (s.curBuf.base + i) = Config.draw (s.drawCount + i)) ∧
      (∀ a, (s.receiving = false ∨ a < s.curBuf.base ∨ s.curBuf.base + s.curBuf.cap ≤ a) →
        Memory.read m a = Memory.read s.mem a) := by
  unfold abandonDestination
  cases hr : s.receiving
  · exact ⟨s.mem, s.drawCount, rfl, by simp, fun _ _ => rfl⟩
  · refine ⟨_, _, rfl, fun _ i hi => ?_, fun a ha => ?_⟩
    · show Memory.read (Memory.writeAll s.mem s.curBuf.base (draws s.drawCount s.curBuf.cap)) _ = _
      rw [Memory.read_writeAll _ _ _ _ hw, if_pos (by simp only [draws_length]; omega), Nat.add_sub_cancel_left]
      exact byteAt_draws _ _ _ hi
    · show Memory.read (Memory.writeAll s.mem s.curBuf.base (draws s.drawCount s.curBuf.cap)) a = _
      rw [Memory.read_writeAll _ _ _ _ hw, if_neg]
      simp only [draws_length]
      rcases ha with ha | ha | ha
      · cases ha
      all_goals omega

end Sys2Proof.Machine
end

