-- ==== Sys2Proof/Laws/Step.lean ====
section
/-!
SUPPORT. What a step is: which operation it runs, and one inversion lemma (`step_case`) that says everything a step with a
next state can be. Citing it is enough; `step` and the meanings need not be unfolded again.
-/

namespace Sys2Proof.Machine

/-! ## Where the core is -/

theorem ofCode_of_isIn {s : State} {st : FsmState} (h : s.isIn st) : FsmState.ofCode s.state = some st := by
  rw [show s.state = st.code from h, FsmState.ofCode_code]

/-- The core is in a state of R22, or its code is one of 0xD to 0xF. -/
theorem isIn_or_illegal (s : State) : (∃ st, s.isIn st) ∨ 0xD ≤ s.state.toNat := by
  rcases h : FsmState.ofCode s.state with _ | st
  · exact .inr ((FsmState.ofCode_none_iff _).1 h)
  · exact .inl ⟨st, FsmState.code_of_ofCode h⟩

theorem inSend_of_code : ∀ st : FsmState, 0x1 ≤ st.code.toNat ∧ st.code.toNat ≤ 0x8 → st.inSend = true := by
  intro st; cases st <;> decide

theorem inReceive_of_code : ∀ st : FsmState, 0x9 ≤ st.code.toNat ∧ st.code.toNat ≤ 0xC → st.inReceive = true := by
  intro st; cases st <;> decide

/-- The states of a SEND_COMMAND in progress. -/
theorem isIn_of_sending {s : State} (h : s.sending) : ∃ st, s.isIn st ∧ st.inSend = true := by
  rcases isIn_or_illegal s with ⟨st, hs⟩ | h'
  · refine ⟨st, hs, inSend_of_code st ?_⟩
    rw [← show s.state = st.code from hs]
    exact h
  · unfold State.sending at h; omega

/-- The states of a RECEIVE_RESPONSE in progress. -/
theorem isIn_of_inReply {s : State} (h : s.inReply) : ∃ st, s.isIn st ∧ st.inReceive = true := by
  rcases isIn_or_illegal s with ⟨st, hs⟩ | h'
  · refine ⟨st, hs, inReceive_of_code st ?_⟩
    rw [← show s.state = st.code from hs]
    exact h
  · unfold State.inReply at h; omega

theorem ne_idle_of_inSend {st : FsmState} (h : st.inSend = true) : st ≠ .idle := by
  rintro rfl; exact absurd h (by decide)

theorem ne_idle_of_inReceive {st : FsmState} (h : st.inReceive = true) : st ≠ .idle := by
  rintro rfl; exact absurd h (by decide)

/-! ## What is fetched, and what a step runs -/

theorem fetch_idle {s : State} (hf : s.faultRecord = none) (h : s.isIn .idle) :
    fetch s = if s.reqValid then fetchRequest s else .nothing := by
  unfold fetch
  rw [hf, ofCode_of_isIn h]

theorem fetch_busy {s : State} {st : FsmState} (hf : s.faultRecord = none) (h : s.isIn st) (hi : st ≠ .idle) :
    fetch s = if s.reqValid then .violation .busy else .operation (currentInstr st s) := by
  unfold fetch
  rw [hf, ofCode_of_isIn h]
  cases st <;> simp_all

/-- The step of a SEND_COMMAND in progress (R121). -/
theorem step_inSend {s : State} {st : FsmState} (hq : s.quiet) (h : s.isIn st) (hi : st.inSend = true) :
    step s = sendStep st s := by
  simp only [step, fetch_busy hq.1 h (ne_idle_of_inSend hi), hq.2, currentInstr, hi, exec, execSendCommand,
    ofCode_of_isIn h]
  cases st <;> simp_all [FsmState.inSend]

/-- The step of a RECEIVE_RESPONSE in progress (R127). -/
theorem step_inReceive {s : State} {st : FsmState} (hq : s.quiet) (h : s.isIn st) (hi : st.inReceive = true) :
    step s = receiveStep st s := by
  have hn : st.inSend = false := by cases st <;> simp_all [FsmState.inReceive, FsmState.inSend]
  simp only [step, fetch_busy hq.1 h (ne_idle_of_inReceive hi), hq.2, currentInstr, hn, exec, execReceiveResponse,
    ofCode_of_isIn h]
  cases st <;> simp_all [FsmState.inReceive]

/-- The meaning of the SEND_COMMAND in progress is its next step (R121). -/
theorem exec_send_inProgress {s : State} {st : FsmState} (h : s.isIn st) (hi : st.inSend = true) :
    exec (.sendCommand s.curCmd s.curLen) s = sendStep st s := by
  simp only [exec, execSendCommand, ofCode_of_isIn h]
  cases st <;> simp_all [FsmState.inSend]

/-- The meaning of the RECEIVE_RESPONSE in progress is its next step (R127). -/
theorem exec_receive_inProgress {s : State} {st : FsmState} (h : s.isIn st) (hi : st.inReceive = true) :
    exec (.receiveResponse s.curLen) s = receiveStep st s := by
  simp only [exec, execReceiveResponse, ofCode_of_isIn h]
  cases st <;> simp_all [FsmState.inReceive]

/-! ## The inversion lemma -/

/-- Everything a step from `s` to `t` can be: a hold, a recorded violation, an acceptance, or one row of R130's table with
all it writes. -/
inductive StepCase (s t : State) : Prop
  | waits (hf : s.faultRecord = none) (h : Waits s) (ht : t = s)
  | illegalState (hf : s.faultRecord = none) (h : 0xD ≤ s.state.toNat) (ht : t = s.raise .illegalState)
  | busy (hf : s.faultRecord = none) (hv : s.reqValid = true) (st : FsmState) (h : s.isIn st) (hi : st ≠ .idle)
      (ht : t = s.raise .busy)
  | illegalOp (hf : s.faultRecord = none) (hv : s.reqValid = true) (h : s.isIn .idle) (e : DecodeError)
      (he : decodeRequest s.reqWord = .error e) (ht : t = s.raise .illegalOp)
  | payloadLen (hf : s.faultRecord = none) (hv : s.reqValid = true) (h : s.isIn .idle) (cmd len : Byte)
      (he : decodeRequest s.reqWord = .ok (.sendCommand cmd len)) (hl : maxPayload < len.toNat)
      (ht : t = s.raise .payloadLen)
  | acceptSend (hf : s.faultRecord = none) (hv : s.reqValid = true) (h : s.isIn .idle) (cmd len : Byte)
      (he : decodeRequest s.reqWord = .ok (.sendCommand cmd len)) (hl : len.toNat ≤ maxPayload)
      (ht : t = (s.latchRequest opSend cmd len).goto .encoding)
  | acceptReceive (hf : s.faultRecord = none) (hv : s.reqValid = true) (h : s.isIn .idle) (len : Byte)
      (he : decodeRequest s.reqWord = .ok (.receiveResponse len))
      (ht : t = ((s.latchRequest opReceive 0x00 len).loadAttempts s.params.maxAttemptsResp).goto .pollingResp)
  | encoding (hq : s.quiet) (h : s.isIn .encoding) (hc : s.curLen.toNat ≤ s.curBuf.cap)
      (ht : t = (s.setTxFrame (commandFrame s.curCmd (bufReads s s.curBuf s.curLen.toNat))).goto .transmitting)
  | transmitting (hq : s.quiet) (h : s.isIn .transmitting) (d : List Byte) (rest : List (List Byte))
      (ha : s.answers = d :: rest) (ht : t = ((s.setAnswers rest).logTxn (.write s.busAddr s.txFrame)).goto .settling)
  | settling (hq : s.quiet) (h : s.isIn .settling) (ht : t = (s.loadAttempts s.params.maxAttemptsAck).goto .pollingAck)
  | ackTimesOut (hq : s.quiet) (h : s.isIn .pollingAck) (h0 : s.attCnt = 0) (ht : t = s.goto .timeout)
  | pollsAck (hq : s.quiet) (h : s.isIn .pollingAck) (h0 : s.attCnt ≠ 0) (d : List Byte) (rest : List (List Byte))
      (ha : s.answers = d :: rest) (r : Bool)
      (ht : t = { s with
        attCnt := s.attCnt - 1, rdy := r, answers := rest, busLog := s.busLog ++ [.read s.busAddr 1],
        drawCount := s.drawCount + drawsTaken d 1,
        state := (if r then FsmState.readingAck else FsmState.pollingAck).code })
  | readsAck (hq : s.quiet) (h : s.isIn .readingAck) (d : List Byte) (rest : List (List Byte))
      (ha : s.answers = d :: rest) (ok : Bool)
      (ht : t = { s with
        ackOk := ok, answers := rest, busLog := s.busLog ++ [.read s.busAddr (ackReadCount s.params)],
        drawCount := s.drawCount + drawsTaken d (ackReadCount s.params),
        state := (if ok then FsmState.acked else FsmState.notAcked).code })
  | acked (hq : s.quiet) (h : s.isIn .acked) (ht : t = s.completeSend true .none)
  | notAcked (hq : s.quiet) (h : s.isIn .notAcked) (ht : t = s.completeSend false .ackMismatch)
  | timeout (hq : s.quiet) (h : s.isIn .timeout) (ht : t = s.completeSend false .timeoutAck)
  | respTimesOut (hq : s.quiet) (h : s.isIn .pollingResp) (h0 : s.attCnt = 0) (ht : t = responseTimeout s)
  | pollsResp (hq : s.quiet) (h : s.isIn .pollingResp) (h0 : s.attCnt ≠ 0) (d : List Byte) (rest : List (List Byte))
      (ha : s.answers = d :: rest) (r : Bool)
      (ht : t = { s with
        attCnt := s.attCnt - 1, rdy := r, answers := rest, busLog := s.busLog ++ [.read s.busAddr 1],
        drawCount := s.drawCount + drawsTaken d 1, timedOut := if r then false else s.timedOut,
        state := (if r then FsmState.readingResponse else FsmState.pollingResp).code })
  | readsResponse (hq : s.quiet) (h : s.isIn .readingResponse) (d : List Byte) (rest : List (List Byte))
      (ha : s.answers = d :: rest) (hc : s.curLen.toNat ≤ s.curBuf.cap) (len lcs tfi dcs rem sum : Byte)
      (hok dok : Bool) (m : Memory) (k : Nat) (hm : s.mem.wf = true → m.wf = true)
      (hr : s.mem.wf = true → ∀ a, (a < s.curBuf.base ∨ s.curBuf.base + s.curLen.toNat ≤ a) →
        Memory.read m a = Memory.read s.mem a)
      (ht : t = { s with
        rxLen := len, rxLcs := lcs, rxTfi := tfi, rxDcs := dcs, hdrOk := hok, remaining := rem, sumAcc := sum,
        dcsOk := dok, answers := rest,
        busLog := s.busLog ++ [.read s.busAddr (replyReadCount s.params s.curLen.toNat)], mem := m, drawCount := k,
        state := (if hok && dok then FsmState.valid else FsmState.invalid).code })
  | valid (hq : s.quiet) (h : s.isIn .valid) (ht : t = s.completeReceive s.curLen .none)
  | invalid (hq : s.quiet) (h : s.isIn .invalid) (ht : t = s.completeReceive 0x00 (receiveError s))

/-- The request decoder gives a request only (R77). -/
theorem decodeRequest_ok {w : BitVec 24} {i : Instr} (h : decodeRequest w = .ok i) :
    (∃ c l, i = .sendCommand c l) ∨ ∃ l, i = .receiveResponse l := by
  unfold decodeRequest at h
  split at h
  · split at h
    · cases h; exact .inl ⟨_, _, rfl⟩
    · cases h
  · split at h
    · split at h
      · split at h
        · cases h; exact .inr ⟨_, rfl⟩
        · cases h
      · cases h
    · split at h <;> cases h

/-- One iteration of an answered poll, its status byte abstracted (R96). -/
theorem pollOnce_answered (s : State) (h0 : s.attCnt ≠ 0) (d : List Byte) (rest : List (List Byte))
    (ha : s.answers = d :: rest) :
    ∃ r, pollOnce s = (if r then .ready else .again, { s with
      attCnt := s.attCnt - 1, rdy := r, answers := rest, busLog := s.busLog ++ [.read s.busAddr 1],
      drawCount := s.drawCount + drawsTaken d 1 }) :=
  ⟨_, pollOnce_cons s h0 d rest ha⟩

theorem pollingAck_case {s t : State} (hq : s.quiet) (h : s.isIn .pollingAck)
    (hs : sendStep .pollingAck s = .next t) : StepCase s t := by
  simp only [sendStep, Host.Outcome.next.injEq] at hs
  subst hs
  by_cases h0 : s.attCnt = 0
  · exact .ackTimesOut hq h h0 (by simp only [pollOnce_zero s h0, pollExit])
  · rcases ha : s.answers with _ | ⟨d, rest⟩
    · exact .waits hq.1 ⟨hq.2, .inr ⟨ha, .inr (.inr (.inr ⟨.inl h, h0⟩))⟩⟩ (by simp only [pollOnce_nil s h0 ha, pollExit])
    · obtain ⟨r, hp⟩ := pollOnce_answered s h0 d rest ha
      refine .pollsAck hq h h0 d rest ha r ?_
      rw [hp]
      cases r
      · simp [pollExit, show s.state = FsmState.pollingAck.code from h]
      · rfl

theorem pollingResp_case {s t : State} (hq : s.quiet) (h : s.isIn .pollingResp)
    (hs : receiveStep .pollingResp s = .next t) : StepCase s t := by
  simp only [receiveStep, Host.Outcome.next.injEq] at hs
  subst hs
  by_cases h0 : s.attCnt = 0
  · exact .respTimesOut hq h h0 (by simp only [pollOnce_zero s h0, pollExit])
  · rcases ha : s.answers with _ | ⟨d, rest⟩
    · exact .waits hq.1 ⟨hq.2, .inr ⟨ha, .inr (.inr (.inr ⟨.inr h, h0⟩))⟩⟩ (by simp only [pollOnce_nil s h0 ha, pollExit])
    · obtain ⟨r, hp⟩ := pollOnce_answered s h0 d rest ha
      refine .pollsResp hq h h0 d rest ha r ?_
      rw [hp]
      cases r
      · simp [pollExit, show s.state = FsmState.pollingResp.code from h]
      · rfl

theorem readingAck_case {s t : State} (hq : s.quiet) (h : s.isIn .readingAck)
    (hs : sendStep .readingAck s = .next t) : StepCase s t := by
  simp only [sendStep] at hs
  rcases ha : s.answers with _ | ⟨d, rest⟩
  · rw [readAckOp_nil s ha] at hs
    cases hs
    exact .waits hq.1 ⟨hq.2, .inr ⟨ha, .inr (.inl h)⟩⟩ rfl
  · have e := readAckOp_cons s d rest ha
    generalize ackOkOf s.params _ = ok at *
    rw [e] at hs
    simp only [finish, Host.Outcome.next.injEq, State.setAckOk_ackOk] at hs
    subst hs
    refine .readsAck hq h d rest ha ok ?_
    cases ok <;> simp [State.goto, State.setAckOk, State.logTxn, State.advanceDraws, State.setAnswers]

theorem readingResponse_case {s t : State} (hq : s.quiet) (h : s.isIn .readingResponse)
    (hs : receiveStep .readingResponse s = .next t) : StepCase s t := by
  simp only [receiveStep] at hs
  rcases ha : s.answers with _ | ⟨d, rest⟩
  · rw [readResponseOp_nil s ha] at hs
    cases hs
    exact .waits hq.1 ⟨hq.2, .inr ⟨ha, .inr (.inr (.inl h))⟩⟩ rfl
  · by_cases hc : s.curLen.toNat ≤ s.curBuf.cap
    · obtain ⟨m, k, h1, h2, h3, _⟩ := readResponseOp_spec s d rest ha hc rfl rfl rfl
      rw [h1] at hs
      generalize hdrOkOf _ _ = hok at *
      generalize footerSum _ _ _ _ = sum at *
      generalize remainingOf _ = rem at *
      generalize byteAt _ 3 = len at *
      generalize byteAt _ 4 = lcs at *
      generalize byteAt _ 5 = tfi at *
      generalize byteAt _ _ = dcs at *
      simp only [finish, Host.Outcome.next.injEq] at hs
      subst hs
      exact .readsResponse hq h d rest ha hc len lcs tfi dcs rem sum hok (dcsOkOf sum) m _ h2 h3 rfl
    · rw [readResponseOp_stuck s d rest ha hc] at hs
      cases hs

theorem sendStep_case {s t : State} {st : FsmState} (hq : s.quiet) (h : s.isIn st) (hi : st.inSend = true)
    (hs : sendStep st s = .next t) : StepCase s t := by
  cases st with
  | idle | pollingResp | readingResponse | valid | invalid => exact absurd hi (by decide)
  | encoding =>
    simp only [sendStep, encodeOp_eq] at hs
    split at hs
    · cases hs; exact .encoding hq h (by assumption) rfl
    · cases hs
  | transmitting =>
    simp only [sendStep] at hs
    rcases ha : s.answers with _ | ⟨d, rest⟩
    · rw [busWrite_nil s _ ha] at hs
      cases hs; exact .waits hq.1 ⟨hq.2, .inr ⟨ha, .inl h⟩⟩ rfl
    · rw [busWrite_cons s _ _ _ ha] at hs
      cases hs; exact .transmitting hq h d rest ha rfl
  | settling => cases hs; exact .settling hq h rfl
  | pollingAck => exact pollingAck_case hq h hs
  | readingAck => exact readingAck_case hq h hs
  | acked => cases hs; exact .acked hq h rfl
  | notAcked => cases hs; exact .notAcked hq h rfl
  | timeout => cases hs; exact .timeout hq h rfl

theorem receiveStep_case {s t : State} {st : FsmState} (hq : s.quiet) (h : s.isIn st) (hi : st.inReceive = true)
    (hs : receiveStep st s = .next t) : StepCase s t := by
  cases st with
  | idle | encoding | transmitting | settling | pollingAck | readingAck | acked | notAcked | timeout =>
    exact absurd hi (by decide)
  | pollingResp => exact pollingResp_case hq h hs
  | readingResponse => exact readingResponse_case hq h hs
  | valid => cases hs; exact .valid hq h rfl
  | invalid => cases hs; exact .invalid hq h rfl

theorem idle_case {s t : State} (hf : s.faultRecord = none) (h : s.isIn .idle) (hs : step s = .next t) :
    StepCase s t := by
  rw [step, fetch_idle hf h] at hs
  cases hv : s.reqValid
  · simp only [hv, Bool.false_eq_true, if_false] at hs
    cases hs
    exact .waits hf ⟨hv, .inl h⟩ rfl
  · simp only [hv, if_true, fetchRequest] at hs
    rcases hd : decodeRequest s.reqWord with e | i
    · rw [hd] at hs
      cases hs
      exact .illegalOp hf hv h e hd rfl
    · rw [hd] at hs
      rcases decodeRequest_ok hd with ⟨c, l, rfl⟩ | ⟨l, rfl⟩
      · simp only [exec, execSendCommand, ofCode_of_isIn h, acceptSend, Host.Outcome.next.injEq] at hs
        split at hs
        · exact .payloadLen hf hv h c l hd (by assumption) hs.symm
        · exact .acceptSend hf hv h c l hd (by omega) hs.symm
      · simp only [exec, execReceiveResponse, ofCode_of_isIn h, Host.Outcome.next.injEq] at hs
        exact .acceptReceive hf hv h l hd hs.symm

/-- Everything a step with a next state can be. -/
theorem step_case {s t : State} (hs : step s = .next t) : StepCase s t := by
  have hf : s.faultRecord = none := by
    rcases h : s.faultRecord with _ | f
    · rfl
    · simp [step, fetch, h] at hs
  rcases isIn_or_illegal s with ⟨st, h⟩ | h
  · by_cases hi : st = .idle
    · subst hi; exact idle_case hf h hs
    · cases hv : s.reqValid
      · cases hin : st.inSend
        · have hin' : st.inReceive = true := by cases st <;> simp_all [FsmState.inSend, FsmState.inReceive]
          exact receiveStep_case ⟨hf, hv⟩ h hin' (step_inReceive ⟨hf, hv⟩ h hin' ▸ hs)
        · exact sendStep_case ⟨hf, hv⟩ h hin (step_inSend ⟨hf, hv⟩ h hin ▸ hs)
      · rw [step, fetch_busy hf h hi, hv] at hs
        cases hs
        exact .busy hf hv st h hi rfl
  · rw [step, fetch, hf, (FsmState.ofCode_none_iff _).2 h] at hs
    cases hs
    exact .illegalState hf h rfl

/-! ## Runs -/

theorem run_zero (s : State) : Host.Core.run Sys2Proof.core 0 s = .next s := rfl

/-- A run of k + 1 steps is a step and a run of k. -/
theorem run_succ {s t : State} (k : Nat) (h : step s = .next t) :
    Host.Core.run Sys2Proof.core (k + 1) s = Host.Core.run Sys2Proof.core k t := by
  have key : ∀ (M : Host.Core) (s t : M.State), M.step s = .next t → M.run (k + 1) s = M.run k t := by
    intro M s t h
    simp only [Host.Core.run, h]
  exact key Sys2Proof.core s t h

/-- A run of a + b steps is a run of a and a run of b. -/
theorem run_add (a b : Nat) {s t : State} (h : Host.Core.run Sys2Proof.core a s = .next t) :
    Host.Core.run Sys2Proof.core (a + b) s = Host.Core.run Sys2Proof.core b t := by
  have key : ∀ (M : Host.Core) (a : Nat) (s t : M.State), M.run a s = .next t → M.run (a + b) s = M.run b t := by
    intro M a
    induction a with
    | zero =>
      intro s t h
      simp only [Host.Core.run] at h
      cases h
      rw [Nat.zero_add]
    | succ a ih =>
      intro s t h
      rw [show a + 1 + b = (a + b) + 1 by omega]
      simp only [Host.Core.run] at h ⊢
      split at h
      · exact ih _ _ h
      · cases h
      · cases h
  exact key Sys2Proof.core a s t h

end Sys2Proof.Machine
end

