-- ==== Sys2Proof/Laws/Exec.lean ====
section
/-!
SUPPORT. One principle for what no operation changes, and how two states that differ in unread registers run alike.
-/

namespace Sys2Proof.Machine

/-! ## What no operation changes -/

/-- What holds before a step and after each of its operation's completions holds after the step. -/
theorem finish_keeps {s t : State} {r : OpRun} {k : State → State} (P : State → Prop) (h : finish s r k = .next t)
    (hs : P s) (hd : ∀ u, r = .done u → P (k u)) : P t := by
  cases r with
  | held => cases h; exact hs
  | stuck f => cases h
  | done u => cases h; exact hd u rfl

/-- A property that depends on the fault record, `bus_addr` and the parameters only, and that a recorded fault keeps, is kept
by every operation. -/
theorem exec_keeps (P : State → Prop) (hraise : ∀ s f, P s → P (s.raise f))
    (hsame : ∀ s t : State, P s → t.faultRecord = s.faultRecord → t.busAddr = s.busAddr → t.params = s.params → P t) :
    ∀ (i : Instr) (s t : State), P s → exec i s = .next t → P t := by
  intro i s t hP he
  have hpoll : ∀ s, P s → P (pollOnce s).2 := by
    intro s hP
    by_cases h0 : s.attCnt = 0
    · rw [pollOnce_zero s h0]; exact hP
    · rcases ha : s.answers with _ | ⟨d, rest⟩
      · rw [pollOnce_nil s h0 ha]; exact hP
      · rw [pollOnce_cons s h0 d rest ha]; exact hsame s _ hP rfl rfl rfl
  have hloop : ∀ n s, P s → P (pollLoop n s).2 := by
    intro n
    induction n with
    | zero => intro s h; exact h
    | succ n ih =>
      intro s h
      unfold pollLoop
      have := hpoll s h
      rcases hp : pollOnce s with ⟨r, u⟩
      rw [hp] at this
      cases r <;> simp only [] <;> first | exact ih u this | exact this
  have hstat : ∀ b, P (statusArrives b s) := by
    intro b
    unfold statusArrives
    split
    · exact hP
    · exact hsame s _ hP rfl rfl rfl
  have henc : ∀ u, encodeOp s = .done u → P u := by
    intro u h
    rw [encodeOp_eq] at h
    split at h
    · cases h; exact hsame s _ hP rfl rfl rfl
    · cases h
  have hwrite : ∀ f u, busWrite s f = .done u → P u := by
    intro f u h
    rcases ha : s.answers with _ | ⟨d, rest⟩
    · rw [busWrite_nil s f ha] at h; cases h
    · rw [busWrite_cons s f d rest ha] at h; cases h; exact hsame s _ hP rfl rfl rfl
  have hack : ∀ u, readAckOp s = .done u → P u := by
    intro u h
    rcases ha : s.answers with _ | ⟨d, rest⟩
    · rw [readAckOp_nil s ha] at h; cases h
    · rw [readAckOp_cons s d rest ha] at h
      generalize ackOkOf _ _ = ok at h
      simp only [OpRun.done.injEq] at h
      subst h
      exact hsame s _ hP rfl rfl rfl
  have hparse : ∀ (s : State) f u, P s → parseReply f s = .done u → P u := by
    intro s f u hP h
    rw [parseReply_eq] at h
    split at h
    · cases h
      generalize replyData f _ = d
      unfold deliverReply
      split <;> refine hsame s _ hP ?_ ?_ ?_ <;>
        simp [checkReply, verifyFooterOp, decodeHeaderOp, scrubDestination, bufWrites]
    · cases h
  have hresp : ∀ u, readResponseOp s = .done u → P u := by
    intro u h
    rcases ha : s.answers with _ | ⟨d, rest⟩
    · rw [readResponseOp_nil s ha] at h; cases h
    · rw [readResponseOp_cons s d rest ha] at h
      refine hparse _ _ _ ?_ h
      exact hsame s _ hP rfl rfl rfl
  have hgo : ∀ u st, P u → P (u.goto st) := fun u st h => hsame u _ h rfl rfl rfl
  cases i <;> simp only [exec] at he
  case sendCommand cmd len =>
    unfold execSendCommand at he
    split at he
    · cases he; exact hraise s _ hP
    · cases he
      unfold acceptSend
      split
      · exact hraise s _ hP
      · exact hsame s _ hP rfl rfl rfl
    · split at he
      · rename_i st _ _ _
        cases st <;> simp only [sendStep] at he
        case encoding => exact finish_keeps P he hP (fun u hu => hgo _ _ (henc u hu))
        case transmitting => exact finish_keeps P he hP (fun u hu => hgo _ _ (hwrite _ u hu))
        case readingAck => exact finish_keeps P he hP (fun u hu => hgo _ _ (hack u hu))
        case pollingAck =>
          cases he
          have := hpoll s hP
          unfold pollExit
          split <;> first | exact hgo _ _ this | exact this
        all_goals (cases he; first | exact hraise s _ hP | exact hsame s _ hP rfl rfl rfl)
      · cases he; exact hraise s _ hP
  case receiveResponse len =>
    unfold execReceiveResponse at he
    split at he
    · cases he; exact hraise s _ hP
    · cases he; exact hsame s _ hP rfl rfl rfl
    · split at he
      · rename_i st _ _ _
        cases st <;> simp only [receiveStep] at he
        case readingResponse => exact finish_keeps P he hP (fun u hu => hgo _ _ (hresp u hu))
        case pollingResp =>
          cases he
          have := hpoll s hP
          unfold pollExit
          split
          · exact hsame _ _ this rfl rfl rfl
          · unfold responseTimeout
            split <;> exact hsame _ _ this rfl rfl rfl
          · exact this
          · exact this
        all_goals (cases he; first | exact hraise s _ hP | exact hsame s _ hP rfl rfl rfl)
      · cases he; exact hraise s _ hP
  case encode => exact finish_keeps P he hP (fun u hu => henc u hu)
  case decodeHeader => cases he; exact hsame s _ hP rfl rfl rfl
  case verifyFooter => cases he; exact hsame s _ hP rfl rfl rfl
  case waitReady m => cases he; exact hloop _ _ (hsame s _ hP rfl rfl rfl)
  case readAck => exact finish_keeps P he hP (fun u hu => hack u hu)
  case readResponse => exact finish_keeps P he hP (fun u hu => hresp u hu)
  case wireAckFrame => cases he; exact hsame s _ hP rfl rfl rfl
  case wireFrameStart => cases he; exact hsame s _ hP rfl rfl rfl
  case wireNormalInformationFrame =>
    unfold execWireNormalInformationFrame at he
    split at he
    · exact finish_keeps P he hP (fun u hu => hparse (s.advanceDraws _) _ u (hsame s _ hP rfl rfl rfl) hu)
    · cases he; exact hsame s _ hP rfl rfl rfl
  case wireStatusReady => cases he; exact hstat _
  case wireStatusNotReady => cases he; exact hstat _

/-! ## Runs alike -/

/-- READ_ACK of two states in the same world reads the same and answers the same (R102). -/
theorem readAckOp_agree {s s' : State} (hw : SameWorld s s') (d : List Byte) (rest : List (List Byte))
    (ha : s.answers = d :: rest) :
    ∃ ok n log,
      readAckOp s = .done { s with ackOk := ok, answers := rest, busLog := log, drawCount := n } ∧
      readAckOp s' = .done { s' with ackOk := ok, answers := rest, busLog := log, drawCount := n } := by
  obtain ⟨_, _, _, _, _, w6, w7, _, w9, w10, w11⟩ := hw
  have e1 := readAckOp_cons s d rest ha
  have e2 := readAckOp_cons s' d rest (w6.trans ha)
  rw [w9, w10, show readBytes s' d (ackReadCount s.params) = readBytes s d (ackReadCount s.params) by
    simp [readBytes, w11]] at e2
  generalize ackOkOf s.params _ = ok at e1 e2
  generalize drawsTaken d _ = n at e1 e2
  generalize ackReadCount s.params = m at e1 e2
  refine ⟨ok, s.drawCount + n, s.busLog ++ [.read s.busAddr m], ?_, ?_⟩
  · rw [e1]; simp only [State.setAnswers, State.advanceDraws, State.logTxn, State.setAckOk]
  · rw [e2]; simp only [State.setAnswers, State.advanceDraws, State.logTxn, State.setAckOk, w7, w11]

/-- One poll of two states in the same world with the same count reads the same and answers the same (R96). -/
theorem pollOnce_agree {s s' : State} (hw : SameWorld s s') (hn : s'.attCnt = s.attCnt) (h0 : s.attCnt ≠ 0)
    (d : List Byte) (rest : List (List Byte)) (ha : s.answers = d :: rest) :
    ∃ r n log,
      pollOnce s = (if r then .ready else .again,
        { s with attCnt := s.attCnt - 1, rdy := r, answers := rest, busLog := log, drawCount := n }) ∧
      pollOnce s' = (if r then .ready else .again,
        { s' with attCnt := s.attCnt - 1, rdy := r, answers := rest, busLog := log, drawCount := n }) := by
  obtain ⟨_, _, _, _, _, w6, w7, _, _, w10, w11⟩ := hw
  have e1 := pollOnce_cons s h0 d rest ha
  have e2 := pollOnce_cons s' (by rw [hn]; exact h0) d rest (w6.trans ha)
  rw [show readBytes s' d 1 = readBytes s d 1 by simp [readBytes, w11]] at e2
  generalize statusRdy _ = r at e1 e2
  generalize drawsTaken d 1 = n at e1 e2
  refine ⟨r, s.drawCount + n, s.busLog ++ [.read s.busAddr 1], ?_, ?_⟩
  · rw [e1]; simp only [State.setAnswers, State.advanceDraws, State.logTxn, State.countAttempt]
  · rw [e2]; simp only [State.setAnswers, State.advanceDraws, State.logTxn, State.countAttempt, w7, w10, w11, hn]

/-- READ_RESPONSE of two states in the same world with the same length and buffer reads, checks and delivers the same
(R108). -/
theorem readResponseOp_agree {s s' : State} (hw : SameWorld s s') (hl : s'.curLen = s.curLen)
    (hb : s'.curBuf = s.curBuf) (d : List Byte) (rest : List (List Byte)) (ha : s.answers = d :: rest)
    (hc : s.curLen.toNat ≤ s.curBuf.cap) :
    ∃ len lcs tfi dcs rem sum hok dok m n log,
      readResponseOp s = .done { s with
        rxLen := len, rxLcs := lcs, rxTfi := tfi, rxDcs := dcs, hdrOk := hok, remaining := rem, sumAcc := sum,
        dcsOk := dok, answers := rest, busLog := log, mem := m, drawCount := n } ∧
      readResponseOp s' = .done { s' with
        rxLen := len, rxLcs := lcs, rxTfi := tfi, rxDcs := dcs, hdrOk := hok, remaining := rem, sumAcc := sum,
        dcsOk := dok, answers := rest, busLog := log, mem := m, drawCount := n } := by
  obtain ⟨_, _, _, _, _, w6, w7, w8, w9, w10, w11⟩ := hw
  have hbb : s'.curBuf.base = s.curBuf.base := by rw [hb]
  have e1 := readResponseOp_cons s d rest ha
  have e2 := readResponseOp_cons s' d rest (w6.trans ha)
  rw [w9, w10, hl, show ∀ n, readBytes s' d n = readBytes s d n by intro n; simp [readBytes, w11]] at e2
  generalize replyReadCount s.params s.curLen.toNat = m at e1 e2
  generalize List.drop _ _ = f at e1 e2
  generalize drawsTaken d _ = n at e1 e2
  rw [parseReply_eq, if_pos (by exact hc)] at e1
  rw [parseReply_eq, if_pos (by show s'.curLen.toNat ≤ s'.curBuf.cap; rw [hl, hb]; exact hc)] at e2
  simp only [State.logTxn_curLen, State.advanceDraws_curLen, State.setAnswers_curLen, hl] at e1 e2
  generalize replyData f _ = data at e1 e2
  generalize replyLen f = a1 at e1 e2
  generalize replyLcs f = a2 at e1 e2
  generalize replyTfi f = a3 at e1 e2
  generalize replyDcs f _ = a4 at e1 e2
  simp only [checkReply, verifyFooterOp, decodeHeaderOp, State.latchReply, State.setFooter, State.setHeader,
    State.setAnswers, State.advanceDraws, State.logTxn] at e1 e2
  by_cases hok : (hdrOkOf a1 a2 && dcsOkOf (footerSum a3 none data a4)) = true
  · rw [deliverReply_pass _ _ (by exact hok)] at e1 e2
    simp only [bufWrites, State.setMem] at e1 e2
    rw [hbb, w7, w8, w11] at e2
    exact ⟨a1, a2, a3, a4, _, _, _, _, _, _, _, e1, e2⟩
  · rw [deliverReply_fail _ _ (by exact hok)] at e1 e2
    simp only [scrubDestination, State.advanceDraws, bufWrites, State.setMem] at e1 e2
    rw [hbb, w7, w8, w11] at e2
    exact ⟨a1, a2, a3, a4, _, _, _, _, _, _, _, e1, e2⟩

end Sys2Proof.Machine
end

