-- ==== Sys2Proof/Laws/PerInstr.lean ====
section
/-!
SUPPORT. One statement for every operation: the encoding of a well-formed operation has the fixed bits and the fields that
its row of spec/opcode_table.json gives it.
-/

namespace Sys2Proof.Laws.TableRow

/-- The row's fixed bits, and its fields where the spec places them (30_encoding.md R64, R71, R73, R76, R77). -/
def Statement (i : Instr) : Prop :=
  i.WellFormed →
    match i with
    | .sendCommand cmd len =>
      ∃ w : BitVec 24, encode i = wordBytes w ∧ w &&& 0x0000FF = 0x000001 ∧ requestCmd w = cmd ∧ requestLen w = len
    | .receiveResponse len =>
      ∃ w : BitVec 24, encode i = wordBytes w ∧ w &&& 0x00FFFF = 0x000002 ∧ requestLen w = len
    | .encode => byteAt (encode i) 0 &&& 0x0F = 0x08
    | .decodeHeader => byteAt (encode i) 0 &&& 0x0F = 0x09
    | .verifyFooter _ _ _ _ => byteAt (encode i) 0 &&& 0x0F = 0x0A
    | .waitReady _ => byteAt (encode i) 0 &&& 0x0F = 0x0B
    | .readAck => byteAt (encode i) 0 &&& 0x0F = 0x0C
    | .readResponse => byteAt (encode i) 0 &&& 0x0F = 0x0D
    | .wireAckFrame a b => encode i = [0x00, 0x00, 0xFF, a, b, 0x00]
    | .wireFrameStart => encode i = [0x00, 0x00, 0xFF]
    | .wireNormalInformationFrame len lcs tfi cmd payload dcs =>
      encode i = [0x00, 0x00, 0xFF, len, lcs, tfi, cmd] ++ payload ++ [dcs, 0x00] ∧
        (encode i).length = payload.length + 9 ∧ len.toNat = payload.length + 2
    | .wireStatusReady rsv => byteAt (encode i) 0 &&& 0x01 = 0x01 ∧ statusRsv (byteAt (encode i) 0) = rsv
    | .wireStatusNotReady rsv => byteAt (encode i) 0 &&& 0x01 = 0x00 ∧ statusRsv (byteAt (encode i) 0) = rsv

theorem sendCommand (cmd len : Byte) : Statement (.sendCommand cmd len) := by
  intro _
  refine ⟨assembleRequest 0x1 cmd len, rfl, ?_, ?_, ?_⟩ <;>
  · apply BitVec.eq_of_getLsbD_eq
    intro i hi
    interval_cases i <;> simp [assembleRequest, requestCmd, requestLen]

theorem receiveResponse (len : Byte) : Statement (.receiveResponse len) := by
  intro _
  refine ⟨assembleRequest 0x2 0x00 len, rfl, ?_, ?_⟩ <;>
  · apply BitVec.eq_of_getLsbD_eq
    intro i hi
    interval_cases i <;> simp [assembleRequest, requestLen]

theorem encode : Statement .encode := fun _ => by decide

theorem decodeHeader : Statement .decodeHeader := fun _ => by decide

theorem verifyFooter (tfi : Byte) (cmd : Option Byte) (data : List Byte) (dcs : Byte) :
    Statement (.verifyFooter tfi cmd data dcs) := fun _ => by
  cases cmd <;> simp [Sys2Proof.encode, byteAt]

theorem waitReady (m : BitVec 16) : Statement (.waitReady m) := fun _ => by
  simp [Sys2Proof.encode, byteAt]

theorem readAck : Statement .readAck := fun _ => by decide

theorem readResponse : Statement .readResponse := fun _ => by decide

theorem wireAckFrame (a b : Byte) : Statement (.wireAckFrame a b) := fun _ => rfl

theorem wireFrameStart : Statement .wireFrameStart := fun _ => rfl

theorem wireNormalInformationFrame (len lcs tfi cmd : Byte) (payload : List Byte) (dcs : Byte) :
    Statement (.wireNormalInformationFrame len lcs tfi cmd payload dcs) := by
  intro h
  have hw : (payloadLengthFits payload && lenMatches len payload && lcsMatches len lcs &&
    dcsMatches tfi cmd payload dcs) = true := h
  simp only [Bool.and_eq_true, lenMatches, beq_iff_eq] at hw
  exact ⟨rfl, by simp [Sys2Proof.encode, Machine.frameStart], hw.1.1.2⟩

theorem wireStatusReady (rsv : BitVec 7) : Statement (.wireStatusReady rsv) := fun _ => by
  revert rsv; decide

theorem wireStatusNotReady (rsv : BitVec 7) : Statement (.wireStatusNotReady rsv) := fun _ => by
  revert rsv; decide

end Sys2Proof.Laws.TableRow
end

