-- ==== Sys2Proof/Tests/Slice0.lean ====
section
/-!
SUPPORT. Tests with expected results from spec/ (95_test_vectors.md and the encodings of 30_encoding.md), and for every
obligation with hypotheses a state and operands that meet them.
-/

open Sys2Proof Sys2Proof.Machine

/-! ## A small machine -/

/-- The parameters of the vectors: the default ACK pattern, no prefix, two attempts. -/
def testParams : Params where
  ackA3 := 0x00
  ackA4 := 0xFF
  ackPrefix := 0
  respPrefix := 0
  maxAttemptsAck := 2
  maxAttemptsResp := 2
  respTimeoutPolicy := .abort
  settle := 0
  addrW := 7
  busAddrBits := 0x24
  tfiP2H := 0xD5

/-- Reset, with those parameters. -/
def testState : State := { State.reset with params := testParams, busAddr := 0x24 }

/-- That core in an FSM state, with a latched request, and transport answers to come. -/
def testIn (st : FsmState) (cmd len : Byte) (buf : BufHandle) (answers : List (List Byte)) : State :=
  { testState with state := st.code, curCmd := cmd, curLen := len, curBuf := buf, answers := answers }

/-- An idle core with a request presented. -/
def testRequest (w : BitVec 24) (buf : BufHandle) (answers : List (List Byte)) : State :=
  { testState with reqValid := true, reqWord := w, reqBuf := buf, answers := answers }

/-- One value of the next state of an operation. -/
def afterExec {α : Type} (i : Instr) (s : State) (f : State → α) : Option α := (nextState (exec i s)).map f

/-- One value of the next state of a step. -/
def afterStep {α : Type} (s : State) (f : State → α) : Option α := (nextState (step s)).map f

/-- The base reply of vector RR-1. -/
def replyRR1 : List Byte := [0x00, 0x00, 0xFF, 0x06, 0xFA, 0xD5, 0x03, 0x32, 0x01, 0x06, 0x07, 0xE8, 0x00]

/-! ## WellFormed refuses an ill-formed term of each kind -/

theorem test_wf_accepts_the_frame_of_W1 : (Instr.wireNormalInformationFrame 0x02 0xFE 0xD4 0x02 [] 0x2A).WellFormed := by
  decide

theorem test_wf_refuses_256_data_bytes :
    dataLengthFits (List.replicate 256 0) = false ∧ ¬ (Instr.verifyFooter 0 none (List.replicate 256 0) 0).WellFormed := by
  simp only [dataLengthFits, Instr.WellFormed, Instr.wellFormed, List.length_replicate]
  decide

theorem test_wf_refuses_254_payload_bytes :
    payloadLengthFits (List.replicate 254 0) = false ∧
    ¬ (Instr.wireNormalInformationFrame 0x00 0x00 0xD4 0x02 (List.replicate 254 0) 0x2A).WellFormed := by
  have h : payloadLengthFits (List.replicate 254 0) = false := by
    simp only [payloadLengthFits, maxPayload, List.length_replicate]
    decide
  exact ⟨h, by simp only [Instr.WellFormed, Instr.wellFormed, h, Bool.false_and, Bool.false_eq_true, not_false_eq_true]⟩

theorem test_wf_refuses_a_wrong_len : ¬ (Instr.wireNormalInformationFrame 0x03 0xFD 0xD4 0x02 [] 0x2A).WellFormed := by
  decide

theorem test_wf_refuses_a_wrong_lcs : ¬ (Instr.wireNormalInformationFrame 0x02 0xFD 0xD4 0x02 [] 0x2A).WellFormed := by
  decide

theorem test_wf_refuses_a_wrong_dcs : ¬ (Instr.wireNormalInformationFrame 0x02 0xFE 0xD4 0x02 [] 0x2B).WellFormed := by
  decide

/-! ## Words written out from the spec's encodings -/

/-- R76: op 3:0, rsv 7:4, cmd 15:8, len 23:16 (vectors RW-2 and RW-3). -/
theorem test_decode_sendCommand :
    decodeRequest 0x020601 = .ok (.sendCommand 0x06 0x02) ∧ decodeRequest 0xFD4001 = .ok (.sendCommand 0x40 0xFD) := by decide

/-- Vector RW-7. -/
theorem test_decode_receiveResponse : decodeRequest 0xFF0002 = .ok (.receiveResponse 0xFF) := by decide

/-- R77: the op codes of the internal operations. -/
theorem test_decode_internal :
    decode .internal [0x08] = .ok (.encode, []) ∧ decode .internal [0x09] = .ok (.decodeHeader, []) ∧
    decode .internal [0x0C] = .ok (.readAck, []) ∧ decode .internal [0x0D] = .ok (.readResponse, []) ∧
    decode .internal [0x0B, 0xFF, 0x00] = .ok (.waitReady 255, []) := by decide

/-- Vectors VF-2 and VF-8, in the model's operand layout (log entry 14). -/
theorem test_decode_verifyFooter :
    decode .internal [0x0A, 0xD4, 0x01, 0x02, 0x2A, 0x00] = .ok (.verifyFooter 0xD4 (some 0x02) [] 0x2A, []) ∧
    decode .internal [0x0A, 0xD5, 0x00, 0x00, 0x7A, 0x02, 0x07, 0xAA] =
      .ok (.verifyFooter 0xD5 none [0x07, 0xAA] 0x7A, []) := by decide

/-- R71. -/
theorem test_decode_wireAckFrame :
    decode .ack [0x00, 0x00, 0xFF, 0x00, 0xFF, 0x00] = .ok (.wireAckFrame 0x00 0xFF, []) := by decide

/-- R64. -/
theorem test_decode_wireFrameStart : decode .frameStart [0x00, 0x00, 0xFF] = .ok (.wireFrameStart, []) := by decide

/-- R64, vector EN-2. -/
theorem test_decode_wireNormalInformationFrame :
    decode .frame [0x00, 0x00, 0xFF, 0x04, 0xFC, 0xD4, 0x06, 0x63, 0x3D, 0x86, 0x00] =
      .ok (.wireNormalInformationFrame 0x04 0xFC 0xD4 0x06 [0x63, 0x3D] 0x86, []) := by decide

/-- R73: bit 0 alone decides; the bytes of vector WR-7. -/
theorem test_decode_wireStatus :
    decodeStatus 0x80 = .wireStatusNotReady 0x40 ∧ decodeStatus 0xFF = .wireStatusReady 0x7F := by decide

/-- R77, R78: vectors RW-8 to RW-12 and RW-14. -/
theorem test_decode_refuses_by_name :
    decodeRequest 0x000000 = .error .reservedOp ∧ decodeRequest 0x000003 = .error .reservedOp ∧
    decodeRequest 0x000008 = .error .internalOp ∧ decodeRequest 0x000011 = .error .reservedBits ∧
    decodeRequest 0x050102 = .error .cmdNotZero ∧ decodeRequest 0xFE0011 = .error .reservedBits := by decide

/-- Bytes that are no pattern (R64, R71). -/
theorem test_decode_refuses_patterns :
    decode .ack [0x00, 0x00, 0xFF, 0x00, 0xFF, 0x01] = .error .notThePattern ∧
    decode .frameStart [0x00, 0xFF, 0x00] = .error .notThePattern ∧
    decode .frame [0x00, 0x00, 0xFF, 0x01, 0xFF, 0xD5, 0x2B, 0x00] = .error .lenTooSmall := by decide

/-! ## The checksum (vectors AR-1 to AR-7) -/

theorem test_neg8 :
    neg8 0x00 = 0x00 ∧ neg8 0x01 = 0xFF ∧ neg8 0x02 = 0xFE ∧ neg8 0x80 = 0x80 ∧ neg8 0xD6 = 0x2A ∧ neg8 0xFF = 0x01 ∧
    neg8 0x4D0 = 0x30 := by decide

/-! ## One step of each operation -/

/-- Vector RW-1: accepted, to ENCODING. -/
theorem test_send_accepted :
    afterStep (testRequest 0x000201 ⟨0, 0⟩ []) (fun t => (t.state, t.curCmd, t.curLen)) = some (0x1, 0x02, 0x00) := by decide

/-- Vector RW-4: F_PAYLOAD_LEN, and the core stays idle. -/
theorem test_send_payload_len :
    afterStep (testRequest 0xFE0001 ⟨0, 0⟩ []) (fun t => (t.state, t.faultRecord)) = some (0x0, some .payloadLen) := by decide

/-- Vector RW-5: accepted, to POLLING_RESP with the attempts loaded. -/
theorem test_receive_accepted :
    afterStep (testRequest 0x050002 ⟨0, 5⟩ []) (fun t => (t.state, t.attCnt, t.curLen)) = some (0x9, 2, 0x05) := by decide

/-- R128: no attempt left under ABORT. -/
theorem test_receive_timeout :
    afterStep (testIn .pollingResp 0x00 0x05 ⟨0, 5⟩ []) (fun t => (t.state, t.timedOut)) = some (0xC, true) := by decide

/-- Vector EN-1, worked example W-1. -/
theorem test_encode_getFirmwareVersion :
    afterExec .encode (testIn .encoding 0x02 0x00 ⟨0, 0⟩ []) State.txFrame =
      some [0x00, 0x00, 0xFF, 0x02, 0xFE, 0xD4, 0x02, 0x2A, 0x00] := by decide

/-- Vector EN-5: the sum wraps. -/
theorem test_encode_wraps :
    afterExec .encode { testIn .encoding 0xFF 0x03 ⟨4, 3⟩ [] with mem := [(4, 0xFF), (5, 0xFF), (6, 0xFF)] } State.txFrame =
      some [0x00, 0x00, 0xFF, 0x05, 0xFB, 0xD4, 0xFF, 0xFF, 0xFF, 0xFF, 0x30, 0x00] := by decide

/-- Vectors DH-1 and DH-2, worked example W-2. -/
theorem test_decodeHeader_W2 :
    afterExec .decodeHeader { testState with rxLen := 0x03, rxLcs := 0xFD } (fun t => (t.hdrOk, t.remaining)) =
      some (true, 0x02) ∧
    afterExec .decodeHeader { testState with rxLen := 0x03, rxLcs := 0xFC } (fun t => (t.hdrOk, t.remaining)) =
      some (false, 0x02) := by decide

/-- Vector DH-6: `remaining` wraps. -/
theorem test_decodeHeader_wraps :
    afterExec .decodeHeader testState (fun t => (t.hdrOk, t.remaining)) = some (true, 0xFF) := by decide

/-- Vectors VF-1 and VF-4. -/
theorem test_verifyFooter_skip :
    afterExec (.verifyFooter 0xD5 none [0x03, 0x32, 0x01, 0x06, 0x07] 0xE8) testState (fun t => (t.sumAcc, t.dcsOk)) =
      some (0x00, true) ∧
    afterExec (.verifyFooter 0xD5 none [0x03, 0x32, 0x01, 0x06, 0x07] 0xE9) testState (fun t => (t.sumAcc, t.dcsOk)) =
      some (0x01, false) := by decide

/-- Vector VF-6. -/
theorem test_verifyFooter_cmd :
    afterExec (.verifyFooter 0xD4 (some 0xFF) [0xFF, 0xFF, 0xFF] 0x30) testState (fun t => (t.sumAcc, t.dcsOk)) =
      some (0x00, true) := by decide

/-- Vector WR-7: bits 7:1 are ignored, and only two bytes are read. -/
theorem test_waitReady_ready :
    afterExec (.waitReady 4) { testState with answers := [[0x80], [0xFF], [0x01]] }
      (fun t => (t.attCnt, t.rdy, t.answers)) = some (2, true, [[0x01]]) := by decide

/-- Vector WR-6. -/
theorem test_waitReady_not_ready :
    afterExec (.waitReady 2) { testState with answers := [[0xFE], [0xFE]] } (fun t => (t.attCnt, t.rdy)) =
      some (0, false) := by decide

/-- Vectors AK-1 and AK-4. -/
theorem test_readAck_pattern :
    afterExec .readAck { testState with answers := [[0x00, 0x00, 0xFF, 0x00, 0xFF, 0x00]] } State.ackOk = some true ∧
    afterExec .readAck { testState with answers := [[0x00, 0x00, 0xFF, 0x00, 0xFF, 0x01]] } State.ackOk = some false := by
  decide

/-- Vector AK-6: a prefix with RDY = 0 is ignored. -/
theorem test_readAck_prefix :
    afterExec .readAck
      { testState with
        params := { testParams with ackPrefix := 1 }, answers := [[0xFE, 0x00, 0x00, 0xFF, 0x00, 0xFF, 0x00]] }
      State.ackOk = some true := by decide

/-- Vector RR-1. -/
theorem test_readResponse_delivers :
    afterExec .readResponse (testIn .readingResponse 0x00 0x05 ⟨8, 5⟩ [replyRR1])
      (fun t => (t.hdrOk, t.remaining, t.dcsOk, replyCount t, (List.range 5).map fun k => Memory.read t.mem (8 + k))) =
      some (true, 0x05, true, 0x05, [0x03, 0x32, 0x01, 0x06, 0x07]) := by decide

/-- Vector RR-16: req below LEN - 1. -/
theorem test_readResponse_short_request :
    afterExec .readResponse (testIn .readingResponse 0x00 0x04 ⟨8, 4⟩ [replyRR1])
      (fun t => (t.hdrOk, t.sumAcc, t.dcsOk, replyCount t)) = some (true, 0x18, false, 0x00) := by decide

/-- R102: the default pattern and the NACK of vector AK-3. -/
theorem test_wireAckFrame :
    afterExec (.wireAckFrame 0x00 0xFF) testState State.ackOk = some true ∧
    afterExec (.wireAckFrame 0xFF 0x00) testState State.ackOk = some false := by decide

/-- R87: the constant bytes of the frame. -/
theorem test_wireFrameStart :
    afterExec .wireFrameStart { testState with txFrame := [0x11, 0x22, 0x33, 0x44] } State.txFrame =
      some [0x00, 0x00, 0xFF, 0x44] := by decide

/-- Vector EN-2. -/
theorem test_wireNormalInformationFrame_laid :
    afterExec (.wireNormalInformationFrame 0x04 0xFC 0xD4 0x06 [0x63, 0x3D] 0x86) testState State.txFrame =
      some [0x00, 0x00, 0xFF, 0x04, 0xFC, 0xD4, 0x06, 0x63, 0x3D, 0x86, 0x00] := by decide

/-- Vector RR-4. -/
theorem test_wireNormalInformationFrame_parsed :
    afterExec (.wireNormalInformationFrame 0x03 0xFD 0xD5 0x07 [0xAA] 0x7A) (testIn .readingResponse 0x00 0x02 ⟨0, 2⟩ [])
      (fun t => (replyCount t, Memory.read t.mem 0, Memory.read t.mem 1)) = some (0x02, 0x07, 0xAA) := by decide

/-- R96: an attempt is counted, RDY latched. -/
theorem test_wireStatus :
    afterExec (.wireStatusReady 0x00) { testState with attCnt := 1 } (fun t => (t.attCnt, t.rdy)) = some (0, true) ∧
    afterExec (.wireStatusNotReady 0x7F) { testState with attCnt := 2, rdy := true } (fun t => (t.attCnt, t.rdy)) =
      some (1, false) := by decide

/-! ## Witnesses: for each obligation with hypotheses, states and operands that meet them -/

/-- A SEND_COMMAND in progress in an FSM state, with one payload byte, RDY = 0 and ready answers ahead. -/
def sendingIn (st : FsmState) : State := { testIn st 0x06 0x01 ⟨16, 1⟩ [[0x01]] with curOp := 0x1, attCnt := 1 }

/-- A RECEIVE_RESPONSE of five bytes in progress in an FSM state, with the base reply ahead. -/
def receivingIn (st : FsmState) : State := { testIn st 0x00 0x05 ⟨16, 5⟩ [replyRR1] with curOp := 0x2, attCnt := 1 }

/-- An ACK, as the transport delivers it. -/
def ackBytes : List Byte := [0x00, 0x00, 0xFF, 0x00, 0xFF, 0x00]

theorem witness_DecodeOfEncode :
    (Instr.wireNormalInformationFrame 0x04 0xFC 0xD4 0x06 [0x63, 0x3D] 0x86).WellFormed ∧
    (Instr.verifyFooter 0xD4 (some 0xFF) [0xAA] 0x58).WellFormed ∧ (Instr.waitReady 0xFFFF).WellFormed := by decide

theorem witness_OnlyTheEncodingDecodes :
    Port.status ≠ Port.internal ∧ decode .status [0xFE, 0x55] = .ok (.wireStatusNotReady 0x7F, [0x55]) ∧
    decode .request [0x01, 0x40, 0xFD] = .ok (.sendCommand 0x40 0xFD, []) := by decide

theorem witness_RequestWordLegality :
    (requestOp 0x000000 ≠ 0x1 ∧ requestOp 0x000000 ≠ 0x2) ∧ (requestOp 0x000011 = 0x1 ∧ requestRsv 0x000011 ≠ 0x0) ∧
    (requestOp 0x050102 = 0x2 ∧ requestRsv 0x050102 = 0x0 ∧ requestCmd 0x050102 ≠ 0x00) ∧
    (requestOp 0xFE0001 = 0x1 ∧ requestRsv 0xFE0001 = 0x0) := by decide

theorem witness_StepRunsTheDecodedRequest :
    (let s := testRequest 0xFD4001 ⟨0, 253⟩ []
     s.faultRecord = none ∧ s.isIn .idle ∧ s.reqValid = true ∧ decodeRequest s.reqWord = .ok (.sendCommand 0x40 0xFD)) ∧
    ((sendingIn .encoding).sending ∧ (sendingIn .timeout).sending ∧ (sendingIn .encoding).reqValid = false ∧
      (sendingIn .encoding).faultRecord = none) ∧
    ((receivingIn .pollingResp).inReply ∧ (receivingIn .invalid).inReply ∧ (receivingIn .invalid).reqValid = false ∧
      (receivingIn .invalid).faultRecord = none) := by decide

theorem witness_StepRunsTheSubBlock_encoding :
    (sendingIn .encoding).quiet ∧ (sendingIn .encoding).isIn .encoding ∧
    ∃ t, exec .encode (sendingIn .encoding) = .next t := ⟨by decide, by decide, _, rfl⟩

theorem witness_StepRunsTheSubBlock_readingAck :
    (sendingIn .readingAck).quiet ∧ (sendingIn .readingAck).isIn .readingAck ∧ (sendingIn .readingAck).answers ≠ [] ∧
    ∃ t, exec .readAck (sendingIn .readingAck) = .next t := ⟨by decide, by decide, by decide, _, rfl⟩

theorem witness_StepRunsTheSubBlock_readingResponse :
    (receivingIn .readingResponse).quiet ∧ (receivingIn .readingResponse).isIn .readingResponse ∧
    (receivingIn .readingResponse).answers ≠ [] ∧
    ∃ t, exec .readResponse (receivingIn .readingResponse) = .next t := ⟨by decide, by decide, by decide, _, rfl⟩

theorem witness_StepRunsTheSubBlock_stuck :
    (let s := { sendingIn .encoding with curBuf := ⟨16, 0⟩ }
     s.quiet ∧ s.isIn .encoding ∧ exec .encode s = .fault .stuckBufRead) ∧
    (let s := { receivingIn .readingResponse with curBuf := ⟨16, 4⟩ }
     s.quiet ∧ s.isIn .readingResponse ∧ exec .readResponse s = .fault .stuckBufWrite) :=
  ⟨⟨by decide, by decide, rfl⟩, ⟨by decide, by decide, rfl⟩⟩

theorem witness_NoStepWithoutRequestOrAnswer :
    testState.faultRecord = none ∧ Waits testState ∧
    Waits { sendingIn .transmitting with answers := [] } ∧ Waits { sendingIn .pollingAck with answers := [] } ∧
    Waits { sendingIn .readingAck with answers := [] } ∧ Waits { receivingIn .pollingResp with answers := [] } ∧
    Waits { receivingIn .readingResponse with answers := [] } := by
  refine ⟨rfl, ?_, ?_, ?_, ?_, ?_, ?_⟩ <;> unfold Waits <;> decide

theorem witness_UnansweredOperationsHold :
    testState.answers = [] ∧
    (let s := { sendingIn .pollingAck with answers := [] }
     s.answers = [] ∧ s.isIn .pollingAck ∧ s.attCnt ≠ 0) ∧
    (let s := { receivingIn .pollingResp with answers := [] }
     s.answers = [] ∧ s.isIn .pollingResp ∧ s.attCnt ≠ 0) ∧
    (let s := { receivingIn .readingResponse with answers := [] }
     s.answers = [] ∧ s.isIn .readingResponse) := by decide

theorem witness_StepFollowsTheTransitionTable :
    ∃ t, step (sendingIn .pollingAck) = .next t ∧ (sendingIn .pollingAck).reqValid = false ∧
      (sendingIn .pollingAck).isIn .pollingAck ∧ t.isIn .readingAck := ⟨_, rfl, rfl, rfl, rfl⟩

theorem witness_EveryStepKeepsTheInvariant :
    (sendingIn .settling).Inv ∧ (receivingIn .readingResponse).Inv ∧
    (∃ t, step (sendingIn .settling) = .next t) ∧ ∃ t, step (receivingIn .readingResponse) = .next t :=
  ⟨by decide, by decide, ⟨_, rfl⟩, ⟨_, rfl⟩⟩

theorem witness_ResetEstablishesTheInvariant : MemoryInv { testState with mem := [(3, 0x10), (4, 0x20)] } := by decide

theorem witness_SendCommandIsAccepted : testState.isIn .idle ∧ (253 : Byte).toNat ≤ 253 := by decide

theorem witness_ReceiveResponseIsAccepted : testState.isIn .idle := by decide

theorem witness_RequestViolationsChangeNoRegister :
    (let s := testRequest 0x000000 ⟨0, 0⟩ []
     s.faultRecord = none ∧ s.reqValid = true ∧ s.isIn .idle ∧ decodeRequest s.reqWord = .error .reservedOp) ∧
    (let s := testRequest 0xFE0001 ⟨0, 0⟩ []
     s.isIn .idle ∧ decodeRequest s.reqWord = .ok (.sendCommand 0x00 254) ∧ 253 < (254 : Byte).toNat) ∧
    (let s := { sendingIn .timeout with reqValid := true }
     s.faultRecord = none ∧ s.reqValid = true ∧ s.sending) ∧
    (let s := { receivingIn .pollingResp with reqValid := true }
     s.reqValid = true ∧ s.inReply) := by decide

theorem witness_OtherRequestsAreViolations :
    (let s := sendingIn .encoding
     s.sending ∧ ¬ (s.curCmd = 0x07 ∧ s.curLen = 0x01)) ∧
    ((receivingIn .invalid).inReply ∧ (receivingIn .invalid).curLen ≠ 0x04) ∧
    (testState.isIn .idle ∧ 253 < (254 : Byte).toNat) ∧
    0xD ≤ ({ testState with state := 0xD } : State).state.toNat := by decide

theorem witness_IllegalStateCodeIsAFault :
    (let s := { testState with state := 0xD }
     s.faultRecord = none ∧ 0xD ≤ s.state.toNat) ∧
    (let s := { testState with state := 0xF }
     s.faultRecord = none ∧ 0xD ≤ s.state.toNat) := by decide

theorem witness_FaultRecordIsSticky :
    let s := { testState with faultRecord := some .busy }
    s.faultRecord = some .busy ∧ ∃ t, exec .decodeHeader s = .next t := ⟨rfl, _, rfl⟩

theorem witness_EncodeBuildsTheFrame :
    (let s := testIn .encoding 0x40 253 ⟨0, 253⟩ []
     s.curLen.toNat ≤ s.curBuf.cap) ∧
    (let s := testIn .encoding 0x40 253 ⟨0, 252⟩ []
     s.curBuf.cap < s.curLen.toNat) := by decide

theorem witness_EncodedFrameChecksums :
    let s := testIn .encoding 0x40 253 ⟨0, 253⟩ []
    s.curLen.toNat ≤ 253 ∧ s.curLen.toNat ≤ s.curBuf.cap := by decide

theorem witness_EncodedFramePassesVerifyFooter :
    let s := testIn .encoding 0xFF 0 ⟨0, 0⟩ []
    s.curLen.toNat ≤ 253 ∧ s.curLen.toNat ≤ s.curBuf.cap := by decide

/-- The bound reached, the bound not reached with one answer only, and the zero bound. -/
theorem witness_WaitReadyReadsUntilReady :
    (let s := { testState with answers := [[0x80], [0xFE]] }
     ((statusBytes s.drawCount s.answers).takeWhile fun b => !b.getLsbD 0).length + 1 = 3 ∧ min 3 2 ≤ s.answers.length) ∧
    (let s := { testState with answers := [[0xFF]] }
     ((statusBytes s.drawCount s.answers).takeWhile fun b => !b.getLsbD 0).length + 1 = 1 ∧
     min 1 (65535 : BitVec 16).toNat ≤ s.answers.length) ∧
    min 1 (0 : BitVec 16).toNat ≤ testState.answers.length := by decide

theorem witness_PollingAckStep :
    (let s := { sendingIn .pollingAck with attCnt := 0 }
     s.quiet ∧ s.isIn .pollingAck ∧ s.attCnt = 0) ∧
    (let s := sendingIn .pollingAck
     s.quiet ∧ s.isIn .pollingAck ∧ s.attCnt ≠ 0 ∧ s.answers = (0x01 :: []) :: []) ∧
    (let s := { sendingIn .pollingAck with answers := [[]] }
     s.quiet ∧ s.isIn .pollingAck ∧ s.attCnt ≠ 0 ∧ s.answers = [] :: []) := by decide

theorem witness_PollingRespStep :
    (let s := { receivingIn .pollingResp with attCnt := 0 }
     s.quiet ∧ s.isIn .pollingResp ∧ s.attCnt = 0 ∧ s.params.respTimeoutPolicy = .abort) ∧
    (let s := { receivingIn .pollingResp with attCnt := 0, params := { testParams with respTimeoutPolicy := .readAnyway } }
     s.quiet ∧ s.isIn .pollingResp ∧ s.attCnt = 0 ∧ s.params.respTimeoutPolicy = .readAnyway) ∧
    (let s := { receivingIn .pollingResp with answers := [[0xFE]] }
     s.quiet ∧ s.isIn .pollingResp ∧ s.attCnt ≠ 0 ∧ s.answers = (0xFE :: []) :: []) ∧
    (let s := { receivingIn .pollingResp with answers := [[]] }
     s.quiet ∧ s.isIn .pollingResp ∧ s.attCnt ≠ 0 ∧ s.answers = [] :: []) := by decide

/-- All seven bytes delivered, and one missing. -/
theorem witness_ReadAckMatchesThePattern :
    (let s := { testState with params := { testParams with ackPrefix := 1 }, answers := [0xFE :: ackBytes] }
     s.answers = (0xFE :: ackBytes) :: [] ∧ s.params.ackPrefix.val + 6 ≤ (0xFE :: ackBytes).length) ∧
    (let s := { testState with params := { testParams with ackPrefix := 1 }, answers := [ackBytes] }
     s.answers = ackBytes :: [] ∧ ¬ s.params.ackPrefix.val + 6 ≤ ackBytes.length) := by decide

theorem witness_ReadingAckStep :
    let s := { sendingIn .readingAck with answers := [ackBytes] }
    s.quiet ∧ s.isIn .readingAck ∧ s.answers = ackBytes :: [] := by decide

/-- One byte delivered of three: bytes 1 and 2 are missing. -/
theorem witness_ReadTransactionReturnsTheCount :
    { testState with answers := [[0x01]] }.answers = [0x01] :: [] ∧ ([0x01] : List Byte).length ≤ 1 ∧ 1 < 3 ∧ 2 < 3 := by decide

theorem witness_ReadResponseParsesTheReply :
    let s := receivingIn .readingResponse
    MemoryInv s ∧ s.answers = replyRR1 :: [] ∧ s.curLen.toNat ≤ s.curBuf.cap := by decide

theorem witness_WellFormedReplyRoundTrips :
    let s := { receivingIn .readingResponse with params := { testParams with respPrefix := 1 }, answers := [0x77 :: replyRR1] }
    MemoryInv s ∧ ([0x03, 0x32, 0x01, 0x06, 0x07] : List Byte).length ≤ 254 ∧
    ([0x77] : List Byte).length = s.params.respPrefix.val ∧
    s.curLen.toNat = ([0x03, 0x32, 0x01, 0x06, 0x07] : List Byte).length ∧
    ([0x03, 0x32, 0x01, 0x06, 0x07] : List Byte).length ≤ s.curBuf.cap ∧
    s.answers = ([0x77] ++ [0x00, 0x00, 0xFF, BitVec.ofNat 8 (5 + 1), neg8 (5 + 1), 0xD5] ++ [0x03, 0x32, 0x01, 0x06, 0x07] ++
      [neg8 ((0xD5 : Byte).toNat + (([0x03, 0x32, 0x01, 0x06, 0x07] : List Byte).map BitVec.toNat).sum), 0x00]) :: [] := by decide

theorem witness_EchoedCommandComesBack :
    let s := { testIn .encoding 0x06 0x02 ⟨0, 2⟩ [] with mem := [(0, 0x63), (1, 0x3D)] }
    let u := { testIn .readingResponse 0x00 0x03 ⟨16, 3⟩
      [[0x77, 0x00, 0x00, 0xFF, 0x04, 0xFC, 0xD4, 0x06, 0x63, 0x3D, 0x86, 0x00]] with params := { testParams with respPrefix := 1 } }
    s.curLen.toNat ≤ 253 ∧ MemoryInv u ∧ ([0x77] : List Byte).length = u.params.respPrefix.val ∧
    (∃ t, exec .encode s = .next t ∧ u.answers = ([0x77] ++ t.txFrame) :: []) ∧
    u.curLen.toNat = s.curLen.toNat + 1 ∧ u.curLen.toNat ≤ u.curBuf.cap :=
  ⟨by decide, by decide, by decide, ⟨_, rfl, by decide⟩, by decide, by decide⟩

theorem witness_SingleByteCorruption :
    let s := { receivingIn .readingResponse with answers := [replyRR1.set 12 0x55] }
    1 ≤ s.curLen.toNat ∧ s.curLen.toNat ≤ s.curBuf.cap ∧ replyRR1.length = s.params.respPrefix.val + 8 + s.curLen.toNat ∧
    (byteAt replyRR1 3).toNat = s.curLen.toNat + 1 ∧ ((byteAt replyRR1 3).toNat + (byteAt replyRR1 4).toNat) % 256 = 0 ∧
    zeroSum ((replyRR1.drop 5).take (s.curLen.toNat + 2)) = true ∧
    12 < replyRR1.length ∧ 0x55 ≠ byteAt replyRR1 12 ∧ 0 < replyRR1.length ∧ 0x55 ≠ byteAt replyRR1 0 ∧
    0x07 ≠ byteAt replyRR1 3 ∧ 0xE7 ≠ byteAt replyRR1 11 ∧ s.answers = replyRR1.set 12 0x55 :: [] := by decide

theorem witness_ShortDestinationHasNoStep :
    let s := { receivingIn .readingResponse with curBuf := ⟨16, 4⟩ }
    s.answers ≠ [] ∧ s.curBuf.cap < s.curLen.toNat ∧ s.isIn .readingResponse := by decide

theorem witness_SendCommandEarlySteps :
    ((sendingIn .encoding).isIn .encoding ∧ (sendingIn .encoding).curLen.toNat ≤ (sendingIn .encoding).curBuf.cap) ∧
    ((sendingIn .transmitting).isIn .transmitting ∧ (sendingIn .transmitting).answers = [0x01] :: []) ∧
    (sendingIn .settling).isIn .settling := by decide

theorem witness_SendCommandCompletion :
    (sendingIn .acked).isIn .acked ∧ (sendingIn .notAcked).isIn .notAcked ∧ (sendingIn .timeout).isIn .timeout := by decide

theorem witness_ReceiveResponseCompletion :
    (receivingIn .valid).isIn .valid ∧
    (let s := { receivingIn .invalid with timedOut := true, hdrOk := true, dcsOk := true }
     s.isIn .invalid ∧ (s.timedOut = true ∨ s.hdrOk = false ∨ s.dcsOk = false)) ∧
    (let s := { receivingIn .invalid with hdrOk := true }
     s.isIn .invalid ∧ (s.timedOut = true ∨ s.hdrOk = false ∨ s.dcsOk = false)) := by decide

theorem witness_ReadingResponseStep :
    let s := receivingIn .readingResponse
    s.quiet ∧ s.isIn .readingResponse ∧ MemoryInv s ∧ s.answers = replyRR1 :: [] ∧ s.curLen.toNat ≤ s.curBuf.cap := by decide

theorem witness_ResultsAreWrittenByCompletionsOnly :
    (∃ t, step (sendingIn .acked) = .next t ∧ t.sendOk ≠ (sendingIn .acked).sendOk ∧
      (sendingIn .acked).done = false ∧ t.done = true) ∧
    (∃ t, step (receivingIn .valid) = .next t ∧ t.recvCount ≠ (receivingIn .valid).recvCount) ∧
    (∃ t, step (sendingIn .timeout) = .next t ∧ t.lastErr ≠ (sendingIn .timeout).lastErr) ∧
    (let s := { testRequest 0x000201 ⟨0, 0⟩ [] with done := true }
     ∃ t, step s = .next t ∧ s.done = true ∧ t.done = false) :=
  ⟨⟨_, rfl, by decide, rfl, rfl⟩, ⟨_, rfl, by decide⟩, ⟨_, rfl, by decide⟩, ⟨_, rfl, rfl, rfl⟩⟩

theorem witness_EachFlagHasItsWriter :
    (∃ t, step (sendingIn .pollingAck) = .next t ∧ t.rdy ≠ (sendingIn .pollingAck).rdy) ∧
    (let s := { sendingIn .readingAck with answers := [ackBytes] }
     ∃ t, step s = .next t ∧ t.ackOk ≠ s.ackOk) ∧
    (∃ t, step (receivingIn .readingResponse) = .next t ∧ t.hdrOk ≠ (receivingIn .readingResponse).hdrOk) :=
  ⟨⟨_, rfl, by decide⟩, ⟨_, rfl, by decide⟩, ⟨_, rfl, by decide⟩⟩

theorem witness_ConfigurationNeverChanges :
    (∃ t, exec .readResponse (receivingIn .readingResponse) = .next t) ∧ ∃ t, step (sendingIn .settling) = .next t :=
  ⟨⟨_, rfl⟩, ⟨_, rfl⟩⟩

theorem witness_StepWritesTheDestinationOnly :
    let s := receivingIn .readingResponse
    MemoryInv s ∧ (∃ t, step s = .next t) ∧ s.curBuf.covers 15 = false ∧ s.curBuf.covers 21 = false ∧
    ¬ (sendingIn .encoding).isIn .readingResponse := ⟨by decide, ⟨_, rfl⟩, by decide, by decide, by decide⟩

theorem witness_SendCommandRunsToItsAck :
    let s := testRequest 0x010601 ⟨16, 1⟩ [[], [0xFE], [0x01], ackBytes]
    s.faultRecord = none ∧ s.isIn .idle ∧ s.reqValid = true ∧ decodeRequest s.reqWord = .ok (.sendCommand 0x06 0x01) ∧
    (0x01 : Byte).toNat ≤ 253 ∧ (0x01 : Byte).toNat ≤ s.reqBuf.cap ∧ (∀ b ∈ ([0xFE] : List Byte), b.getLsbD 0 = false) ∧
    (0x01 : Byte).getLsbD 0 = true ∧ ([0xFE] : List Byte).length < s.params.maxAttemptsAck.toNat ∧
    s.params.ackPrefix.val + 6 ≤ ackBytes.length ∧
    s.answers = [] :: (([0xFE] : List Byte).map (fun b => [b]) ++ [0x01] :: ackBytes :: []) := by decide

theorem witness_SendCommandTimesOut :
    (let s := testRequest 0x010601 ⟨16, 1⟩ [[], [0x00], [0xFE]]
     s.faultRecord = none ∧ s.isIn .idle ∧ s.reqValid = true ∧ decodeRequest s.reqWord = .ok (.sendCommand 0x06 0x01) ∧
     (0x01 : Byte).toNat ≤ 253 ∧ (0x01 : Byte).toNat ≤ s.reqBuf.cap ∧
     (∀ b ∈ ([0x00, 0xFE] : List Byte), b.getLsbD 0 = false) ∧
     ([0x00, 0xFE] : List Byte).length = s.params.maxAttemptsAck.toNat ∧
     s.answers = [] :: (([0x00, 0xFE] : List Byte).map (fun b => [b]) ++ [])) ∧
    (let s := { testRequest 0x000201 ⟨0, 0⟩ [[]] with params := { testParams with maxAttemptsAck := 0 } }
     ([] : List Byte).length = s.params.maxAttemptsAck.toNat ∧
     s.answers = [] :: (([] : List Byte).map (fun b => [b]) ++ [])) := by decide

theorem witness_ReceiveResponseRunsToItsReply :
    let body : List Byte := [0x03, 0x32, 0x01, 0x06, 0x07]
    let s := testRequest 0x050002 ⟨16, 5⟩ [[0x00], [0x01], replyRR1]
    s.faultRecord = none ∧ s.isIn .idle ∧ s.reqValid = true ∧ decodeRequest s.reqWord = .ok (.receiveResponse 0x05) ∧
    MemoryInv s ∧ (0x05 : Byte).toNat ≤ s.reqBuf.cap ∧ body.length = (0x05 : Byte).toNat ∧ body.length ≤ 254 ∧
    ([] : List Byte).length = s.params.respPrefix.val ∧ (∀ b ∈ ([0x00] : List Byte), b.getLsbD 0 = false) ∧
    (0x01 : Byte).getLsbD 0 = true ∧ ([0x00] : List Byte).length < s.params.maxAttemptsResp.toNat ∧
    s.answers = ([0x00] : List Byte).map (fun b => [b]) ++ [0x01] ::
      ([] ++ [0x00, 0x00, 0xFF, BitVec.ofNat 8 (body.length + 1), neg8 (body.length + 1), 0xD5] ++ body ++
        [neg8 ((0xD5 : Byte).toNat + (body.map BitVec.toNat).sum), 0x00]) :: [] := by decide

theorem witness_AnsweredRequestsTerminate :
    (let s := testRequest 0x010601 ⟨16, 1⟩ [[], [], [], []]
     s.faultRecord = none ∧ s.isIn .idle ∧ s.reqValid = true ∧ decodeRequest s.reqWord = .ok (.sendCommand 0x06 0x01) ∧
     (0x01 : Byte).toNat ≤ 253 ∧ (0x01 : Byte).toNat ≤ s.reqBuf.cap ∧
     s.params.maxAttemptsAck.toNat + 2 ≤ s.answers.length) ∧
    (let s := testRequest 0x050002 ⟨16, 5⟩ [[], [], []]
     s.faultRecord = none ∧ s.isIn .idle ∧ s.reqValid = true ∧ decodeRequest s.reqWord = .ok (.receiveResponse 0x05) ∧
     (0x05 : Byte).toNat ≤ s.reqBuf.cap ∧ s.params.maxAttemptsResp.toNat + 1 ≤ s.answers.length) := by decide

/-- The two cores differ in registers that no operation reads before it writes them; seven steps complete the SEND_COMMAND. -/
theorem witness_OperationsAreStateless :
    let s := testRequest 0x000201 ⟨0, 0⟩ [[], [0x01], ackBytes]
    let s' := { s with attCnt := 7, rdy := true, hdrOk := true, txFrame := [0x11], recvCount := 0x05 }
    s.isIn .idle ∧ SameWorld s s' ∧ s ≠ s' ∧ s.reqValid = true ∧
    ∃ t, Host.Core.run Sys2Proof.core 7 s = .next t ∧ t.isIn .idle ∧ t.faultRecord = none :=
  ⟨by decide, by unfold SameWorld; exact ⟨rfl, rfl, rfl, rfl, rfl, rfl, rfl, rfl, rfl, rfl, rfl⟩,
    fun h => absurd (congrArg State.rdy h) (by decide), rfl, _, rfl, rfl, rfl⟩

theorem witness_StatusPatternsCountAndLatch :
    (sendingIn .pollingAck).attCnt ≠ 0 ∧ { sendingIn .pollingAck with attCnt := 0 }.attCnt = 0 := by decide

theorem witness_FramePatternsAreLaidIntoTheFrame : ¬ testState.isIn .readingResponse := by decide

theorem witness_FramePatternIsParsedAsAReply :
    let i := Instr.wireNormalInformationFrame 0x03 0xFD 0xD5 0x07 [0xAA] 0x7A
    let s := testIn .readingResponse 0x00 0x02 ⟨0, 2⟩ []
    s.isIn .readingResponse ∧ MemoryInv s ∧ i.WellFormed ∧ s.curLen.toNat = ([0xAA] : List Byte).length + 1 ∧
    ([0xAA] : List Byte).length + 1 ≤ s.curBuf.cap ∧
    (testIn .readingResponse 0x00 0x02 ⟨0, 1⟩ []).curBuf.cap < ([0xAA] : List Byte).length + 1 := by decide

theorem witness_ResetLeavesTheSpecifiedValues :
    let s := { receivingIn .pollingResp with mem := [(3, 0x10)] }
    MemoryInv s ∧ s.quiet ∧ s.inReply ∧ 4 < s.curBuf.cap ∧ 15 < s.curBuf.base ∧ s.curBuf.base + s.curBuf.cap ≤ 21 ∧
    ¬ (sendingIn .encoding).inReply := by decide

/-- A destination of bytes 16 to 20 and a payload of byte 16, with their edges, and an idle core. -/
theorem witness_BorrowedBufferIsGuarded :
    (let s := receivingIn .pollingResp
     MemoryInv s ∧ s.faultRecord = none ∧ ¬ s.isIn .idle ∧ s.curBuf.base ≤ 16 ∧ 20 < s.curBuf.base + s.curBuf.cap ∧
     s.curBuf.base + s.curBuf.cap ≤ 21 ∧ 15 < s.curBuf.base) ∧
    (let s := sendingIn .encoding
     MemoryInv s ∧ s.faultRecord = none ∧ ¬ s.isIn .idle ∧ s.curBuf.base ≤ 16 ∧ 16 < s.curBuf.base + s.curBuf.cap ∧
     s.curBuf.base + s.curBuf.cap ≤ 17 ∧ 15 < s.curBuf.base) ∧
    (MemoryInv testState ∧ testState.faultRecord = none ∧ testState.isIn .idle) := by decide

theorem witness_EnvironmentKeepsTheInvariant : (sendingIn .settling).Inv ∧ (receivingIn .readingResponse).Inv :=
  ⟨by decide, by decide⟩
end

section
/-!
The fault record under steps, operations, the caller, the transport and reset (00_scope.md R11; 60_exceptions.md R146, R147).
-/

namespace Sys2Proof.Machine

/-! ## The record under the environment's actions -/

/-- Reset keeps the record, whether or not it abandons a destination (log entry 34). -/
@[simp] theorem State.assertReset_faultRecord (s : State) : s.assertReset.faultRecord = s.faultRecord := by
  unfold State.assertReset abandonDestination
  split
  · rfl
  · rfl

@[simp] theorem State.callerRead_faultRecord (s : State) (a : Nat) : (s.callerRead a).2.faultRecord = s.faultRecord := by
  unfold State.callerRead
  split
  · rfl
  · rfl

@[simp] theorem State.presentRequest_faultRecord (s : State) (w : BitVec 24) (h : BufHandle) :
    (s.presentRequest w h).faultRecord = s.faultRecord := rfl

@[simp] theorem State.transportAnswer_faultRecord (s : State) (d : List Byte) :
    (s.transportAnswer d).faultRecord = s.faultRecord := rfl

/-! ## A recorded fault -/

/-- The run has ended: a step only answers the recorded fault (R11). -/
theorem step_of_fault {s : State} {f : ModelFault} (hf : s.faultRecord = some f) : step s = .fault (.model f) := by
  simp only [step, fetch, hf]

/-- A later violation does not replace the recorded fault (log entry 10). -/
theorem raise_keeps_fault {s : State} {f : ModelFault} (hf : s.faultRecord = some f) (g : ModelFault) :
    (s.raise g).faultRecord = some f := by
  rw [State.raise_faultRecord, hf, Option.getD_some]

/-- No operation changes a recorded fault, not even one that raises another. -/
theorem exec_keeps_fault {s t : State} {f : ModelFault} (hf : s.faultRecord = some f) (i : Instr)
    (he : exec i s = .next t) : t.faultRecord = some f :=
  exec_keeps (fun s => s.faultRecord = some f) (fun _ g h => raise_keeps_fault h g)
    (fun _ _ h hsame _ _ => hsame.trans h) i s t hf he

/-- A caller's write, into a borrowed buffer or not, does not change a recorded fault. -/
theorem callerWrite_keeps_fault {s : State} {f : ModelFault} (hf : s.faultRecord = some f) (a : Nat) (v : Byte) :
    (s.callerWrite a v).faultRecord = some f := by
  unfold State.callerWrite
  split
  · exact raise_keeps_fault hf .bufRace
  · exact hf

/-- Settles O17: every step answers the recorded fault, and each operation and each action of the environment keeps it. -/
theorem faultRecordIsSticky : Obligations.FaultRecordIsSticky := fun s _ hf =>
  ⟨step_of_fault hf,
   (State.assertReset_faultRecord s).trans hf,
   raise_keeps_fault hf,
   fun i _ => exec_keeps_fault hf i,
   callerWrite_keeps_fault hf,
   fun a => (State.callerRead_faultRecord s a).trans hf,
   fun w h => (State.presentRequest_faultRecord s w h).trans hf,
   fun d => (State.transportAnswer_faultRecord s d).trans hf⟩

end Sys2Proof.Machine
end

section
/-!
The invariant of the block, state by state: what each FSM state expects of the registers, and that every step and every
action of the caller and of the transport keeps it (44_protocol_fsm.md R119, R120, R130; 20_memory.md R50, R58).
-/

namespace Sys2Proof.Machine

/-! ## The invariant, split by the state the core is in -/

/-- A SEND_COMMAND is in progress: its latched fields, and no completion shown (R29, R119, R120). -/
def State.SendLatched (s : State) : Prop := s.done = false ∧ s.curOp = opSend ∧ s.curLen.toNat ≤ maxPayload

/-- A RECEIVE_RESPONSE is in progress: its latched fields, and no completion shown (R29, R119). -/
def State.ReceiveLatched (s : State) : Prop := s.done = false ∧ s.curOp = opReceive ∧ s.curCmd = 0x00

/-- The invariant's clauses that speak of one FSM state (R119, R130): the request latched, and the flags that led there. -/
def State.Expects (s : State) : FsmState → Prop
  | .idle => True
  | .encoding | .settling | .pollingAck | .readingAck => s.SendLatched
  | .transmitting => s.SendLatched ∧ s.txFrame.length = s.curLen.toNat + 9
  | .acked => s.SendLatched ∧ s.ackOk = true
  | .notAcked => s.SendLatched ∧ s.ackOk = false
  | .timeout => s.SendLatched ∧ s.attCnt = 0
  | .pollingResp => s.ReceiveLatched
  | .readingResponse => s.ReceiveLatched ∧ s.timedOut = false
  | .valid => s.ReceiveLatched ∧ s.hdrOk = true ∧ s.dcsOk = true ∧ s.timedOut = false
  | .invalid => s.ReceiveLatched ∧
      if s.timedOut then s.attCnt = 0 ∧ s.params.respTimeoutPolicy = .abort else (s.hdrOk && s.dcsOk) = false

/-- The invariant's clauses that speak of no FSM state: memory, `bus_addr` and `last_err` (R20, R32, R137). -/
def State.Static (s : State) : Prop :=
  MemoryInv s ∧ s.busAddr = s.params.busAddr ∧ s.lastErr.toNat ≤ 0x5

theorem FsmState.code_toNat_le (st : FsmState) : st.code.toNat ≤ 0xC := by cases st <;> decide

theorem ErrorCode.code_toNat_le (e : ErrorCode) : e.code.toNat ≤ 0x5 := by cases e <;> decide

/-- Of the clauses about the request and its progress, the ones that apply in `st` are those `st` expects. -/
theorem expects_iff {s : State} {st : FsmState} (h : s.isIn st) : s.Expects st ↔ RequestInv s ∧ ProgressInv s := by
  have hc : s.state = st.code := h
  cases st <;>
    simp [State.Expects, State.SendLatched, State.ReceiveLatched, RequestInv, ProgressInv, State.sending, State.inReply,
      State.isIn, State.busy, hc, FsmState.code, and_assoc]

/-- The invariant in a core that is in `st`. -/
theorem inv_iff {s : State} {st : FsmState} (h : s.isIn st) : s.Inv ↔ s.Static ∧ s.Expects st := by
  have hcode : s.state.toNat ≤ 0xC := (show s.state = st.code from h) ▸ st.code_toNat_le
  rw [expects_iff h]
  constructor
  · rintro ⟨hm, ⟨-, hb, -, he⟩, hr⟩
    exact ⟨⟨hm, hb, he⟩, hr⟩
  · rintro ⟨⟨hm, hb, he⟩, hr⟩
    exact ⟨hm, ⟨hcode, hb, hb ▸ params_busAddr_lt _, he⟩, hr⟩

/-! ## Every step -/

/-- No clause speaks of the fault record. -/
theorem raise_inv {s : State} (h : s.Inv) (f : ModelFault) : (s.raise f).Inv := h

/-- The end of an unanswered response poll under the abort policy (R128). -/
theorem responseTimeout_abort {s : State} (hp : s.params.respTimeoutPolicy = .abort) :
    responseTimeout s = (s.noteTimeout true).goto .invalid := by
  simp only [responseTimeout, hp]

/-- The end of an unanswered response poll under the read-anyway policy (R128). -/
theorem responseTimeout_readAnyway {s : State} (hp : s.params.respTimeoutPolicy = .readAnyway) :
    responseTimeout s = (s.noteTimeout false).goto .readingResponse := by
  simp only [responseTimeout, hp]

theorem responseTimeout_inv {s : State} (h : s.isIn .pollingResp) (h0 : s.attCnt = 0) (hi : s.Inv) :
    (responseTimeout s).Inv := by
  obtain ⟨hs, hl⟩ := (inv_iff h).1 hi
  cases hp : s.params.respTimeoutPolicy with
  | abort =>
    rw [responseTimeout_abort hp]
    exact (inv_iff (st := .invalid) rfl).2 ⟨hs, hl, h0, hp⟩
  | readAnyway =>
    rw [responseTimeout_readAnyway hp]
    exact (inv_iff (st := .readingResponse) rfl).2 ⟨hs, hl, rfl⟩

theorem completeSend_inv {s : State} (hs : s.Static) (ok : Bool) (e : ErrorCode) : (s.completeSend ok e).Inv := by
  obtain ⟨hm, haddr, -⟩ := hs
  exact (inv_iff (st := .idle) rfl).2 ⟨⟨hm, haddr, e.code_toNat_le⟩, trivial⟩

theorem completeReceive_inv {s : State} (hs : s.Static) (n : Byte) (e : ErrorCode) : (s.completeReceive n e).Inv := by
  obtain ⟨hm, haddr, -⟩ := hs
  exact (inv_iff (st := .idle) rfl).2 ⟨⟨hm, haddr, e.code_toNat_le⟩, trivial⟩

/-- Settles O10: along each row of R130's table, what the state left expects and what the row writes give what the state
reached expects. -/
theorem everyStepKeepsTheInvariant : Obligations.EveryStepKeepsTheInvariant := by
  intro s t hinv hstep
  cases step_case hstep with
  | waits hf h ht => exact ht ▸ hinv
  | illegalState hf h ht => exact ht ▸ raise_inv hinv _
  | busy hf hv st h hi ht => exact ht ▸ raise_inv hinv _
  | illegalOp hf hv h e he ht => exact ht ▸ raise_inv hinv _
  | payloadLen hf hv h cmd len he hl ht => exact ht ▸ raise_inv hinv _
  | acceptSend hf hv h cmd len he hl ht =>
    subst ht
    exact (inv_iff (st := .encoding) rfl).2 ⟨((inv_iff h).1 hinv).1, rfl, rfl, hl⟩
  | acceptReceive hf hv h len he ht =>
    subst ht
    exact (inv_iff (st := .pollingResp) rfl).2 ⟨((inv_iff h).1 hinv).1, rfl, rfl, rfl⟩
  | encoding hq h hc ht =>
    subst ht
    obtain ⟨hs, hl⟩ := (inv_iff h).1 hinv
    exact (inv_iff (st := .transmitting) rfl).2 ⟨hs, hl, by simp⟩
  | transmitting hq h d rest ha ht =>
    subst ht
    obtain ⟨hs, hl, -⟩ := (inv_iff h).1 hinv
    exact (inv_iff (st := .settling) rfl).2 ⟨hs, hl⟩
  | settling hq h ht =>
    subst ht
    exact (inv_iff (st := .pollingAck) rfl).2 ((inv_iff h).1 hinv)
  | ackTimesOut hq h h0 ht =>
    subst ht
    obtain ⟨hs, hl⟩ := (inv_iff h).1 hinv
    exact (inv_iff (st := .timeout) rfl).2 ⟨hs, hl, h0⟩
  | pollsAck hq h h0 d rest ha r ht =>
    subst ht
    have hsl := (inv_iff h).1 hinv
    cases r with
    | false => exact (inv_iff (st := .pollingAck) rfl).2 hsl
    | true => exact (inv_iff (st := .readingAck) rfl).2 hsl
  | readsAck hq h d rest ha ok ht =>
    subst ht
    obtain ⟨hs, hl⟩ := (inv_iff h).1 hinv
    cases ok with
    | false => exact (inv_iff (st := .notAcked) rfl).2 ⟨hs, hl, rfl⟩
    | true => exact (inv_iff (st := .acked) rfl).2 ⟨hs, hl, rfl⟩
  | acked hq h ht => exact ht ▸ completeSend_inv ((inv_iff h).1 hinv).1 _ _
  | notAcked hq h ht => exact ht ▸ completeSend_inv ((inv_iff h).1 hinv).1 _ _
  | timeout hq h ht => exact ht ▸ completeSend_inv ((inv_iff h).1 hinv).1 _ _
  | respTimesOut hq h h0 ht => exact ht ▸ responseTimeout_inv h h0 hinv
  | pollsResp hq h h0 d rest ha r ht =>
    subst ht
    obtain ⟨hs, hl⟩ := (inv_iff h).1 hinv
    cases r with
    | false => exact (inv_iff (st := .pollingResp) rfl).2 ⟨hs, hl⟩
    | true => exact (inv_iff (st := .readingResponse) rfl).2 ⟨hs, hl, rfl⟩
  | readsResponse hq h d rest ha hc len lcs tfi dcs rem sum hok dok m k hm hr ht =>
    subst ht
    obtain ⟨⟨hw, hcfg⟩, hl, hto⟩ := (inv_iff h).1 hinv
    cases hb : hok && dok with
    | false => exact (inv_iff (st := .invalid) rfl).2 ⟨⟨hm hw, hcfg⟩, hl, by simp [hto, hb]⟩
    | true =>
      obtain ⟨rfl, rfl⟩ := Bool.and_eq_true_iff.1 hb
      exact (inv_iff (st := .valid) rfl).2 ⟨⟨hm hw, hcfg⟩, hl, rfl, rfl, hto⟩
  | valid hq h ht => exact ht ▸ completeReceive_inv ((inv_iff h).1 hinv).1 _ _
  | invalid hq h ht => exact ht ▸ completeReceive_inv ((inv_iff h).1 hinv).1 _ _

/-! ## The caller and the transport -/

/-- Only the clause about memory depends on memory. -/
theorem setMem_inv {s : State} (h : s.Inv) {m : Memory} (hm : m.wf = true) : (s.setMem m).Inv := ⟨hm, h.2⟩

theorem callerWrite_inv {s : State} (h : s.Inv) (a : Nat) (v : Byte) : (s.callerWrite a v).Inv := by
  unfold State.callerWrite
  split
  · exact raise_inv h .bufRace
  · exact setMem_inv h (Memory.write_wf _ _ _ h.1)

theorem callerRead_inv {s : State} (h : s.Inv) (a : Nat) : (s.callerRead a).2.Inv := by
  unfold State.callerRead
  split
  · exact h
  · exact h

/-- Settles O56: a write keeps memory canonical or records a fault; the other three write nothing that it reads. -/
theorem environmentKeepsTheInvariant : Obligations.EnvironmentKeepsTheInvariant := fun _ h =>
  ⟨callerWrite_inv h, callerRead_inv h, fun _ _ => h, fun _ => h⟩

end Sys2Proof.Machine
end

section
/-!
The transition table of 44_protocol_fsm.md R130: every step is one of its rows, a wait or a recorded violation; and what
an operation other than the one in progress, or a code that is no state, does (10_state.md R23; R118 to R120).
-/

namespace Sys2Proof.Machine

/-! ## The table -/

/-- A core is in one state only (R22). -/
theorem not_isIn_idle {s : State} {st : FsmState} (h : s.isIn st) (hi : st ≠ .idle) : ¬ s.isIn .idle := by
  intro hidle
  exact hi ((FsmState.code_inj _ _).1 ((show s.state = st.code from h).symm.trans hidle))

/-- The last row of a SEND_COMMAND (R126). -/
theorem sendRow_completeSend {s : State} (h : s.isIn .acked ∨ s.isIn .notAcked ∨ s.isIn .timeout) (ok : Bool)
    (e : ErrorCode) : SendRow s (s.completeSend ok e) :=
  .inr (.inr (.inr (.inr (.inr (.inr ⟨h, ⟨rfl, rfl⟩, rfl⟩)))))

/-- The last row of a RECEIVE_RESPONSE (R129). -/
theorem receiveRow_completeReceive {s : State} (h : s.isIn .valid ∨ s.isIn .invalid) (n : Byte) (e : ErrorCode) :
    ReceiveRow s (s.completeReceive n e) :=
  .inr (.inr (.inr ⟨h, ⟨rfl, rfl⟩, rfl⟩))

/-- The row of an unanswered response poll, by policy (R128). -/
theorem receiveRow_responseTimeout {s : State} (h : s.isIn .pollingResp) (h0 : s.attCnt = 0) :
    ReceiveRow s (responseTimeout s) := by
  refine .inl ⟨h, h0, ?_⟩
  cases hp : s.params.respTimeoutPolicy with
  | abort =>
    rw [responseTimeout_abort hp]
    exact ⟨⟨rfl, rfl⟩, rfl⟩
  | readAnyway =>
    rw [responseTimeout_readAnyway hp]
    exact ⟨⟨rfl, rfl⟩, rfl⟩

/-- A step that takes the oldest answer and records one transaction completes that transaction (R50 to R52). -/
theorem oneTransaction_of_answer {s t : State} {d : List Byte} {x : Txn} (ha : s.answers = d :: t.answers)
    (hl : t.busLog = s.busLog ++ [x]) : oneTransaction s t x :=
  ⟨hl, by rw [ha, List.tail_cons]⟩

/-- The code of the state a flag selects. -/
theorem FsmState.code_ite (b : Bool) (x y : FsmState) :
    (if b then x else y).code = if b then x.code else y.code := apply_ite FsmState.code _ _ _

/-- Settles O9: each case of a step is a wait, a violation or a row of the table, with its condition and its transaction. -/
theorem stepFollowsTheTransitionTable : Obligations.StepFollowsTheTransitionTable := by
  intro s t hstep
  cases step_case hstep with
  | waits hf h ht => exact .inl ⟨h, ht⟩
  | illegalState hf h ht => exact .inr (.inl ⟨ht, h⟩)
  | busy hf hv st h hi ht => exact .inr (.inr (.inl ⟨ht, hv, not_isIn_idle h hi⟩))
  | illegalOp hf hv h e he ht => exact .inr (.inr (.inr (.inl ⟨ht, hv, h, e, he⟩)))
  | payloadLen hf hv h cmd len he hl ht => exact .inr (.inr (.inr (.inr (.inl ⟨ht, hv, h, cmd, len, he, hl⟩))))
  | acceptSend hf hv h cmd len he hl ht =>
    subst ht
    iterate 5 right
    exact .inl ⟨h, hv, ⟨rfl, rfl⟩, .inl ⟨cmd, len, he, hl, rfl⟩⟩
  | acceptReceive hf hv h len he ht =>
    subst ht
    iterate 5 right
    exact .inl ⟨h, hv, ⟨rfl, rfl⟩, .inr ⟨len, he, rfl⟩⟩
  | encoding hq h hc ht =>
    subst ht
    iterate 6 right
    exact ⟨hq.2, .inl (.inl ⟨h, ⟨rfl, rfl⟩, rfl⟩)⟩
  | transmitting hq h d rest ha ht =>
    subst ht
    iterate 6 right
    exact ⟨hq.2, .inl (.inr (.inl ⟨h, oneTransaction_of_answer ha rfl, rfl⟩))⟩
  | settling hq h ht =>
    subst ht
    iterate 6 right
    exact ⟨hq.2, .inl (.inr (.inr (.inl ⟨h, ⟨rfl, rfl⟩, rfl⟩)))⟩
  | ackTimesOut hq h h0 ht =>
    subst ht
    iterate 6 right
    exact ⟨hq.2, .inl (.inr (.inr (.inr (.inl ⟨h, h0, ⟨rfl, rfl⟩, rfl⟩))))⟩
  | pollsAck hq h h0 d rest ha r ht =>
    subst ht
    iterate 6 right
    exact ⟨hq.2, .inl (.inr (.inr (.inr (.inr (.inl
      ⟨h, h0, oneTransaction_of_answer ha rfl, FsmState.code_ite r _ _⟩)))))⟩
  | readsAck hq h d rest ha ok ht =>
    subst ht
    iterate 6 right
    exact ⟨hq.2, .inl (.inr (.inr (.inr (.inr (.inr (.inl
      ⟨h, oneTransaction_of_answer ha rfl, FsmState.code_ite ok _ _⟩))))))⟩
  | acked hq h ht =>
    subst ht
    iterate 6 right
    exact ⟨hq.2, .inl (sendRow_completeSend (.inl h) _ _)⟩
  | notAcked hq h ht =>
    subst ht
    iterate 6 right
    exact ⟨hq.2, .inl (sendRow_completeSend (.inr (.inl h)) _ _)⟩
  | timeout hq h ht =>
    subst ht
    iterate 6 right
    exact ⟨hq.2, .inl (sendRow_completeSend (.inr (.inr h)) _ _)⟩
  | respTimesOut hq h h0 ht =>
    subst ht
    iterate 6 right
    exact ⟨hq.2, .inr (receiveRow_responseTimeout h h0)⟩
  | pollsResp hq h h0 d rest ha r ht =>
    subst ht
    iterate 6 right
    exact ⟨hq.2, .inr (.inr (.inl ⟨h, h0, oneTransaction_of_answer ha rfl, FsmState.code_ite r _ _⟩))⟩
  | readsResponse hq h d rest ha hc len lcs tfi dcs rem sum hok dok m k hm hr ht =>
    subst ht
    iterate 6 right
    exact ⟨hq.2, .inr (.inr (.inr (.inl ⟨h, oneTransaction_of_answer ha rfl, FsmState.code_ite (hok && dok) _ _⟩)))⟩
  | valid hq h ht =>
    subst ht
    iterate 6 right
    exact ⟨hq.2, .inr (receiveRow_completeReceive (.inl h) _ _)⟩
  | invalid hq h ht =>
    subst ht
    iterate 6 right
    exact ⟨hq.2, .inr (receiveRow_completeReceive (.inr h) _ _)⟩

/-! ## The internal operations as steps -/

/-- The continuation of an operation that ran, and did not hold, is applied to what the operation alone leaves. -/
theorem finish_of_next {s t : State} {r : OpRun} (k : State → State) (hr : r ≠ .held) (h : finish s r id = .next t) :
    finish s r k = .next (k t) := by
  cases r with
  | held => exact absurd rfl hr
  | stuck f => cases h
  | done u => cases h; rfl

/-- A stuck access is stuck whatever was to follow it (R47, R48). -/
theorem finish_of_fault {s : State} {r : OpRun} {f : Fault} (k : State → State) (h : finish s r id = .fault f) :
    finish s r k = .fault f := by
  cases r with
  | held => cases h
  | stuck g => exact h
  | done u => cases h

/-- ENCODE reads no transport, so it does not hold (R86). -/
theorem encodeOp_ne_held (s : State) : encodeOp s ≠ .held := by
  rw [encodeOp_eq]
  split
  · exact OpRun.noConfusion
  · exact OpRun.noConfusion

theorem readAckOp_ne_held {s : State} (h : s.answers ≠ []) : readAckOp s ≠ .held := by
  obtain ⟨d, rest, ha⟩ := List.exists_cons_of_ne_nil h
  rw [readAckOp_cons s d rest ha]
  exact OpRun.noConfusion

theorem readResponseOp_ne_held {s : State} (h : s.answers ≠ []) : readResponseOp s ≠ .held := by
  obtain ⟨d, rest, ha⟩ := List.exists_cons_of_ne_nil h
  rw [readResponseOp_cons s d rest ha, parseReply_eq]
  split
  · exact OpRun.noConfusion
  · exact OpRun.noConfusion

/-- `state <- if b then x else y` (R130). -/
theorem State.goto_ite (s : State) (b : Bool) (x y : FsmState) :
    s.goto (if b then x else y) = { s with state := if b then x.code else y.code } := by
  rw [State.goto, FsmState.code_ite]

/-- Settles O6: each of the three steps is the `finish` of the same operation, with the transition in place of nothing. -/
theorem stepRunsTheSubBlock : Obligations.StepRunsTheSubBlock := by
  intro s t hq
  have henc (h : s.isIn .encoding) : step s = finish s (encodeOp s) (·.goto .transmitting) := step_inSend hq h rfl
  have hack (h : s.isIn .readingAck) :
      step s = finish s (readAckOp s) fun u => u.goto (if u.ackOk then .acked else .notAcked) := step_inSend hq h rfl
  have hrsp (h : s.isIn .readingResponse) :
      step s = finish s (readResponseOp s) fun u => u.goto (if u.hdrOk && u.dcsOk then .valid else .invalid) :=
    step_inReceive hq h rfl
  refine ⟨fun h he => ?_, fun h ha he => ?_, fun h ha he => ?_, fun h f he => ?_, fun h f he => ?_⟩
  · exact (henc h).trans (finish_of_next _ (encodeOp_ne_held s) he)
  · rw [hack h, finish_of_next _ (readAckOp_ne_held ha) he, State.goto_ite]
    rfl
  · rw [hrsp h, finish_of_next _ (readResponseOp_ne_held ha) he, State.goto_ite]
    rfl
  · exact (henc h).trans (finish_of_fault _ he)
  · exact (hrsp h).trans (finish_of_fault _ he)

/-! ## Requests and codes that have no row -/

/-- A second SEND_COMMAND's step in a busy core, where it is not the request latched (R119). -/
theorem exec_sendCommand_busy {s : State} {st : FsmState} (h : s.isIn st) (hi : st ≠ .idle) (cmd len : Byte) :
    exec (.sendCommand cmd len) s =
      if s.curCmd = cmd ∧ s.curLen = len then sendStep st s else .next (s.raise .busy) := by
  simp only [exec, execSendCommand, ofCode_of_isIn h]

theorem exec_receiveResponse_busy {s : State} {st : FsmState} (h : s.isIn st) (hi : st ≠ .idle) (len : Byte) :
    exec (.receiveResponse len) s = if s.curLen = len then receiveStep st s else .next (s.raise .busy) := by
  simp only [exec, execReceiveResponse, ofCode_of_isIn h]

/-- A SEND_COMMAND has no step in a state of a RECEIVE_RESPONSE (R119). -/
theorem sendStep_inReceive {st : FsmState} (hi : st.inReceive = true) (s : State) :
    sendStep st s = .next (s.raise .busy) := by
  cases st with
  | pollingResp | readingResponse | valid | invalid => rfl
  | _ => exact absurd hi (by decide)

/-- A RECEIVE_RESPONSE has no step in a state of a SEND_COMMAND (R119). -/
theorem receiveStep_inSend {st : FsmState} (hi : st.inSend = true) (s : State) :
    receiveStep st s = .next (s.raise .busy) := by
  cases st with
  | idle | pollingResp | readingResponse | valid | invalid => exact absurd hi (by decide)
  | _ => rfl

theorem exec_sendCommand_second {s : State} {cmd len : Byte}
    (h : (s.sending ∧ ¬ (s.curCmd = cmd ∧ s.curLen = len)) ∨ s.inReply) :
    exec (.sendCommand cmd len) s = .next (s.raise .busy) := by
  rcases h with ⟨hs, hne⟩ | hr
  · obtain ⟨st, hst, hi⟩ := isIn_of_sending hs
    rw [exec_sendCommand_busy hst (ne_idle_of_inSend hi), if_neg hne]
  · obtain ⟨st, hst, hi⟩ := isIn_of_inReply hr
    rw [exec_sendCommand_busy hst (ne_idle_of_inReceive hi), sendStep_inReceive hi, ite_self]

theorem exec_receiveResponse_second {s : State} {len : Byte} (h : (s.inReply ∧ s.curLen ≠ len) ∨ s.sending) :
    exec (.receiveResponse len) s = .next (s.raise .busy) := by
  rcases h with ⟨hr, hne⟩ | hs
  · obtain ⟨st, hst, hi⟩ := isIn_of_inReply hr
    rw [exec_receiveResponse_busy hst (ne_idle_of_inReceive hi), if_neg hne]
  · obtain ⟨st, hst, hi⟩ := isIn_of_sending hs
    rw [exec_receiveResponse_busy hst (ne_idle_of_inSend hi), receiveStep_inSend hi, ite_self]

/-- A payload above `N_MAX_PAYLOAD` is refused by value at acceptance (R120). -/
theorem exec_sendCommand_oversized {s : State} {len : Byte} (h : s.isIn .idle) (hl : maxPayload < len.toNat)
    (cmd : Byte) : exec (.sendCommand cmd len) s = .next (s.raise .payloadLen) := by
  simp only [exec, execSendCommand, ofCode_of_isIn h, acceptSend, if_pos hl]

/-- No request has a step in a code that is no state (R23). -/
theorem exec_request_illegalState {s : State} (h : 0xD ≤ s.state.toNat) (cmd len : Byte) :
    exec (.sendCommand cmd len) s = .next (s.raise .illegalState) ∧
      exec (.receiveResponse len) s = .next (s.raise .illegalState) := by
  simp only [exec, execSendCommand, execReceiveResponse, (FsmState.ofCode_none_iff _).2 h, and_self]

/-- Settles O15: by the state the core is in; `raise` writes the record only. -/
theorem otherRequestsAreViolations : Obligations.OtherRequestsAreViolations := fun _ cmd len =>
  ⟨exec_sendCommand_second, exec_receiveResponse_second, fun h hl => exec_sendCommand_oversized h hl cmd,
    fun h => exec_request_illegalState h cmd len, fun _ => rfl⟩

/-- A code that is no state is fetched as a violation, before any request is looked at (R23; log entry 27). -/
theorem fetch_illegalState {s : State} (hf : s.faultRecord = none) (h : 0xD ≤ s.state.toNat) :
    fetch s = .violation .illegalState := by
  rw [fetch, hf, (FsmState.ofCode_none_iff _).2 h]

/-- Settles O16: the step is the fetched violation's `raise`, on an empty record. -/
theorem illegalStateCodeIsAFault : Obligations.IllegalStateCodeIsAFault := by
  intro s hf h
  rw [step, fetch_illegalState hf h]
  simp only [State.raise, hf, Option.getD_none]

end Sys2Proof.Machine
end

section
/-!
What a step writes: the results, the condition flags, the configuration and the caller's memory, each by its own writer only
(10_state.md R25 to R29, R32, R36; 20_memory.md R46, R48; 70_reset_and_hazards.md R156).
-/

namespace Sys2Proof.Machine

/-- What the end of an unanswered response poll writes, whatever the policy: the noted timeout and the state (R128). -/
theorem responseTimeout_eq (s : State) : ∃ b st, responseTimeout s = (s.noteTimeout b).goto st := by
  cases hp : s.params.respTimeoutPolicy with
  | abort => exact ⟨true, .invalid, responseTimeout_abort hp⟩
  | readAnyway => exact ⟨false, .readingResponse, responseTimeout_readAnyway hp⟩

/-! ## Results -/

/-- A step leaves the results and `done` as they are, or is an acceptance or a completion (R27, R28, R29). -/
inductive ResultsCase (s t : State) : Prop
  | kept (hs : t.sendOk = s.sendOk) (hr : t.recvCount = s.recvCount) (he : t.lastErr = s.lastErr) (hd : t.done = s.done)
  | accepted (h : s.isIn .idle) (hv : s.reqValid = true) (hs : t.sendOk = s.sendOk) (hr : t.recvCount = s.recvCount)
      (he : t.lastErr = s.lastErr) (hd : t.done = false)
  | sent (h : s.isIn .acked ∨ s.isIn .notAcked ∨ s.isIn .timeout) (hr : t.recvCount = s.recvCount) (hd : t.done = true)
  | received (h : s.isIn .valid ∨ s.isIn .invalid) (hs : t.sendOk = s.sendOk) (hd : t.done = true)

theorem step_results {s t : State} (hstep : step s = .next t) : ResultsCase s t := by
  cases step_case hstep with
  | acceptSend hf hv h cmd len he hl ht => subst ht; exact .accepted h hv rfl rfl rfl rfl
  | acceptReceive hf hv h len he ht => subst ht; exact .accepted h hv rfl rfl rfl rfl
  | acked hq h ht => subst ht; exact .sent (.inl h) rfl rfl
  | notAcked hq h ht => subst ht; exact .sent (.inr (.inl h)) rfl rfl
  | timeout hq h ht => subst ht; exact .sent (.inr (.inr h)) rfl rfl
  | valid hq h ht => subst ht; exact .received (.inl h) rfl rfl
  | invalid hq h ht => subst ht; exact .received (.inr h) rfl rfl
  | respTimesOut hq h h0 ht =>
    obtain ⟨b, st, e⟩ := responseTimeout_eq s
    subst ht
    rw [e]
    exact .kept rfl rfl rfl rfl
  | _ =>
    rename_i ht
    subst ht
    exact .kept rfl rfl rfl rfl

/-- Settles O39: the writer of each result, in each of the four ways a step can treat them. -/
theorem resultsAreWrittenByCompletionsOnly : Obligations.ResultsAreWrittenByCompletionsOnly := by
  intro s t hstep
  cases step_results hstep with
  | kept hs hr he hd =>
    exact ⟨fun n => absurd hs n, fun n => absurd hr n, fun n => absurd he n,
      fun h0 h1 => (nomatch h0.symm.trans (hd.symm.trans h1)), fun h1 h0 => (nomatch h0.symm.trans (hd.trans h1))⟩
  | accepted h hv hs hr he hd =>
    exact ⟨fun n => absurd hs n, fun n => absurd hr n, fun n => absurd he n,
      fun _ h1 => (nomatch hd.symm.trans h1), fun _ _ => ⟨h, hv⟩⟩
  | sent h hr hd =>
    have hc : s.isIn .acked ∨ s.isIn .notAcked ∨ s.isIn .timeout ∨ s.isIn .valid ∨ s.isIn .invalid :=
      h.imp_right (.imp_right .inl)
    exact ⟨fun _ => h, fun n => absurd hr n, fun _ => hc, fun _ _ => hc, fun _ h0 => (nomatch h0.symm.trans hd)⟩
  | received h hs hd =>
    have hc : s.isIn .acked ∨ s.isIn .notAcked ∨ s.isIn .timeout ∨ s.isIn .valid ∨ s.isIn .invalid :=
      .inr (.inr (.inr h))
    exact ⟨fun n => absurd hs n, fun _ => h, fun _ => hc, fun _ _ => hc, fun _ h0 => (nomatch h0.symm.trans hd)⟩

/-! ## Condition flags -/

/-- A step leaves the four condition flags as they are, or is one poll, READ_ACK or READ_RESPONSE, which writes its own
(R25). -/
inductive FlagsCase (s t : State) : Prop
  | kept (hr : t.rdy = s.rdy) (ha : t.ackOk = s.ackOk) (hh : t.hdrOk = s.hdrOk) (hd : t.dcsOk = s.dcsOk)
  | polled (h : s.isIn .pollingAck ∨ s.isIn .pollingResp) (h0 : s.attCnt ≠ 0) (ha : t.ackOk = s.ackOk)
      (hh : t.hdrOk = s.hdrOk) (hd : t.dcsOk = s.dcsOk)
  | ackRead (h : s.isIn .readingAck) (hr : t.rdy = s.rdy) (hh : t.hdrOk = s.hdrOk) (hd : t.dcsOk = s.dcsOk)
  | replyRead (h : s.isIn .readingResponse) (hr : t.rdy = s.rdy) (ha : t.ackOk = s.ackOk)

theorem step_flags {s t : State} (hstep : step s = .next t) : FlagsCase s t := by
  cases step_case hstep with
  | pollsAck hq h h0 d rest ha r ht => subst ht; exact .polled (.inl h) h0 rfl rfl rfl
  | pollsResp hq h h0 d rest ha r ht => subst ht; exact .polled (.inr h) h0 rfl rfl rfl
  | readsAck hq h d rest ha ok ht => subst ht; exact .ackRead h rfl rfl rfl
  | readsResponse hq h d rest ha hc len lcs tfi dcs rem sum hok dok m k hm hr ht =>
    subst ht
    exact .replyRead h rfl rfl
  | respTimesOut hq h h0 ht =>
    obtain ⟨b, st, e⟩ := responseTimeout_eq s
    subst ht
    rw [e]
    exact .kept rfl rfl rfl rfl
  | _ =>
    rename_i ht
    subst ht
    exact .kept rfl rfl rfl rfl

/-- Settles O40: a flag that changed was written by the one operation whose case does not keep it. -/
theorem eachFlagHasItsWriter : Obligations.EachFlagHasItsWriter := by
  intro s t hstep
  cases step_flags hstep with
  | kept hr ha hh hd =>
    exact ⟨fun n => absurd hr n, fun n => absurd ha n, fun n => n.elim (absurd hh) (absurd hd)⟩
  | polled h h0 ha hh hd => exact ⟨fun _ => ⟨h, h0⟩, fun n => absurd ha n, fun n => n.elim (absurd hh) (absurd hd)⟩
  | ackRead h hr hh hd => exact ⟨fun n => absurd hr n, fun _ => h, fun n => n.elim (absurd hh) (absurd hd)⟩
  | replyRead h hr ha => exact ⟨fun n => absurd hr n, fun n => absurd ha n, fun _ => h⟩

/-! ## Configuration -/

/-- No operation writes `bus_addr` or a parameter (R32, R156). -/
theorem exec_configuration {i : Instr} {s t : State} (h : exec i s = .next t) :
    t.busAddr = s.busAddr ∧ t.params = s.params :=
  exec_keeps (fun u => u.busAddr = s.busAddr ∧ u.params = s.params) (fun _ _ hu => hu)
    (fun _ _ ⟨ha, hp⟩ _ haddr hparams => ⟨haddr.trans ha, hparams.trans hp⟩) i s t ⟨rfl, rfl⟩ h

/-- A step is an operation, a recorded violation or no change at all. -/
theorem step_configuration {s t : State} (h : step s = .next t) : t.busAddr = s.busAddr ∧ t.params = s.params := by
  unfold step at h
  split at h
  · cases h
  · cases h; exact ⟨rfl, rfl⟩
  · cases h; exact ⟨rfl, rfl⟩
  · exact exec_configuration h

@[simp] theorem abandonDestination_params (s : State) : (abandonDestination s).params = s.params := by
  unfold abandonDestination
  split
  · rfl
  · rfl

/-- Reset loads `bus_addr` from the parameters, which it keeps (R32, R156). -/
theorem assertReset_configuration (s : State) :
    s.assertReset.busAddr = s.params.busAddr ∧ s.assertReset.params = s.params :=
  ⟨congrArg Params.busAddr (abandonDestination_params s), abandonDestination_params s⟩

/-- Settles O41: operations and steps write neither, and reset writes `bus_addr` from the parameters. -/
theorem configurationNeverChanges : Obligations.ConfigurationNeverChanges :=
  ⟨fun _ _ _ => exec_configuration, fun _ _ => step_configuration, assertReset_configuration⟩

/-! ## Memory -/

/-- An address outside the region a handle names is outside its first `n` bytes, where the region holds them (R46). -/
theorem outside_of_not_covers {h : BufHandle} {a n : Nat} (hc : h.covers a = false) (hn : n ≤ h.cap) :
    a < h.base ∨ h.base + n ≤ a := by
  simp only [BufHandle.covers, Bool.and_eq_false_iff, decide_eq_false_iff_not] at hc
  omega

/-- Settles O42: only READ_RESPONSE writes memory, and only the `req` bytes the destination was found to hold. -/
theorem stepWritesTheDestinationOnly : Obligations.StepWritesTheDestinationOnly := by
  intro s t a hw hstep hout
  cases step_case hstep with
  | readsResponse hq h d rest ha hc len lcs tfi dcs rem sum hok dok m k hm hr ht =>
    subst ht
    exact hr hw a (outside_of_not_covers (hout.resolve_left (not_not_intro h)) hc)
  | respTimesOut hq h h0 ht =>
    obtain ⟨b, st, e⟩ := responseTimeout_eq s
    subst ht
    rw [e]
    rfl
  | _ =>
    rename_i ht
    subst ht
    rfl

end Sys2Proof.Machine
end

section
/-!
The two views of the registers: their fields and what they hold after reset (10_state.md R24, R30, R31).
-/

namespace Sys2Proof.Machine

/-- `busy`: whether the FSM code is not IDLE's (R24). -/
theorem State.busy_eq (s : State) : s.busy = decide (s.state ≠ 0x0) := by
  rw [State.busy, Bool.eq_iff_iff, bne_iff_ne, decide_eq_true_eq]
  rfl

/-- The STATUS view as the concatenation of its fields, its width the sum of theirs (R30). -/
def statusFields (s : State) : BitVec (8 + 4 + 1 + 1 + 1 + 1) :=
  s.recvCount ++ s.lastErr ++ 0#1 ++ BitVec.ofBool s.sendOk ++ BitVec.ofBool s.done ++ BitVec.ofBool s.busy

theorem statusView_getLsbD (s : State) (i : Nat) : (statusView s).getLsbD i = (statusFields s).getLsbD i := rfl

theorem statusView_extractLsb' (s : State) (i n : Nat) :
    (statusView s).extractLsb' i n = (statusFields s).extractLsb' i n := rfl

/-- The DIAG view as the concatenation of its fields, its width the sum of theirs (R31). -/
def diagFields (s : State) : BitVec (16 + 8 + 4 + 1 + 1 + 1 + 1) :=
  s.attCnt ++ s.remaining ++ s.state ++ BitVec.ofBool s.dcsOk ++ BitVec.ofBool s.hdrOk ++ BitVec.ofBool s.ackOk
    ++ BitVec.ofBool s.rdy

theorem diagView_getLsbD (s : State) (i : Nat) : (diagView s).getLsbD i = (diagFields s).getLsbD i := rfl

theorem diagView_extractLsb' (s : State) (i n : Nat) :
    (diagView s).extractLsb' i n = (diagFields s).extractLsb' i n := rfl

/-- Settles O52: a bit or a field of a concatenation lies above the widths of the fields after it. -/
theorem statusViewFields : Obligations.StatusViewFields := by
  refine ⟨fun s => ?_, by decide⟩
  rw [← State.busy_eq]
  simp only [-Nat.reduceAdd, statusView_getLsbD, statusView_extractLsb', statusFields]
  simp [-Nat.reduceAdd, BitVec.getElem_append, BitVec.extractLsb'_append_eq_of_le, BitVec.extractLsb'_append_eq_right]

/-- Settles O53: as for the STATUS view. -/
theorem diagViewFields : Obligations.DiagViewFields := by
  refine ⟨fun s => ?_, by decide⟩
  simp only [-Nat.reduceAdd, diagView_getLsbD, diagView_extractLsb', diagFields]
  simp [-Nat.reduceAdd, BitVec.getElem_append, BitVec.extractLsb'_append_eq_of_le, BitVec.extractLsb'_append_eq_right]

end Sys2Proof.Machine
end

section
/-!
The caller's buffers: ENCODE's reads of the payload, READ_RESPONSE's writes to a destination that is too short, and the
caller's own accesses to a buffer the core has borrowed (20_memory.md R46 to R48, R58; 40_frame_codec.md R86).
-/

namespace Sys2Proof.Machine

/-! ## ENCODE -/

/-- The outer reduction of R9 is the one a byte makes anyway. -/
theorem neg8_eq_ofNat (v : Nat) : neg8 v = BitVec.ofNat 8 (256 - v % 256) := by
  apply BitVec.eq_of_toNat_eq
  rw [neg8_toNat, BitVec.toNat_ofNat]

/-- The frame of R64 byte by byte, LEN and the two checksums by their sums (R65, R66, R68). -/
theorem commandFrame_eq (cmd : Byte) (p : List Byte) :
    commandFrame cmd p =
      [0x00, 0x00, 0xFF, BitVec.ofNat 8 (p.length + 2), BitVec.ofNat 8 (256 - (p.length + 2) % 256), 0xD4, cmd] ++ p ++
        [BitVec.ofNat 8 (256 - (0xD4 + cmd.toNat + (p.map BitVec.toNat).sum) % 256), 0x00] := by
  have hlen : BitVec.ofNat 8 ((p.length + 2) % 256) = BitVec.ofNat 8 (p.length + 2) :=
    BitVec.eq_of_toNat_eq (by simp only [BitVec.toNat_ofNat]; omega)
  have hlcs : neg8 (BitVec.ofNat 8 (p.length + 2)).toNat = BitVec.ofNat 8 (256 - (p.length + 2) % 256) := by
    rw [neg8_eq_ofNat, BitVec.toNat_ofNat, Nat.mod_mod]
  simp only [commandFrame, hlen, hlcs]
  rw [neg8_eq_ofNat]
  rfl

/-- Settles O18: the frame of the bytes read, whose number is the length, where the capacity admits every read. -/
theorem encodeBuildsTheFrame : Obligations.EncodeBuildsTheFrame := by
  intro s
  simp only [exec, execEncode, encodeOp_eq]
  refine ⟨fun hc => ?_, fun hc => ?_⟩
  · rw [if_pos hc, commandFrame_eq, bufReads_length]
    rfl
  · rw [if_neg (Nat.not_le.2 hc)]
    rfl

/-! ## A short destination -/

/-- Settles O34: the answered READ_RESPONSE is stuck, and the RECEIVE_RESPONSE that runs it ends as it ends. -/
theorem shortDestinationHasNoStep : Obligations.ShortDestinationHasNoStep := by
  intro s ha hc
  obtain ⟨d, rest, hd⟩ := List.exists_cons_of_ne_nil ha
  have hstuck : readResponseOp s = .stuck .stuckBufWrite := readResponseOp_stuck s d rest hd (Nat.not_le.2 hc)
  refine ⟨?_, fun h => ?_⟩
  · simp only [exec, execReadResponse, hstuck, finish]
  · rw [exec_receive_inProgress h rfl]
    simp only [receiveStep, hstuck, finish]

/-! ## A borrowed buffer -/

/-- What the caller's two accesses do to a borrowed byte (R58). -/
theorem callerAccess_borrowed {s : State} {a : Nat} (h : s.borrows a = true) (v : Byte) :
    s.callerWrite a v = s.raise .bufRace ∧ s.callerRead a = (Config.draw s.drawCount, s.advanceDraws 1) :=
  ⟨if_pos h, if_pos h⟩

/-- What they do to any other byte. -/
theorem callerAccess_free {s : State} {a : Nat} (h : ¬ s.borrows a = true) (v : Byte) :
    s.callerWrite a v = s.setMem (Memory.write s.mem a v) ∧ s.callerRead a = (Memory.read s.mem a, s) :=
  ⟨if_neg h, if_neg h⟩

/-- Settles O55: a byte is borrowed while the core is busy and inside the region `cur_buf` names, and free otherwise. -/
theorem borrowedBufferIsGuarded : Obligations.BorrowedBufferIsGuarded := by
  intro s a v hw hf
  refine ⟨fun hbusy hlo hhi => ?_, fun hfree => ?_⟩
  · obtain ⟨hwrite, hread⟩ := callerAccess_borrowed ((borrows_iff s a).2 ⟨hbusy, hlo, hhi⟩) v
    refine ⟨?_, hread⟩
    rw [hwrite, State.raise, hf, Option.getD_none]
  · have hnot : ¬ s.borrows a = true := by
      rw [borrows_iff]
      rintro ⟨hbusy, hlo, hhi⟩
      rcases hfree with hidle | hbelow | habove
      · exact hbusy hidle
      · omega
      · omega
    obtain ⟨hwrite, hread⟩ := callerAccess_free hnot v
    rw [hwrite]
    exact ⟨rfl, fun x => Memory.read_write s.mem a x v hw, hread⟩

end Sys2Proof.Machine
end

section
/-!
The transport: a transaction it has not answered holds the core, and an answered read has the bytes it asked for
(20_memory.md R50, R52).
-/

namespace Sys2Proof.Machine

/-! ## No answer -/

/-- A bus step of a SEND_COMMAND holds where the transport has not answered (R50, R121). -/
theorem sendStep_unanswered {s : State} (ha : s.answers = [])
    (h : s.isIn .transmitting ∨ (s.isIn .pollingAck ∧ s.attCnt ≠ 0) ∨ s.isIn .readingAck) :
    ∃ st, s.isIn st ∧ st.inSend = true ∧ sendStep st s = .next s := by
  rcases h with h | ⟨h, h0⟩ | h
  · exact ⟨_, h, rfl, by simp only [sendStep, busWrite_nil s _ ha, finish]⟩
  · exact ⟨_, h, rfl, by simp only [sendStep, pollOnce_nil s h0 ha, pollExit]⟩
  · exact ⟨_, h, rfl, by simp only [sendStep, readAckOp_nil s ha, finish]⟩

/-- A bus step of a RECEIVE_RESPONSE holds where the transport has not answered (R50, R127). -/
theorem receiveStep_unanswered {s : State} (ha : s.answers = [])
    (h : (s.isIn .pollingResp ∧ s.attCnt ≠ 0) ∨ s.isIn .readingResponse) :
    ∃ st, s.isIn st ∧ st.inReceive = true ∧ receiveStep st s = .next s := by
  rcases h with ⟨h, h0⟩ | h
  · exact ⟨_, h, rfl, by simp only [receiveStep, pollOnce_nil s h0 ha, pollExit]⟩
  · exact ⟨_, h, rfl, by simp only [receiveStep, readResponseOp_nil s ha, finish]⟩

/-- The poll's loop without an answer ends in its first iteration, count 0 or not (R96). -/
theorem pollLoop_unanswered {s : State} (ha : s.answers = []) (n : Nat) : (pollLoop (n + 1) s).2 = s := by
  by_cases h0 : s.attCnt = 0
  · simp only [pollLoop, pollOnce_zero s h0]
  · simp only [pollLoop, pollOnce_nil s h0 ha]

/-- Settles O8: each operation meets its unanswered transaction first. -/
theorem unansweredOperationsHold : Obligations.UnansweredOperationsHold := by
  intro s ha
  refine ⟨?_, ?_, fun m => ?_, fun h => ?_, fun h => ?_⟩
  · simp only [exec, execReadAck, readAckOp_nil s ha, finish]
  · simp only [exec, execReadResponse, readResponseOp_nil s ha, finish]
  · exact congrArg Host.Outcome.next (pollLoop_unanswered (s := s.loadAttempts m) ha m.toNat)
  · obtain ⟨st, hst, hi, hhold⟩ := sendStep_unanswered ha h
    rw [exec_send_inProgress hst hi, hhold]
  · obtain ⟨st, hst, hi, hhold⟩ := receiveStep_unanswered ha h
    rw [exec_receive_inProgress hst hi, hhold]

/-- The first row of R130: an idle core with no request fetches nothing. -/
theorem step_idle_without_request {s : State} (hq : s.quiet) (h : s.isIn .idle) : step s = .next s := by
  rw [step, fetch_idle hq.1 h, hq.2, if_neg Bool.false_ne_true]

/-- Settles O7: the idle core fetches nothing, and the unanswered transaction is a SEND_COMMAND's or a
RECEIVE_RESPONSE's. -/
theorem noStepWithoutRequestOrAnswer : Obligations.NoStepWithoutRequestOrAnswer := by
  rintro s hf ⟨hv, hidle | ⟨ha, hbus⟩⟩
  · exact step_idle_without_request ⟨hf, hv⟩ hidle
  · have hop : (s.isIn .transmitting ∨ (s.isIn .pollingAck ∧ s.attCnt ≠ 0) ∨ s.isIn .readingAck) ∨
        ((s.isIn .pollingResp ∧ s.attCnt ≠ 0) ∨ s.isIn .readingResponse) := by tauto
    rcases hop with hsend | hreceive
    · obtain ⟨st, hst, hi, hhold⟩ := sendStep_unanswered ha hsend
      rw [step_inSend ⟨hf, hv⟩ hst hi, hhold]
    · obtain ⟨st, hst, hi, hhold⟩ := receiveStep_unanswered ha hreceive
      rw [step_inReceive ⟨hf, hv⟩ hst hi, hhold]

/-! ## An answered read -/

/-- The draws of a read are the bytes not delivered (R52). -/
theorem drawsTaken_eq (d : List Byte) (n : Nat) : drawsTaken d n = n - d.length := by
  rw [drawsTaken, List.length_take]
  omega

/-- The delivered bytes come first, in order (R52). -/
theorem take_readBytes (s : State) (d : List Byte) (n : Nat) : (readBytes s d n).take (min n d.length) = d.take n :=
  List.take_left' List.length_take

/-- Settles O29: the bytes of an answered read are `readBytes`, and its draws are the missing ones. -/
theorem readTransactionReturnsTheCount : Obligations.ReadTransactionReturnsTheCount := by
  intro s d rest n ha
  refine ⟨_, _, busRead_cons s n d rest ha, rfl, readBytes_length s d n, take_readBytes s d n,
    fun i => byteAt_readBytes_draw s d n i, ?_⟩
  rw [drawsTaken_eq]
  rfl

end Sys2Proof.Machine
end

section
/-!
The request word: which words are requests and what the others are refused as, and what its violations record
(30_encoding.md R76 to R78; 44_protocol_fsm.md R119, R120; 60_exceptions.md R146).
-/

namespace Sys2Proof

/-! ## The checks of the request decoder, in their order (R78) -/

theorem decodeRequest_otherOp {w : BitVec 24} (h1 : requestOp w ≠ 0x1) (h2 : requestOp w ≠ 0x2) :
    decodeRequest w = .error .reservedOp ∨ decodeRequest w = .error .internalOp := by
  rw [decodeRequest, if_neg h1, if_neg h2]
  split
  · exact .inr rfl
  · exact .inl rfl

theorem decodeRequest_reservedBits {w : BitVec 24} (ho : requestOp w = 0x1 ∨ requestOp w = 0x2)
    (hr : requestRsv w ≠ 0x0) : decodeRequest w = .error .reservedBits := by
  rcases ho with ho | ho
  · rw [decodeRequest, if_pos ho, if_neg hr]
  · rw [decodeRequest, if_neg (by rw [ho]; decide), if_pos ho, if_neg hr]

theorem decodeRequest_send {w : BitVec 24} (ho : requestOp w = 0x1) (hr : requestRsv w = 0x0) :
    decodeRequest w = .ok (.sendCommand (requestCmd w) (requestLen w)) := by
  rw [decodeRequest, if_pos ho, if_pos hr]

/-- With `op` and `rsv` passed, a RECEIVE_RESPONSE is checked for its `cmd` only. -/
theorem decodeRequest_op2 {w : BitVec 24} (ho : requestOp w = 0x2) (hr : requestRsv w = 0x0) :
    decodeRequest w = if requestCmd w = 0x00 then .ok (.receiveResponse (requestLen w)) else .error .cmdNotZero := by
  rw [decodeRequest, if_neg (by rw [ho]; decide), if_pos ho, if_pos hr]

theorem decodeRequest_cmdNotZero {w : BitVec 24} (ho : requestOp w = 0x2) (hr : requestRsv w = 0x0)
    (hc : requestCmd w ≠ 0x00) : decodeRequest w = .error .cmdNotZero := by
  rw [decodeRequest_op2 ho hr, if_neg hc]

theorem decodeRequest_receive {w : BitVec 24} (ho : requestOp w = 0x2) (hr : requestRsv w = 0x0)
    (hc : requestCmd w = 0x00) : decodeRequest w = .ok (.receiveResponse (requestLen w)) := by
  rw [decodeRequest_op2 ho hr, if_pos hc]

/-- The three conditions under which R78 makes a request word illegal. -/
def IllegalRequest (w : BitVec 24) : Prop :=
  (requestOp w ≠ 0x1 ∧ requestOp w ≠ 0x2) ∨ requestRsv w ≠ 0x0 ∨ (requestOp w = 0x2 ∧ requestCmd w ≠ 0x00)

/-- A word that is not illegal is one of the two requests, by its fields (R77, R78). -/
theorem decodeRequest_legal {w : BitVec 24} (h : ¬ IllegalRequest w) :
    (requestOp w = 0x1 ∧ requestRsv w = 0x0 ∧ decodeRequest w = .ok (.sendCommand (requestCmd w) (requestLen w))) ∨
    (requestOp w = 0x2 ∧ requestRsv w = 0x0 ∧ requestCmd w = 0x00 ∧
      decodeRequest w = .ok (.receiveResponse (requestLen w))) := by
  unfold IllegalRequest at h
  have hr : requestRsv w = 0x0 := by tauto
  by_cases h1 : requestOp w = 0x1
  · exact .inl ⟨h1, hr, decodeRequest_send h1 hr⟩
  · have h2 : requestOp w = 0x2 := by tauto
    have hc : requestCmd w = 0x00 := by tauto
    exact .inr ⟨h2, hr, hc, decodeRequest_receive h2 hr hc⟩

theorem decodeRequest_illegal {w : BitVec 24} (h : IllegalRequest w) : ∃ e, decodeRequest w = .error e := by
  by_cases ho : requestOp w = 0x1 ∨ requestOp w = 0x2
  · by_cases hr : requestRsv w = 0x0
    · rcases h with ⟨h1, h2⟩ | hr' | ⟨h2, hc⟩
      · exact absurd ho (not_or.2 ⟨h1, h2⟩)
      · exact absurd hr hr'
      · exact ⟨_, decodeRequest_cmdNotZero h2 hr hc⟩
    · exact ⟨_, decodeRequest_reservedBits ho hr⟩
  · obtain ⟨h1, h2⟩ := not_or.1 ho
    exact (decodeRequest_otherOp h1 h2).elim (fun e => ⟨_, e⟩) (fun e => ⟨_, e⟩)

theorem decodeRequest_error_iff (w : BitVec 24) : (∃ e, decodeRequest w = .error e) ↔ IllegalRequest w := by
  refine ⟨fun ⟨e, he⟩ => ?_, decodeRequest_illegal⟩
  by_contra hl
  rcases decodeRequest_legal hl with ⟨-, -, hok⟩ | ⟨-, -, -, hok⟩
  · exact nomatch hok.symm.trans he
  · exact nomatch hok.symm.trans he

/-- Settles O4: one equation of the decoder for each check, and that every other word decodes. -/
theorem requestWordLegality : Obligations.RequestWordLegality := fun w =>
  ⟨decodeRequest_error_iff w, decodeRequest_otherOp, decodeRequest_reservedBits, decodeRequest_cmdNotZero,
    decodeRequest_send⟩

/-- A word that decodes is the word assembled for the request it decodes to (R76, R80). -/
theorem encode_of_decodeRequest {w : BitVec 24} {i : Instr} (h : decodeRequest w = .ok i) :
    portOf i = .request ∧ encode i = wordBytes w := by
  have hl : ¬ IllegalRequest w := fun hill => by
    obtain ⟨e, he⟩ := decodeRequest_illegal hill
    exact nomatch h.symm.trans he
  rcases decodeRequest_legal hl with ⟨ho, hr, hok⟩ | ⟨ho, hr, hc, hok⟩
  · obtain rfl := Except.ok.inj (h.symm.trans hok)
    refine ⟨rfl, congrArg wordBytes ?_⟩
    rw [← ho, assembleRequest_of_fields w hr]
  · obtain rfl := Except.ok.inj (h.symm.trans hok)
    refine ⟨rfl, congrArg wordBytes ?_⟩
    rw [← ho, ← hc, assembleRequest_of_fields w hr]

end Sys2Proof

namespace Sys2Proof.Machine

/-! ## The request port's violations -/

/-- On an empty record a violation is the new record and nothing else (R146). -/
theorem raise_of_no_fault {s : State} (hf : s.faultRecord = none) (f : ModelFault) :
    s.raise f = { s with faultRecord := some f } := by
  rw [State.raise, hf, Option.getD_none]

/-- What an idle core fetches when a request is presented (R119). -/
theorem fetch_presented {s : State} (hf : s.faultRecord = none) (hv : s.reqValid = true) (h : s.isIn .idle) :
    fetch s = fetchRequest s := by
  rw [fetch_idle hf h, if_pos hv]

theorem step_illegalWord {s : State} (hf : s.faultRecord = none) (hv : s.reqValid = true) (h : s.isIn .idle)
    {e : DecodeError} (he : decodeRequest s.reqWord = .error e) : step s = .next (s.raise .illegalOp) := by
  simp only [step, fetch_presented hf hv h, fetchRequest, he]

theorem step_oversizedPayload {s : State} (hf : s.faultRecord = none) (hv : s.reqValid = true) (h : s.isIn .idle)
    {cmd len : Byte} (he : decodeRequest s.reqWord = .ok (.sendCommand cmd len)) (hl : maxPayload < len.toNat) :
    step s = .next (s.raise .payloadLen) := by
  simp only [step, fetch_presented hf hv h, fetchRequest, he]
  exact exec_sendCommand_oversized h hl cmd

theorem step_request_while_busy {s : State} (hf : s.faultRecord = none) (hv : s.reqValid = true) {st : FsmState}
    (h : s.isIn st) (hi : st ≠ .idle) : step s = .next (s.raise .busy) := by
  simp only [step, fetch_busy hf h hi, if_pos hv]

/-- Settles O14: each violation is fetched, or met at acceptance, and raised on an empty record. -/
theorem requestViolationsChangeNoRegister : Obligations.RequestViolationsChangeNoRegister := by
  intro s hf hv
  simp only [← raise_of_no_fault hf]
  refine ⟨?_, ?_, ?_⟩
  · rintro hidle ⟨e, he⟩
    exact step_illegalWord hf hv hidle he
  · rintro hidle ⟨cmd, len, he, hl⟩
    exact step_oversizedPayload hf hv hidle he hl
  · rintro (hsend | hreply)
    · obtain ⟨st, hst, hi⟩ := isIn_of_sending hsend
      exact step_request_while_busy hf hv hst (ne_idle_of_inSend hi)
    · obtain ⟨st, hst, hi⟩ := isIn_of_inReply hreply
      exact step_request_while_busy hf hv hst (ne_idle_of_inReceive hi)

end Sys2Proof.Machine
end

section
/-!
The decoders against the encoder, port by port: what the encoder writes is read back, and on the ports that have an
encoding in the spec nothing else is accepted (30_encoding.md R64, R71, R73, R76, R77, R80).
-/

namespace Sys2Proof

/-! ## What a port reads of its own encodings -/

/-- The assembled word of legal fields is read back as its request (R76, R78, R80). -/
theorem decode_request_assembled {op : BitVec 4} {cmd len : Byte} {i : Instr} (rest : List Byte)
    (h : ∀ w, requestOp w = op → requestRsv w = 0x0 → requestCmd w = cmd → requestLen w = len →
      decodeRequest w = .ok i) :
    decode .request (wordBytes (assembleRequest op cmd len) ++ rest) = .ok (i, rest) := by
  obtain ⟨b0, b1, b2, hbytes, hop, hrsv, hcmd, hlen⟩ := assembleRequest_fields op cmd len rest
  rw [hbytes]
  simp only [decode, h _ hop hrsv hcmd hlen]

/-- The operands of VERIFY_FOOTER are read back, its data by their count (R90; log entry 14). -/
theorem decodeVerifyFooter_operands (tfi form cmd dcs : Byte) {data : List Byte} (rest : List Byte)
    (h : data.length ≤ 255) :
    decodeVerifyFooter (tfi :: form :: cmd :: dcs :: BitVec.ofNat 8 data.length :: (data ++ rest)) =
      if form = 0x00 then .ok (.verifyFooter tfi none data dcs, rest)
      else if form = 0x01 then .ok (.verifyFooter tfi (some cmd) data dcs, rest)
      else .error .badOperandForm := by
  have hm : (BitVec.ofNat 8 data.length).toNat = data.length := by
    rw [BitVec.toNat_ofNat]
    omega
  have hfits : data.length ≤ (data ++ rest).length := by simp
  simp only [decodeVerifyFooter, hm, if_pos hfits, List.take_left, List.drop_left]

theorem decode_verifyFooter {tfi dcs : Byte} (cmd : Option Byte) {data : List Byte} (rest : List Byte)
    (h : data.length ≤ 255) :
    decode .internal (encode (.verifyFooter tfi cmd data dcs) ++ rest) = .ok (.verifyFooter tfi cmd data dcs, rest) := by
  cases cmd with
  | none => exact decodeVerifyFooter_operands tfi 0x00 0x00 dcs rest h
  | some c => exact decodeVerifyFooter_operands tfi 0x01 c dcs rest h

/-- The two bytes of WAIT_READY's bound are read back (log entry 14). -/
theorem highByte_append_lowByte (m : BitVec 16) :
    (m.extractLsb' 8 8 ++ m.extractLsb' 0 8 : BitVec 16) = m := by
  rw [BitVec.extractLsb'_append_extractLsb'_eq_extractLsb' (by rfl)]
  exact BitVec.extractLsb'_eq_self

theorem decode_waitReady (m : BitVec 16) (rest : List Byte) :
    decode .internal (encode (.waitReady m) ++ rest) = .ok (.waitReady m, rest) :=
  congrArg (fun n => Except.ok (Instr.waitReady n, rest)) (highByte_append_lowByte m)

/-- The fields of a frame are read back, its payload by LEN (R64, R65). -/
theorem decodeFrame_fields {len : Byte} (lcs tfi cmd : Byte) {payload : List Byte} (dcs : Byte) (rest : List Byte)
    (h : len.toNat = payload.length + 2) :
    decodeFrame (encode (.wireNormalInformationFrame len lcs tfi cmd payload dcs) ++ rest) =
      .ok (.wireNormalInformationFrame len lcs tfi cmd payload dcs, rest) := by
  have hn : len.toNat - 2 = payload.length := by omega
  have h2 : 2 ≤ len.toNat := by omega
  simp only [encode, Machine.frameStart, List.cons_append, List.nil_append, List.append_assoc, decodeFrame, hn, if_pos h2,
    if_true, List.drop_left, List.take_left]

theorem decode_statusByte (rsv : BitVec 7) (rdy : Bool) (rest : List Byte) :
    decode .status ([statusByte rsv rdy] ++ rest) =
      .ok (if rdy then .wireStatusReady rsv else .wireStatusNotReady rsv, rest) := by
  rw [← decodeStatus_statusByte]
  rfl

/-- Settles O2: operation by operation; the ones with neither fields nor a data count compute. -/
theorem decodeOfEncode : Obligations.DecodeOfEncode := by
  intro i rest hwf
  cases i with
  | sendCommand cmd len =>
    exact decode_request_assembled rest fun w ho hr hc hl => by rw [decodeRequest_send ho hr, hc, hl]
  | receiveResponse len =>
    exact decode_request_assembled rest fun w ho hr hc hl => by rw [decodeRequest_receive ho hr hc, hl]
  | verifyFooter tfi cmd data dcs => exact decode_verifyFooter cmd rest (of_decide_eq_true hwf)
  | waitReady m => exact decode_waitReady m rest
  | wireNormalInformationFrame len lcs tfi cmd payload dcs =>
    obtain ⟨-, -, hlen⟩ := Laws.TableRow.wireNormalInformationFrame len lcs tfi cmd payload dcs hwf
    exact decodeFrame_fields lcs tfi cmd dcs rest hlen
  | wireStatusReady rsv => exact decode_statusByte rsv true rest
  | wireStatusNotReady rsv => exact decode_statusByte rsv false rest
  | encode | decodeHeader | readAck | readResponse | wireAckFrame | wireFrameStart => rfl

/-! ## What a port accepts -/

theorem decode_request_ok {bs rest : List Byte} {i : Instr} (h : decode .request bs = .ok (i, rest)) :
    portOf i = .request ∧ bs = encode i ++ rest := by
  rcases bs with _ | ⟨b0, _ | ⟨b1, _ | ⟨b2, tl⟩⟩⟩ <;> simp only [decode, reduceCtorEq] at h
  split at h
  next j hj =>
    cases h
    obtain ⟨hport, henc⟩ := encode_of_decodeRequest hj
    refine ⟨hport, ?_⟩
    rw [henc, wordBytes_bytesWord]
    rfl
  next => cases h

theorem decode_status_ok {bs rest : List Byte} {i : Instr} (h : decode .status bs = .ok (i, rest)) :
    portOf i = .status ∧ bs = encode i ++ rest := by
  rcases bs with _ | ⟨b, tl⟩
  · cases h
  · cases h
    obtain ⟨henc, hport⟩ := encode_decodeStatus b
    refine ⟨hport, ?_⟩
    rw [henc]
    rfl

theorem decodeAck_ok {bs rest : List Byte} {i : Instr} (h : decodeAck bs = .ok (i, rest)) :
    portOf i = .ack ∧ bs = encode i ++ rest := by
  unfold decodeAck at h
  split at h
  next pre sof0 sof1 a b post tl =>
    split at h
    next hconst =>
      cases h
      obtain ⟨hstart, rfl⟩ := hconst
      exact ⟨rfl, congrArg (· ++ a :: b :: Machine.postamble :: rest) hstart⟩
    next => cases h
  next => cases h

theorem decodeFrameStart_ok {bs rest : List Byte} {i : Instr} (h : decodeFrameStart bs = .ok (i, rest)) :
    portOf i = .frameStart ∧ bs = encode i ++ rest := by
  unfold decodeFrameStart at h
  split at h
  next pre sof0 sof1 tl =>
    split at h
    next hstart =>
      cases h
      exact ⟨rfl, congrArg (· ++ rest) hstart⟩
    next => cases h
  next => cases h

theorem decodeFrame_ok {bs rest : List Byte} {i : Instr} (h : decodeFrame bs = .ok (i, rest)) :
    portOf i = .frame ∧ bs = encode i ++ rest := by
  unfold decodeFrame at h
  split at h
  next pre sof0 sof1 len lcs tfi cmd tl =>
    split at h
    next hstart =>
      split at h
      next =>
        split at h
        next dcs post tl' hdrop =>
          split at h
          next hpost =>
            cases h
            subst hpost
            have htl : tl = tl.take (len.toNat - 2) ++ dcs :: Machine.postamble :: rest := by
              rw [← hdrop, List.take_append_drop]
            refine ⟨rfl, ?_⟩
            simp only [encode, ← hstart, List.cons_append, List.nil_append, List.append_assoc, ← htl]
          next => cases h
        next => cases h
      next => cases h
    next => cases h
  next => cases h

/-- Settles O3: port by port. -/
theorem onlyTheEncodingDecodes : Obligations.OnlyTheEncodingDecodes := by
  intro p bs rest i hp h
  cases p with
  | internal => exact absurd rfl hp
  | request => exact decode_request_ok h
  | status => exact decode_status_ok h
  | ack => exact decodeAck_ok h
  | frameStart => exact decodeFrameStart_ok h
  | frame => exact decodeFrame_ok h

/-- Settles O1: each word is closed, and its decoding computes. -/
theorem tableWordsDecode : Obligations.TableWordsDecode := by
  unfold Obligations.TableWordsDecode
  decide

end Sys2Proof
end

section
/-!
A reply at the parser: READ_RESPONSE on any answered transaction, and a well-formed frame as the reply that arrives
(30_encoding.md R64 to R69; 43_response_frame_parser.md R108 to R114).
-/

namespace Sys2Proof.Machine

/-! ## READ_RESPONSE -/

/-- `(LEN + 255) mod 256` is LEN - 1 as a byte (R88). -/
theorem remainingOf_eq_sub (len : Byte) : remainingOf len = len - 1 := by
  apply BitVec.eq_of_toNat_eq
  rw [remainingOf_toNat, BitVec.toNat_sub, Nat.add_comm]
  rfl

/-- Without a command byte `sum_acc` is the sum of TFI, the data and DCS (R90, R91). -/
theorem footerSum_skip_toNat (tfi : Byte) (data : List Byte) (dcs : Byte) :
    (footerSum tfi none data dcs).toNat = (tfi.toNat + byteSum data + dcs.toNat) % 256 := by
  simpa using footerSum_toNat tfi none data dcs

theorem exec_readResponse_done {s t : State} (h : readResponseOp s = .done t) : exec .readResponse s = .next t := by
  simp only [exec, execReadResponse, h, finish, id]

/-- Settles O30: what `readResponseOp_spec` says of the operation, its checks in the words of R88 and R90. -/
theorem readResponseParsesTheReply : Obligations.ReadResponseParsesTheReply := by
  intro s d rest hw ha hc
  obtain ⟨m, k, hrun, -, hframe, hdata⟩ := readResponseOp_spec s d rest ha hc rfl rfl rfl
  rw [remainingOf_eq_sub] at hrun
  refine ⟨_, exec_readResponse_done hrun, rfl, hdrOkOf_iff _ _, footerSum_skip_toNat _ _ _, rfl,
    fun hhdr hdcs => ?_, hframe hw⟩
  obtain ⟨-, hread⟩ := hdata hhdr hdcs
  exact hread hw

/-! ## A frame as the reply -/

@[simp] theorem frameBytes_length (len lcs tfi cmd : Byte) (payload : List Byte) (dcs : Byte) :
    (frameBytes len lcs tfi cmd payload dcs).length = payload.length + 9 := by
  simp [frameBytes, frameStart]

/-- The data of a frame at the offsets of a reply are its command byte and payload (R69). -/
theorem frameBytes_data (len lcs tfi cmd : Byte) (payload : List Byte) (dcs : Byte) :
    ((frameBytes len lcs tfi cmd payload dcs).drop 6).take (payload.length + 1) = cmd :: payload := by
  simp [frameBytes, frameStart]

/-- The byte after the data of a reply is the frame's DCS (R69). -/
theorem frameBytes_dcs (len lcs tfi cmd : Byte) (payload : List Byte) (dcs : Byte) :
    byteAt (frameBytes len lcs tfi cmd payload dcs) (6 + (payload.length + 1)) = dcs := by
  simp [byteAt, frameBytes, frameStart, Nat.add_comm 6]

/-- A frame that is exactly the reply asked for arrives whole, with no byte to draw (R52). -/
theorem replyArrives_whole {f : List Byte} {s : State} (h : f.length = 8 + s.curLen.toNat) :
    replyArrives f s = parseReply f s := by
  rw [replyArrives, readBytes_full s f _ h.ge, drawsTaken_full f _ h.ge, ← h, List.take_length]
  rfl

/-- LEN and its LCS pass the header check (R66, R88). -/
theorem hdrOkOf_of_lcsMatches {len lcs : Byte} (h : lcsMatches len lcs = true) : hdrOkOf len lcs = true := by
  rw [hdrOkOf_iff, eq_of_beq h]
  exact add_neg8 _

/-- TFI, the body and their DCS sum to 0 (R68, R90). -/
theorem footerSum_of_dcsMatches {tfi cmd : Byte} {payload : List Byte} {dcs : Byte}
    (h : dcsMatches tfi cmd payload dcs = true) : footerSum tfi none (cmd :: payload) dcs = 0x00 := by
  rw [byte_eq_zero_iff, footerSum_skip_toNat, byteSum_cons, ← Nat.add_assoc, eq_of_beq h]
  exact add_neg8 _

/-- The checks of a well-formed frame (R65, R66, R68). -/
theorem frame_checks {len lcs tfi cmd : Byte} {payload : List Byte} {dcs : Byte}
    (h : (Instr.wireNormalInformationFrame len lcs tfi cmd payload dcs).WellFormed) :
    lcsMatches len lcs = true ∧ dcsMatches tfi cmd payload dcs = true := by
  simp only [Instr.WellFormed, Instr.wellFormed, Bool.and_eq_true] at h
  exact ⟨h.1.2, h.2⟩

/-- The parser on a well-formed frame: both checks pass, no byte is drawn, and the body is the data (R93, R108). -/
theorem parseReply_frameBytes {s : State} {len lcs tfi cmd : Byte} {payload : List Byte} {dcs : Byte}
    (hwf : (Instr.wireNormalInformationFrame len lcs tfi cmd payload dcs).WellFormed)
    (hreq : s.curLen.toNat = payload.length + 1) (hc : payload.length + 1 ≤ s.curBuf.cap) (hw : MemoryInv s) :
    ∃ m, parseReply (frameBytes len lcs tfi cmd payload dcs) s = .done { s with
        rxLen := len, rxLcs := lcs, rxTfi := tfi, rxDcs := dcs, hdrOk := true, dcsOk := true, sumAcc := 0x00,
        remaining := len - 1, mem := m } ∧
      (∀ k, k < payload.length + 1 → Memory.read m (s.curBuf.base + k) = byteAt (cmd :: payload) k) ∧
      (∀ a, (a < s.curBuf.base ∨ s.curBuf.base + (payload.length + 1) ≤ a) → Memory.read m a = Memory.read s.mem a) := by
  obtain ⟨hlcs, hdcs⟩ := frame_checks hwf
  have hlen3 : byteAt (frameBytes len lcs tfi cmd payload dcs) 3 = len := rfl
  have hlcs4 : byteAt (frameBytes len lcs tfi cmd payload dcs) 4 = lcs := rfl
  have htfi5 : byteAt (frameBytes len lcs tfi cmd payload dcs) 5 = tfi := rfl
  obtain ⟨m, k, hrun, -, hframe, hdata⟩ := parseReply_spec (frameBytes len lcs tfi cmd payload dcs) s (hreq ▸ hc)
    (by rw [frameBytes_length]; omega)
  simp only [hreq, hlen3, hlcs4, htfi5, frameBytes_data, frameBytes_dcs, hdrOkOf_of_lcsMatches hlcs,
    footerSum_of_dcsMatches hdcs, remainingOf_eq_sub] at hrun hframe hdata
  obtain ⟨rfl, hread⟩ := hdata trivial rfl
  exact ⟨m, hrun, hread hw, hframe hw⟩

theorem exec_frame_readingResponse {s : State} {len lcs tfi cmd : Byte} {payload : List Byte} {dcs : Byte}
    (h : s.isIn .readingResponse) (hreq : s.curLen.toNat = payload.length + 1) :
    exec (.wireNormalInformationFrame len lcs tfi cmd payload dcs) s =
      finish s (parseReply (frameBytes len lcs tfi cmd payload dcs) s) id := by
  rw [← replyArrives_whole (by rw [frameBytes_length]; omega)]
  simp only [exec, execWireNormalInformationFrame]
  exact if_pos h

/-- Settles O51: the frame arrives whole, and the parser runs or finds the destination too short. -/
theorem framePatternIsParsedAsAReply : Obligations.FramePatternIsParsedAsAReply := by
  intro s len lcs tfi cmd payload dcs h hw hwf hreq
  rw [exec_frame_readingResponse h hreq]
  refine ⟨fun hc => ?_, fun hc => ?_⟩
  · obtain ⟨m, hrun, hread, hframe⟩ := parseReply_frameBytes hwf hreq hc hw
    exact ⟨_, congrArg (finish s · id) hrun, rfl, hread, hframe⟩
  · rw [parseReply_eq, hreq, if_neg (Nat.not_le.2 hc)]
    rfl

end Sys2Proof.Machine
end

section
/-!
The wire patterns that the poller and the ACK validator read and that ENCODE lays into `tx_frame` (30_encoding.md R64, R71,
R73; 41_status_poller.md R96; 42_ack_validator.md R105).
-/

namespace Sys2Proof.Machine

/-! ## A status byte -/

/-- RDY is bit 0 of a status byte, whatever its bits 7:1 (R73). -/
theorem rdyOf_statusByte : ∀ (rsv : BitVec 7) (rdy : Bool), rdyOf (statusByte rsv rdy) = rdy := by decide

theorem statusArrives_counted {s : State} (h : s.attCnt ≠ 0) (rsv : BitVec 7) (rdy : Bool) :
    statusArrives (statusByte rsv rdy) s = s.countAttempt rdy := by
  rw [statusArrives, if_neg h, rdyOf_statusByte]

theorem statusArrives_exhausted {s : State} (h : s.attCnt = 0) (b : Byte) : statusArrives b s = s := if_pos h

/-- Settles O48: both patterns are the arrival of their status byte. -/
theorem statusPatternsCountAndLatch : Obligations.StatusPatternsCountAndLatch := fun _ rsv =>
  ⟨fun h => congrArg Host.Outcome.next (statusArrives_counted h rsv true),
    fun h => congrArg Host.Outcome.next (statusArrives_counted h rsv false),
    fun h => ⟨congrArg Host.Outcome.next (statusArrives_exhausted h _),
      congrArg Host.Outcome.next (statusArrives_exhausted h _)⟩⟩

/-! ## The ACK frame -/

/-- A frame in the form of the pattern equals it exactly when its discriminator does (R71, R105). -/
theorem ackOkOf_ackFrame (p : Params) (a b : Byte) :
    ackOkOf p (frameStart ++ [a, b, postamble]) = decide (a = p.ackA3 ∧ b = p.ackA4) := by
  rw [Bool.eq_iff_iff, decide_eq_true_iff, ackOkOf, beq_iff_eq, ackPattern, List.append_cancel_left_eq]
  simp

/-- Settles O49: the frame arrives at READ_ACK's comparison, which writes `ack_ok` only. -/
theorem ackPatternIsCompared : Obligations.AckPatternIsCompared := by
  intro s a b
  rw [← ackOkOf_ackFrame]
  rfl

/-! ## The patterns of `tx_frame` -/

/-- Outside READING_RESPONSE a frame is laid into `tx_frame` (R86). -/
theorem exec_frame_laid {s : State} (h : ¬ s.isIn .readingResponse) (len lcs tfi cmd : Byte) (payload : List Byte)
    (dcs : Byte) : exec (.wireNormalInformationFrame len lcs tfi cmd payload dcs) s =
      .next (s.setTxFrame (frameBytes len lcs tfi cmd payload dcs)) := by
  simp only [exec, execWireNormalInformationFrame]
  exact if_neg h

/-- Settles O50: both patterns are an update of `tx_frame` with the bytes of R64. -/
theorem framePatternsAreLaidIntoTheFrame : Obligations.FramePatternsAreLaidIntoTheFrame := fun _ =>
  ⟨rfl, fun len lcs tfi cmd payload dcs h => exec_frame_laid h len lcs tfi cmd payload dcs⟩

end Sys2Proof.Machine
end

section
/-!
The frame codec: checksums that close their sums, the checks of DECODE_HEADER and VERIFY_FOOTER, and a Normal Information
Frame around any body, which is what ENCODE builds and what a well-formed reply is (30_encoding.md R64 to R69;
40_frame_codec.md R85 to R93).
-/

namespace Sys2Proof.Machine

/-! ## The checksum primitive -/

theorem zeroSum_iff (s : List Byte) : zeroSum s = true ↔ byteSum s % 256 = 0 := beq_iff_eq

/-- A sequence followed by its checksum has a zero sum (R85). -/
theorem zeroSum_append_checksum (s : List Byte) : zeroSum (s ++ [checksum s]) = true := by
  rw [zeroSum_iff, byteSum_append, byteSum_cons, byteSum_nil, Nat.add_zero]
  exact add_neg8 _

/-- Settles O21: the value of `neg8`, and that it closes its sum. -/
theorem checksumClosesTheSum : Obligations.ChecksumClosesTheSum :=
  ⟨rfl, fun s => ⟨neg8_toNat _, zeroSum_iff s, zeroSum_append_checksum s⟩⟩

/-! ## DECODE_HEADER and VERIFY_FOOTER -/

/-- `neg8(LEN)` is the one LCS that LEN passes with (R89). -/
theorem hdrOkOf_iff_neg8 (len lcs : Byte) : hdrOkOf len lcs = true ↔ lcs = neg8 len.toNat := by
  have hlen : len.toNat < 256 := len.isLt
  have hlcs : lcs.toNat < 256 := lcs.isLt
  rw [hdrOkOf_iff, ← BitVec.toNat_inj, neg8_toNat]
  omega

/-- A number taken as LEN passes with its own `neg8`, whether or not a byte holds it (R66, R88). -/
theorem hdrOkOf_ofNat_neg8 (n : Nat) : hdrOkOf (BitVec.ofNat 8 n) (neg8 n) = true := by
  have h := add_neg8 n
  rw [hdrOkOf_iff, BitVec.toNat_ofNat]
  omega

theorem exec_decodeHeader (s : State) :
    exec .decodeHeader s = .next { s with hdrOk := hdrOkOf s.rxLen s.rxLcs, remaining := s.rxLen - 1 } := by
  rw [← remainingOf_eq_sub]
  rfl

/-- Settles O22: the check is `hdrOkOf`, and the valid LCS of a LEN is its `neg8`. -/
theorem decodeHeaderChecksThePair : Obligations.DecodeHeaderChecksThePair :=
  ⟨fun s => ⟨hdrOkOf s.rxLen s.rxLcs, hdrOkOf_iff _ _, exec_decodeHeader s⟩,
    fun len => ⟨neg8 len.toNat, hdrOkOf_iff_neg8 len⟩⟩

theorem exec_verifyFooter (s : State) (tfi : Byte) (cmd : Option Byte) (data : List Byte) (dcs : Byte) :
    exec (.verifyFooter tfi cmd data dcs) s = .next { s with
      sumAcc := footerSum tfi cmd data dcs, dcsOk := decide (footerSum tfi cmd data dcs = 0x00) } := rfl

/-- Settles O23: the running sum is the exact sum mod 256. -/
theorem verifyFooterSumsItsOperands : Obligations.VerifyFooterSumsItsOperands := fun s tfi cmd data dcs =>
  ⟨footerSum tfi cmd data dcs, footerSum_toNat tfi cmd data dcs, exec_verifyFooter s tfi cmd data dcs⟩

/-- A command byte that is present is summed as one more data byte before the others (R91). -/
theorem footerSum_some (tfi cmd : Byte) (data : List Byte) (dcs : Byte) :
    footerSum tfi (some cmd) data dcs = footerSum tfi none (cmd :: data) dcs := rfl

/-- The checksum of TFI and the data passes VERIFY_FOOTER (R68, R90). -/
theorem footerSum_checksum (tfi : Byte) (data : List Byte) : footerSum tfi none data (checksum (tfi :: data)) = 0x00 := by
  rw [byte_eq_zero_iff, footerSum_skip_toNat, checksum, byteSum_cons]
  exact add_neg8 _

/-! ## A frame around a body -/

/-- The Normal Information Frame around TFI and a body, which may be empty: PRE SOF0 SOF1 LEN LCS TFI body DCS POST, LEN
counting TFI and the body (R64 to R69, R93). -/
def infoFrame (tfi : Byte) (body : List Byte) : List Byte :=
  [0x00, 0x00, 0xFF, BitVec.ofNat 8 (body.length + 1), neg8 (body.length + 1), tfi] ++ body ++
    [checksum (tfi :: body), 0x00]

@[simp] theorem infoFrame_length (tfi : Byte) (body : List Byte) : (infoFrame tfi body).length = body.length + 8 := by
  simp [infoFrame]

theorem infoFrame_start (tfi : Byte) (body : List Byte) : (infoFrame tfi body).take 3 = [0x00, 0x00, 0xFF] := rfl

theorem infoFrame_len (tfi : Byte) (body : List Byte) :
    byteAt (infoFrame tfi body) 3 = BitVec.ofNat 8 (body.length + 1) := rfl

theorem infoFrame_lcs (tfi : Byte) (body : List Byte) : byteAt (infoFrame tfi body) 4 = neg8 (body.length + 1) := rfl

theorem infoFrame_tfi (tfi : Byte) (body : List Byte) : byteAt (infoFrame tfi body) 5 = tfi := rfl

theorem infoFrame_body (tfi : Byte) (body : List Byte) : ((infoFrame tfi body).drop 6).take body.length = body := by
  simp [infoFrame]

/-- The body after its first byte, the payload of a command frame (R64). -/
theorem infoFrame_payload (tfi cmd : Byte) (p : List Byte) : ((infoFrame tfi (cmd :: p)).drop 7).take p.length = p := by
  simp [infoFrame]

theorem infoFrame_dcs (tfi : Byte) (body : List Byte) :
    byteAt (infoFrame tfi body) (6 + body.length) = checksum (tfi :: body) := by
  simp [byteAt, infoFrame, Nat.add_comm 6]

theorem infoFrame_post (tfi : Byte) (body : List Byte) : byteAt (infoFrame tfi body) (7 + body.length) = 0x00 := by
  simp [byteAt, infoFrame, Nat.add_comm 7]

/-- The bytes DCS closes, and DCS (R68). -/
theorem infoFrame_summed (tfi : Byte) (body : List Byte) :
    ((infoFrame tfi body).drop 5).take (body.length + 2) = (tfi :: body) ++ [checksum (tfi :: body)] := by
  simp [infoFrame, List.take_append]

/-! ## ENCODE -/

/-- What ENCODE builds is the frame around the command byte and the payload (R86). -/
theorem commandFrame_eq_infoFrame (cmd : Byte) (p : List Byte) :
    commandFrame cmd p = infoFrame tfiH2P (cmd :: p) := by
  rw [commandFrame_eq, infoFrame, checksum, neg8_eq_ofNat, neg8_eq_ofNat, byteSum_cons, byteSum_cons, ← Nat.add_assoc]
  rfl

/-- The body of the frame ENCODE builds in a state. -/
def State.commandBody (s : State) : List Byte := s.curCmd :: bufReads s s.curBuf s.curLen.toNat

@[simp] theorem State.commandBody_length (s : State) : s.commandBody.length = s.curLen.toNat + 1 := by
  simp [State.commandBody]

theorem byteAt_bufReads (s : State) (h : BufHandle) {n k : Nat} (hk : k < n) :
    byteAt (bufReads s h n) k = Memory.read s.mem (h.base + k) := by
  simp [byteAt, bufReads, bufRead, hk]

theorem exec_encode {s : State} (hc : s.curLen.toNat ≤ s.curBuf.cap) :
    exec .encode s = .next (s.setTxFrame (infoFrame tfiH2P s.commandBody)) := by
  simp only [exec, execEncode, encodeOp_eq, if_pos hc, finish, id, commandFrame_eq_infoFrame, State.commandBody]

/-- ENCODE completes only where the buffer holds the payload, and then with its frame (R47, R86). -/
theorem txFrame_of_encode {s t : State} (h : exec .encode s = .next t) : t.txFrame = infoFrame tfiH2P s.commandBody := by
  by_cases hc : s.curLen.toNat ≤ s.curBuf.cap
  · cases h.symm.trans (exec_encode hc)
    rfl
  · cases h.symm.trans ((encodeBuildsTheFrame s).2 (Nat.lt_of_not_le hc))

/-- Settles O19: the properties of the frame around the command byte and the payload. -/
theorem encodedFrameChecksums : Obligations.EncodedFrameChecksums := by
  intro s _ hc
  have hn := s.commandBody_length
  refine ⟨_, exec_encode hc, ?_⟩
  rw [State.setTxFrame_txFrame]
  refine ⟨?_, ?_, ?_, infoFrame_start _ _, ?_⟩
  · rw [infoFrame_length, hn]
  · exact (hdrOkOf_iff _ _).1 (hdrOkOf_ofNat_neg8 _)
  · rw [show s.curLen.toNat + 3 = s.commandBody.length + 2 by omega, infoFrame_summed]
    exact zeroSum_append_checksum _
  · rw [show 8 + s.curLen.toNat = 7 + s.commandBody.length by omega, infoFrame_post]

/-- Settles O20: both forms sum TFI, the command byte, the payload and DCS. -/
theorem encodedFramePassesVerifyFooter : Obligations.EncodedFramePassesVerifyFooter := by
  intro s _ hc
  refine ⟨_, exec_encode hc, ?_⟩
  rw [State.setTxFrame_txFrame]
  have hcmd : byteAt (infoFrame tfiH2P s.commandBody) 6 = s.curCmd := rfl
  have hbody : ((infoFrame tfiH2P s.commandBody).drop 6).take (s.curLen.toNat + 1) = s.commandBody := by
    rw [← s.commandBody_length, infoFrame_body]
  have hpayload : ((infoFrame tfiH2P s.commandBody).drop 7).take s.curLen.toNat = bufReads s s.curBuf s.curLen.toNat := by
    have h := infoFrame_payload tfiH2P s.curCmd (bufReads s s.curBuf s.curLen.toNat)
    rwa [bufReads_length] at h
  have hdcs : byteAt (infoFrame tfiH2P s.commandBody) (7 + s.curLen.toNat) = checksum (tfiH2P :: s.commandBody) := by
    rw [show 7 + s.curLen.toNat = 6 + s.commandBody.length by rw [s.commandBody_length]; omega, infoFrame_dcs]
  rw [infoFrame_tfi, hcmd, hbody, hpayload, hdcs]
  have hskip := footerSum_checksum tfiH2P s.commandBody
  have hpresent := (footerSum_some _ _ _ _).trans hskip
  exact ⟨⟨_, exec_verifyFooter _ _ _ _ _, decide_eq_true hpresent⟩,
    ⟨_, exec_verifyFooter _ _ _ _ _, decide_eq_true hskip⟩⟩

/-! ## A well-formed reply -/

/-- READ_RESPONSE on a frame around a body of the requested length, whatever bytes stand before it: both checks pass, no byte is drawn,
and the body, and nothing else, is written (R93, R108). -/
theorem readResponseOp_infoFrame {s : State} {pre body : List Byte} {tfi : Byte} {rest : List (List Byte)}
    (hw : MemoryInv s) (hpre : pre.length = s.params.respPrefix.val) (hreq : s.curLen.toNat = body.length)
    (hc : body.length ≤ s.curBuf.cap) (ha : s.answers = (pre ++ infoFrame tfi body) :: rest) :
    ∃ m, readResponseOp s = .done { s with
        rxLen := BitVec.ofNat 8 (body.length + 1), rxLcs := neg8 (body.length + 1), rxTfi := tfi,
        rxDcs := checksum (tfi :: body), hdrOk := true, remaining := BitVec.ofNat 8 (body.length + 1) - 1,
        sumAcc := 0x00, dcsOk := true, answers := rest,
        busLog := s.busLog ++ [.read s.busAddr (s.params.respPrefix.val + 8 + body.length)], mem := m } ∧
      (∀ k, k < body.length → Memory.read m (s.curBuf.base + k) = byteAt body k) ∧
      (∀ a, (a < s.curBuf.base ∨ s.curBuf.base + body.length ≤ a) → Memory.read m a = Memory.read s.mem a) := by
  have hcount : s.params.respPrefix.val + 8 + body.length = (pre ++ infoFrame tfi body).length := by
    rw [List.length_append, infoFrame_length]
    omega
  have hframe : infoFrame tfi body = (readBytes s (pre ++ infoFrame tfi body)
      (s.params.respPrefix.val + 8 + body.length)).drop s.params.respPrefix.val := by
    rw [readBytes_full _ _ _ hcount.le, hcount, List.take_length, List.drop_left' hpre]
  have hdraws := drawsTaken_full _ _ hcount.le
  obtain ⟨m, k, hrun, -, hout, hin⟩ := readResponseOp_spec s _ rest ha (hreq ▸ hc) (by rw [hreq]) hframe rfl
  simp only [hreq, infoFrame_len, infoFrame_lcs, infoFrame_tfi, infoFrame_body, infoFrame_dcs, hdrOkOf_ofNat_neg8,
    footerSum_checksum, remainingOf_eq_sub, hdraws] at hrun hout hin
  obtain ⟨rfl, hread⟩ := hin trivial rfl
  exact ⟨m, hrun, hread hw, hout hw⟩

/-- The count of a reply whose two checks passed (R111). -/
theorem replyCount_pass {s : State} (hhdr : s.hdrOk = true) (hdcs : s.dcsOk = true) : replyCount s = s.curLen := by
  rw [replyCount, hhdr, hdcs]
  rfl

/-- A reply laid out byte by byte is the frame around its body (R64, R93). -/
theorem replyBytes_eq_infoFrame (pre body : List Byte) (tfi : Byte) :
    pre ++ [0x00, 0x00, 0xFF, BitVec.ofNat 8 (body.length + 1), neg8 (body.length + 1), tfi] ++ body ++
      [neg8 (tfi.toNat + (body.map BitVec.toNat).sum), 0x00] = pre ++ infoFrame tfi body := by
  rw [List.append_assoc pre, List.append_assoc pre]
  rfl

/-- Settles O31: the reply is the frame around the body. -/
theorem wellFormedReplyRoundTrips : Obligations.WellFormedReplyRoundTrips := by
  intro s pre body tfi rest hw _ hpre hreq hc ha
  rw [replyBytes_eq_infoFrame] at ha
  obtain ⟨m, hrun, hread, hout⟩ := readResponseOp_infoFrame hw hpre hreq hc ha
  refine ⟨_, exec_readResponse_done hrun, rfl, rfl, ?_, hread, hout⟩
  rw [replyCount_pass rfl rfl]
  exact hreq

/-- Settles O32: the frame ENCODE built is one around the command byte and the payload. -/
theorem echoedCommandComesBack : Obligations.EchoedCommandComesBack := by
  intro s t u pre rest _ henc hw hpre ha hlen hc
  rw [txFrame_of_encode henc] at ha
  have hreq : u.curLen.toNat = s.commandBody.length := by rw [hlen, s.commandBody_length]
  obtain ⟨m, hrun, hread, -⟩ := readResponseOp_infoFrame hw hpre hreq (hreq ▸ hc) ha
  refine ⟨_, exec_readResponse_done hrun, replyCount_pass rfl rfl, hread 0 (by omega), fun k hk => ?_⟩
  have hbyte : byteAt s.commandBody (1 + k) = Memory.read s.mem (s.curBuf.base + k) := by
    rw [Nat.add_comm]
    exact byteAt_bufReads s s.curBuf hk
  rw [Nat.add_assoc u.curBuf.base, ← hbyte]
  exact hread (1 + k) (by omega)

end Sys2Proof.Machine
end

section
/-!
A whole RECEIVE_RESPONSE, step by step: acceptance, the polls that find the peer not ready, the one that finds it ready, the
reply and the completion (44_protocol_fsm.md R119, R127 to R129, R134; 41_status_poller.md R96).
-/

namespace Sys2Proof.Machine

/-! ## Acceptance -/

theorem step_acceptReceive {s : State} {len : Byte} (hf : s.faultRecord = none) (hv : s.reqValid = true)
    (h : s.isIn .idle) (he : decodeRequest s.reqWord = .ok (.receiveResponse len)) :
    step s = .next (((s.latchRequest opReceive 0x00 len).loadAttempts s.params.maxAttemptsResp).goto .pollingResp) := by
  simp only [step, fetch_presented hf hv h, fetchRequest, he, exec, execReceiveResponse, ofCode_of_isIn h, acceptReceive]

/-! ## Polls -/

/-- The state a poll leaves that delivered a status byte with this RDY: an attempt counted, RDY latched, and the
transaction taken from the transport and recorded (R96). -/
def State.polled (s : State) (r : Bool) (rest : List (List Byte)) : State :=
  { s with attCnt := s.attCnt - 1, rdy := r, answers := rest, busLog := s.busLog ++ [.read s.busAddr 1] }

/-- One iteration of the poll that delivers its status byte: no byte is drawn (R52, R96). -/
theorem pollOnce_delivered {s : State} (h0 : s.attCnt ≠ 0) {b : Byte} {more : List Byte} {rest : List (List Byte)}
    (ha : s.answers = (b :: more) :: rest) :
    pollOnce s = (if statusRdy b then .ready else .again, s.polled (statusRdy b) rest) := by
  have hdraws : drawsTaken (b :: more) 1 = 0 := drawsTaken_full _ _ (by simp)
  have hbyte : byteAt (readBytes s (b :: more) 1) 0 = b := by
    rw [readBytes_full _ _ _ (by simp)]
    rfl
  rw [pollOnce_cons s h0 _ rest ha, hbyte, hdraws]
  rfl

/-- A status byte with RDY = 0 leaves either poll where it is (R124, R128). -/
theorem step_poll_notReady {s : State} (hq : s.quiet) (h : s.isIn .pollingAck ∨ s.isIn .pollingResp) (h0 : s.attCnt ≠ 0)
    {b : Byte} {more : List Byte} {rest : List (List Byte)} (ha : s.answers = (b :: more) :: rest)
    (hb : statusRdy b = false) : step s = .next (s.polled false rest) := by
  have hpoll : pollOnce s = (.again, s.polled false rest) := by
    rw [pollOnce_delivered h0 ha, hb]
    rfl
  rcases h with h | h
  · rw [step_inSend hq h rfl]
    simp only [sendStep, hpoll, pollExit]
  · rw [step_inReceive hq h rfl]
    simp only [receiveStep, hpoll, pollExit]

/-- A status byte with RDY = 1 ends the response poll (R128). -/
theorem step_pollingResp_ready {s : State} (hq : s.quiet) (h : s.isIn .pollingResp) (h0 : s.attCnt ≠ 0) {b : Byte}
    {more : List Byte} {rest : List (List Byte)} (ha : s.answers = (b :: more) :: rest) (hb : statusRdy b = true) :
    step s = .next (((s.polled true rest).noteTimeout false).goto .readingResponse) := by
  rw [step_inReceive hq h rfl, receiveStep, pollOnce_delivered h0 ha, hb]
  rfl

/-- Status bytes with RDY = 0, within the attempts left, are read one a step in either poll (R96, R124, R128). -/
theorem run_polls_notReady {s : State} (hq : s.quiet) (h : s.isIn .pollingAck ∨ s.isIn .pollingResp) {nots : List Byte}
    {rest : List (List Byte)} (ha : s.answers = nots.map (fun b => [b]) ++ rest)
    (hnot : ∀ b ∈ nots, statusRdy b = false) (hle : nots.length ≤ s.attCnt.toNat) :
    Host.Core.run Sys2Proof.core nots.length s = .next { s with
      attCnt := s.attCnt - BitVec.ofNat 16 nots.length, rdy := if nots = [] then s.rdy else false, answers := rest,
      busLog := s.busLog ++ List.replicate nots.length (.read s.busAddr 1) } := by
  induction nots generalizing s with
  | nil =>
    obtain rfl : s.answers = rest := ha
    simp [run_zero]
  | cons b bs ih =>
    rw [List.length_cons] at hle
    have h0 : s.attCnt ≠ 0 := fun h0 => by simp [h0] at hle
    have hcount : bs.length ≤ (s.attCnt - 1).toNat := by
      bv_omega
    have hstep : step s = .next (s.polled false (bs.map (fun b => [b]) ++ rest)) :=
      step_poll_notReady hq h h0 ha (hnot b List.mem_cons_self)
    rw [List.length_cons, run_succ _ hstep, ih (s := s.polled false _) hq h rfl
      (fun c hc => hnot c (List.mem_cons_of_mem b hc)) hcount]
    have hsub : s.attCnt - 1 - BitVec.ofNat 16 bs.length = s.attCnt - BitVec.ofNat 16 (bs.length + 1) := by
      rw [BitVec.ofNat_add]
      bv_omega
    simp only [State.polled, hsub, ite_self, reduceCtorEq, if_false, List.replicate_succ, List.append_assoc,
      List.singleton_append]

/-- A response poll that meets a status byte with RDY = 1 within its attempts goes on to the reply (R127, R128). -/
theorem run_pollingResp_ready {s : State} (hq : s.quiet) (h : s.isIn .pollingResp) {nots : List Byte} {rb : Byte}
    {rest : List (List Byte)} (ha : s.answers = nots.map (fun b => [b]) ++ [rb] :: rest)
    (hnot : ∀ b ∈ nots, statusRdy b = false) (hrb : statusRdy rb = true) (hlt : nots.length < s.attCnt.toNat) :
    Host.Core.run Sys2Proof.core (nots.length + 1) s = .next { s with
      attCnt := s.attCnt - BitVec.ofNat 16 nots.length - 1, rdy := true, answers := rest,
      busLog := s.busLog ++ List.replicate (nots.length + 1) (.read s.busAddr 1), timedOut := false,
      state := FsmState.readingResponse.code } := by
  have hleft : s.attCnt - BitVec.ofNat 16 nots.length ≠ 0 := by bv_omega
  rw [run_add _ 1 (run_polls_notReady hq (.inr h) ha hnot hlt.le),
    run_succ 0 (step_pollingResp_ready (by exact hq) (by exact h) (by exact hleft) rfl hrb), run_zero,
    List.replicate_succ', ← List.append_assoc]
  rfl

/-! ## The reply and the completion -/

/-- A reply whose two checks pass leads to VALID (R129). -/
theorem step_readingResponse_pass {s t : State} (hq : s.quiet) (h : s.isIn .readingResponse)
    (hrun : readResponseOp s = .done t) (hhdr : t.hdrOk = true) (hdcs : t.dcsOk = true) :
    step s = .next (t.goto .valid) := by
  rw [step_inReceive hq h rfl, receiveStep, hrun]
  simp only [finish, hhdr, hdcs, Bool.and_self, if_true]

theorem step_valid {s : State} (hq : s.quiet) (h : s.isIn .valid) : step s = .next (s.completeReceive s.curLen .none) :=
  step_inReceive hq h rfl

/-- A core that reads a frame around a body of the requested length completes in two steps, with the body in the
destination (R93, R129). -/
theorem run_readingResponse_infoFrame {s : State} {pre body : List Byte} {tfi : Byte} {rest : List (List Byte)}
    (hq : s.quiet) (h : s.isIn .readingResponse) (hw : MemoryInv s) (hpre : pre.length = s.params.respPrefix.val)
    (hreq : s.curLen.toNat = body.length) (hc : body.length ≤ s.curBuf.cap)
    (ha : s.answers = (pre ++ infoFrame tfi body) :: rest) :
    ∃ t, Host.Core.run Sys2Proof.core 2 s = .next t ∧ t.isIn .idle ∧ t.done = true ∧ t.recvCount = s.curLen ∧
      t.lastErr = 0x0 ∧ t.sendOk = s.sendOk ∧ t.answers = rest ∧
      (∀ k, k < body.length → Memory.read t.mem (s.curBuf.base + k) = byteAt body k) ∧
      t.busLog = s.busLog ++ [.read s.busAddr (s.params.respPrefix.val + 8 + body.length)] := by
  obtain ⟨m, hrun, hread, -⟩ := readResponseOp_infoFrame hw hpre hreq hc ha
  have hchecked := run_succ 1 (step_readingResponse_pass hq h hrun rfl rfl)
  exact ⟨_, hchecked.trans (run_succ 0 (step_valid (by exact hq) rfl)), rfl, rfl, rfl, rfl, rfl, rfl, hread, rfl⟩

/-- Settles O45: acceptance, the polls up to the ready one, and the reply with its completion. -/
theorem receiveResponseRunsToItsReply : Obligations.ReceiveResponseRunsToItsReply := by
  intro s len nots rb tfi pre body rest hf hidle hv hdec hw hcap hlen _ hpre hnots hrb hbound ha
  rw [replyBytes_eq_infoFrame] at ha
  rw [show nots.length + 4 = (nots.length + 1 + 2) + 1 by omega, run_succ _ (step_acceptReceive hf hv hidle hdec)]
  have hpolls := run_pollingResp_ready
    (s := ((s.latchRequest opReceive 0x00 len).loadAttempts s.params.maxAttemptsResp).goto .pollingResp)
    ⟨hf, rfl⟩ rfl ha hnots hrb hbound
  rw [run_add _ 2 hpolls, ← hlen]
  exact run_readingResponse_infoFrame ⟨hf, rfl⟩ rfl hw hpre hlen.symm (hlen ▸ hcap) rfl

end Sys2Proof.Machine
end

section
/-!
A whole WAIT_READY whose reads the transport answers: how many status bytes it reads, and how it ends (41_status_poller.md R96
to R98, R100).
-/

namespace Sys2Proof.Machine

/-! ## The first ready status byte -/

/-- The index, from 1, of the first status byte with RDY = 1 among those the state's transport answers (R97); one past the
last where there is none. -/
def State.firstReady (s : State) : Nat :=
  ((statusBytes s.drawCount s.answers).takeWhile fun b => !statusRdy b).length + 1

/-- The status byte of an answered one-byte read comes first; each byte not delivered moves the later draws by one (R52). -/
theorem statusBytes_cons (s : State) (d : List Byte) (rest : List (List Byte)) :
    statusBytes s.drawCount (d :: rest) = byteAt (readBytes s d 1) 0 :: statusBytes (s.drawCount + drawsTaken d 1) rest := by
  cases d with
  | nil => rw [byteAt_readBytes_draw s [] 1 0 le_rfl Nat.one_pos]; rfl
  | cons b more => rw [readBytes_full s _ 1 (by simp), drawsTaken_full _ 1 (by simp)]; rfl

/-! ## The state after some reads -/

/-- The state after `n` answered status reads, the last of which leaves RDY = `r`: the attempts counted, the transactions
taken from the transport and recorded, and a draw for each status byte that was not delivered (R52, R96). -/
def State.polledTimes (s : State) (n : Nat) (r : Bool) : State :=
  { s with
    attCnt := s.attCnt - BitVec.ofNat 16 n
    rdy := r
    answers := s.answers.drop n
    busLog := s.busLog ++ List.replicate n (.read s.busAddr 1)
    drawCount := s.drawCount + (s.answers.take n).count [] }

theorem State.polledTimes_zero (s : State) : s.polledTimes 0 s.rdy = s := by
  simp [State.polledTimes]

/-- Only the last read's RDY stays. -/
theorem State.polledTimes_polledTimes (s : State) (n k : Nat) (r q : Bool) :
    (s.polledTimes n r).polledTimes k q = s.polledTimes (n + k) q := by
  have hcount : s.attCnt - BitVec.ofNat 16 n - BitVec.ofNat 16 k = s.attCnt - BitVec.ofNat 16 (n + k) := by
    rw [BitVec.ofNat_add]
    bv_omega
  simp only [State.polledTimes, hcount, List.drop_drop, List.take_add, List.count_append, List.replicate_add,
    List.append_assoc, Nat.add_assoc]

/-- A one-byte read draws exactly where nothing was delivered. -/
theorem drawsTaken_one (d : List Byte) : drawsTaken d 1 = [d].count [] := by
  cases d with
  | nil => rfl
  | cons b more => rw [drawsTaken_full _ 1 (by simp)]; rfl

/-! ## One iteration -/

/-- An answered iteration of the poll is one read, and READY exactly where its status byte is (R96). -/
theorem pollOnce_polledTimes {s : State} (h0 : s.attCnt ≠ 0) {d : List Byte} {rest : List (List Byte)}
    (ha : s.answers = d :: rest) {r : Bool} (hb : statusRdy (byteAt (readBytes s d 1) 0) = r) :
    pollOnce s = (if r then .ready else .again, s.polledTimes 1 r) := by
  rw [pollOnce_cons s h0 d rest ha, hb, drawsTaken_one]
  simp [State.polledTimes, ha, State.setAnswers, State.advanceDraws, State.logTxn, State.countAttempt]

theorem State.firstReady_pos (s : State) : 0 < s.firstReady := Nat.succ_pos _

theorem firstReady_of_ready {s : State} {d : List Byte} {rest : List (List Byte)} (ha : s.answers = d :: rest)
    (hb : statusRdy (byteAt (readBytes s d 1) 0) = true) : s.firstReady = 1 := by
  simp [State.firstReady, ha, statusBytes_cons, hb]

/-- After a read that is not the first ready one, the first ready one is one read closer (R97). -/
theorem firstReady_of_notReady {s : State} {d : List Byte} {rest : List (List Byte)} (ha : s.answers = d :: rest)
    (hb : statusRdy (byteAt (readBytes s d 1) 0) = false) (r : Bool) :
    s.firstReady = (s.polledTimes 1 r).firstReady + 1 := by
  simp [State.firstReady, State.polledTimes, ha, statusBytes_cons, hb, drawsTaken_one]

/-! ## The whole poll -/

/-- The RDY that an answered poll leaves: the one it found where it has no attempt to make, otherwise whether its attempts
reach the first ready byte (R98, R100). -/
def State.rdyAfterPoll (s : State) : Bool := if s.attCnt = 0 then s.rdy else decide (s.firstReady ≤ s.attCnt.toNat)

/-- A poll that starts from RDY = 0 leaves RDY = 1 only by finding a ready byte. -/
theorem State.rdyAfterPoll_of_rdy_false {s : State} (hr : s.rdy = false) :
    s.rdyAfterPoll = decide (s.firstReady ≤ s.attCnt.toNat) := by
  rw [State.rdyAfterPoll]
  split
  next h0 =>
    have hpos := s.firstReady_pos
    rw [hr, h0]
    exact (decide_eq_false (Nat.not_le_of_lt hpos)).symm
  next => rfl

/-- The poll with `n` attempts left reads up to the first ready byte or until the attempts are used up, whichever comes first
(R97, R98, R100). -/
theorem pollLoop_answered {n : Nat} {s : State} (hn : s.attCnt.toNat = n) (hans : min s.firstReady n ≤ s.answers.length) :
    pollLoop (n + 1) s = (if s.firstReady ≤ n then .ready else .notReady,
      s.polledTimes (min s.firstReady n) s.rdyAfterPoll) := by
  induction n generalizing s with
  | zero =>
    have h0 : s.attCnt = 0 := BitVec.eq_of_toNat_eq hn
    rw [pollLoop, pollOnce_zero s h0, State.rdyAfterPoll, if_pos h0, if_neg (Nat.not_le_of_lt s.firstReady_pos),
      Nat.min_zero, State.polledTimes_zero]
  | succ n ih =>
    have h0 : s.attCnt ≠ 0 := fun h0 => by simp [h0] at hn
    have hpos := s.firstReady_pos
    obtain ⟨d, rest, ha⟩ := List.exists_cons_of_ne_nil (List.ne_nil_of_length_pos (l := s.answers) (by omega))
    rw [State.rdyAfterPoll, if_neg h0, hn]
    cases hb : statusRdy (byteAt (readBytes s d 1) 0) with
    | true => simp [pollLoop, pollOnce_polledTimes h0 ha hb, firstReady_of_ready ha hb]
    | false =>
      have hj := firstReady_of_notReady ha hb false
      have hleft : (s.polledTimes 1 false).attCnt.toNat = n := by
        change (s.attCnt - 1).toNat = n
        bv_omega
      have hans' : min (s.polledTimes 1 false).firstReady n ≤ (s.polledTimes 1 false).answers.length := by
        change _ ≤ (s.answers.drop 1).length
        rw [List.length_drop]
        omega
      have hagain : pollLoop (n + 1 + 1) s = pollLoop (n + 1) (s.polledTimes 1 false) := by
        rw [pollLoop, pollOnce_polledTimes h0 ha hb]
        rfl
      rw [hagain, ih hleft hans', State.rdyAfterPoll_of_rdy_false rfl, State.polledTimes_polledTimes, hleft, hj,
        Nat.add_min_add_right, Nat.add_comm 1]
      simp only [Nat.add_le_add_iff_right]

/-- Settles O24: WAIT_READY loads its bound, and the loop uses the attempts up to the first ready byte. -/
theorem waitReadyReadsUntilReady : Obligations.WaitReadyReadsUntilReady := by
  intro s m j reads hreads
  have hloop : waitReadyOp m s = _ := pollLoop_answered (s := s.loadAttempts m) rfl hreads
  have hleft : m - BitVec.ofNat 16 reads = BitVec.ofNat 16 (m.toNat - reads) := by
    have : reads ≤ m.toNat := Nat.min_le_right _ _
    bv_omega
  rw [exec, execWaitReady, hloop, ← hleft]
  exact ⟨rfl, rfl⟩

end Sys2Proof.Machine
end

section
/-!
An answered READ_ACK: the bytes it compares, what it writes, and the transition that follows it in READING_ACK
(42_ack_validator.md R102 to R105; 44_protocol_fsm.md R125).
-/

namespace Sys2Proof.Machine

/-- `ack_ok` is the equality with the pattern (R105). -/
theorem ackOkOf_iff (p : Params) (f : List Byte) : ackOkOf p f = true ↔ f = ackPattern p := beq_iff_eq

/-- What follows a prefix of `p` bytes in a read of `p + k` bytes is `k` bytes. -/
theorem drop_readBytes_length (s : State) (d : List Byte) (p k : Nat) : ((readBytes s d (p + k)).drop p).length = k := by
  rw [List.length_drop, readBytes_length, Nat.add_sub_cancel_left]

/-- Where the transport delivers every byte, the bytes after the prefix are the delivered ones (R52, R103). -/
theorem drop_readBytes_full (s : State) (d : List Byte) (p k : Nat) (h : p + k ≤ d.length) :
    (readBytes s d (p + k)).drop p = (d.drop p).take k := by
  rw [readBytes_full s d _ h, List.drop_take, Nat.add_sub_cancel_left]

/-- An answered READ_ACK is one read transaction, and writes `ack_ok` only (R102, R103). -/
theorem exec_readAck_cons {s : State} {d : List Byte} {rest : List (List Byte)} (ha : s.answers = d :: rest) :
    exec .readAck s = .next { s with
      ackOk := ackOkOf s.params ((readBytes s d (ackReadCount s.params)).drop s.params.ackPrefix.val)
      answers := rest
      busLog := s.busLog ++ [.read s.busAddr (ackReadCount s.params)]
      drawCount := s.drawCount + (ackReadCount s.params - d.length) } := by
  rw [exec, execReadAck, readAckOp_cons s d rest ha, drawsTaken_eq]
  rfl

/-- Settles O27: the bytes after the prefix are compared with the pattern, and the comparison is all that is written. -/
theorem readAckMatchesThePattern : Obligations.ReadAckMatchesThePattern := fun s d _ ha =>
  ⟨drop_readBytes_length s d _ 6, drop_readBytes_full s d _ 6, _, ackOkOf_iff s.params _, exec_readAck_cons ha⟩

/-- Settles O28: the step is READ_ACK followed by the transition on the `ack_ok` that it wrote. -/
theorem readingAckStep : Obligations.ReadingAckStep := by
  intro s d rest hq h ha
  have hanswered : s.answers ≠ [] := ha ▸ List.cons_ne_nil d rest
  obtain ⟨-, hstep, -⟩ := stepRunsTheSubBlock s _ hq
  exact ⟨_, hstep h hanswered (exec_readAck_cons ha), rfl, rfl⟩

end Sys2Proof.Machine
end

section
/-!
A reply as two checked windows: the header bytes LEN and LCS, and the bytes TFI to DCS (30_encoding.md R69). What one changed byte
of a well-formed reply does to the count, and the transition that follows the reply in READING_RESPONSE
(43_response_frame_parser.md R108, R111, R117; 44_protocol_fsm.md R127).
-/

namespace Sys2Proof.Machine

/-! ## One changed byte of a sum -/

theorem drop_eq_byteAt_cons {l : List Byte} {j : Nat} (h : j < l.length) : l.drop j = byteAt l j :: l.drop (j + 1) := by
  rw [byteAt, List.getD_eq_getElem _ _ h, List.drop_eq_getElem_cons h]

/-- Exchanging one byte exchanges its term of the exact sum (R9). -/
theorem byteSum_set {l : List Byte} {j : Nat} (h : j < l.length) (b : Byte) :
    byteSum (l.set j b) + (byteAt l j).toNat = byteSum l + b.toNat := by
  have hold : byteSum l = byteSum (l.take j) + ((byteAt l j).toNat + byteSum (l.drop (j + 1))) := by
    rw [← byteSum_cons, ← drop_eq_byteAt_cons h, ← byteSum_append, List.take_append_drop]
  have hnew : byteSum (l.set j b) = byteSum (l.take j) + (b.toNat + byteSum (l.drop (j + 1))) := by
    rw [List.set_eq_take_append_cons_drop, if_pos h, byteSum_append, byteSum_cons]
  omega

/-- A zero sum does not survive the change of one of its bytes (R117). -/
theorem zeroSum_set {l : List Byte} (hz : zeroSum l = true) {j : Nat} (h : j < l.length) {b : Byte} (hb : b ≠ byteAt l j) :
    zeroSum (l.set j b) = false := by
  have hexchange := byteSum_set h b
  have hne : b.toNat ≠ (byteAt l j).toNat := fun he => hb (BitVec.eq_of_toNat_eq he)
  have hbnew : b.toNat < 256 := b.isLt
  have hbold : (byteAt l j).toNat < 256 := (byteAt l j).isLt
  rw [zeroSum_iff] at hz
  rw [Bool.eq_false_iff, ne_eq, zeroSum_iff]
  omega

/-! ## One changed byte of a reply: inside or outside a window -/

/-- The bytes `a` to `a + n - 1` of a sequence, as a checksum covers them. -/
def window (l : List Byte) (a n : Nat) : List Byte := (l.drop a).take n

theorem window_drop (l : List Byte) (p a n : Nat) : window (l.drop p) a n = window l (p + a) n := by
  rw [window, window, List.drop_drop]

theorem byteAt_window {l : List Byte} {a n j : Nat} (h : j < n) : byteAt (window l a n) j = byteAt l (a + j) := by
  simp [byteAt, window, h]

/-- A change outside a window leaves it as it is. -/
theorem window_set_outside {l : List Byte} {a n i : Nat} (h : ¬ (a ≤ i ∧ i < a + n)) (b : Byte) :
    window (l.set i b) a n = window l a n := by
  rw [window, window, List.drop_set]
  split
  · rfl
  · exact List.take_set_of_le (by omega)

/-- A change inside a window is the change of that byte of it. -/
theorem window_set_inside {l : List Byte} {a n i : Nat} (h : a ≤ i) (b : Byte) :
    window (l.set i b) a n = (window l a n).set (i - a) b := by
  rw [window, window, List.drop_set, if_neg (Nat.not_lt.2 h), List.take_set]

/-- Of a window with a zero sum, the check still passes exactly when the changed byte is outside it (R117). -/
theorem zeroSum_window_set {l : List Byte} {a n i : Nat} {b : Byte} (hz : zeroSum (window l a n) = true)
    (hi : i < l.length) (hb : b ≠ byteAt l i) :
    zeroSum (window (l.set i b) a n) = true ↔ ¬ (a ≤ i ∧ i < a + n) := by
  by_cases hin : a ≤ i ∧ i < a + n
  · obtain ⟨hai, hian⟩ := hin
    have hj : i - a < (window l a n).length := by rw [window, List.length_take, List.length_drop]; omega
    have hbj : b ≠ byteAt (window l a n) (i - a) := by
      rwa [byteAt_window (by omega), Nat.add_sub_of_le hai]
    rw [window_set_inside hai, zeroSum_set hz hj hbj]
    exact iff_of_false Bool.false_ne_true (not_not_intro ⟨hai, hian⟩)
  · rw [window_set_outside hin]
    exact iff_of_true hz hin

/-! ## The checks of a reply as windows -/

/-- The header check sums the window LEN, LCS (R88). -/
theorem hdrOkOf_eq_window {f : List Byte} (h : 5 ≤ f.length) :
    hdrOkOf (byteAt f 3) (byteAt f 4) = zeroSum (window f 3 2) := by
  have hw : window f 3 2 = [byteAt f 3, byteAt f 4] := by
    rw [window, drop_eq_byteAt_cons (by omega), drop_eq_byteAt_cons (by omega)]
    rfl
  rw [Bool.eq_iff_iff, hdrOkOf_iff, zeroSum_iff, hw, byteSum_cons, byteSum_cons, byteSum_nil, Nat.add_zero]

/-- The footer check sums the window TFI to DCS (R90, R91). -/
theorem dcsOkOf_eq_window {f : List Byte} {req : Nat} (h : 7 + req ≤ f.length) :
    dcsOkOf (footerSum (byteAt f 5) none ((f.drop 6).take req) (byteAt f (6 + req))) =
      zeroSum (window f 5 (req + 2)) := by
  have hw : window f 5 (req + 2) = byteAt f 5 :: ((f.drop 6).take req ++ [byteAt f (6 + req)]) := by
    rw [window, drop_eq_byteAt_cons (by omega), List.take_succ_cons, List.take_add, List.drop_drop,
      drop_eq_byteAt_cons (j := 6 + req) (by omega)]
    rfl
  rw [dcsOkOf, Bool.eq_iff_iff, beq_iff_eq, byte_eq_zero_iff, footerSum_skip_toNat, zeroSum_iff, hw, byteSum_cons,
    byteSum_append, byteSum_cons, byteSum_nil, Nat.add_zero, Nat.add_assoc]

/-- The count of a reply that arrives whole is all or nothing, by the sums of its two windows (R108, R111). -/
theorem exec_readResponse_whole {s : State} {r : List Byte} {rest : List (List Byte)} (ha : s.answers = r :: rest)
    (hc : s.curLen.toNat ≤ s.curBuf.cap) (hlen : r.length = s.params.respPrefix.val + 8 + s.curLen.toNat) :
    ∃ t, exec .readResponse s = .next t ∧ replyCount t =
      if zeroSum (window r (s.params.respPrefix.val + 3) 2) &&
        zeroSum (window r (s.params.respPrefix.val + 5) (s.curLen.toNat + 2)) then s.curLen else 0x00 := by
  have hframe : r.drop s.params.respPrefix.val = (readBytes s r r.length).drop s.params.respPrefix.val := by
    rw [readBytes_full s r _ le_rfl, List.take_length]
  have hflen : (r.drop s.params.respPrefix.val).length = 8 + s.curLen.toNat := by rw [List.length_drop]; omega
  obtain ⟨m, k, hrun, -, -, -⟩ := readResponseOp_spec s r rest ha hc hlen hframe rfl
  refine ⟨_, exec_readResponse_done hrun, ?_⟩
  rw [← window_drop, ← window_drop, ← hdrOkOf_eq_window (by omega), ← dcsOkOf_eq_window (by omega)]
  rfl

/-- Settles O33: the reply still arrives whole, and one of its two windows breaks exactly when the changed byte is in it. -/
theorem singleByteCorruption : Obligations.SingleByteCorruption := by
  intro s r rest i b p req f _ hc hlen _ hhdr hdcs hi hb ha
  have hflen : f.length = 8 + req := by rw [List.length_drop]; omega
  rw [← hdrOkOf_iff, hdrOkOf_eq_window (by omega), window_drop] at hhdr
  rw [← window, window_drop] at hdcs
  obtain ⟨t, hexec, hcount⟩ := exec_readResponse_whole ha hc ((List.length_set ..).trans hlen)
  have hpass : (zeroSum (window (r.set i b) (p + 3) 2) && zeroSum (window (r.set i b) (p + 5) (req + 2))) = true ↔
      ¬ (p + 3 ≤ i ∧ i ≤ p + 6 + req) := by
    rw [Bool.and_eq_true, zeroSum_window_set hhdr hi hb, zeroSum_window_set hdcs hi hb]
    omega
  exact ⟨t, hexec, hcount.trans ((if_congr hpass rfl rfl).trans (ite_not ..))⟩

/-! ## The step of READING_RESPONSE -/

/-- Settles O38: the step is READ_RESPONSE followed by the transition on the two flags that it wrote. -/
theorem readingResponseStep : Obligations.ReadingResponseStep := by
  intro s d rest hq h hw ha hc
  have hanswered : s.answers ≠ [] := ha ▸ List.cons_ne_nil d rest
  obtain ⟨m, k, hrun, -, hframe, -⟩ := readResponseOp_spec s d rest ha hc rfl rfl rfl
  obtain ⟨-, -, hstep, -⟩ := stepRunsTheSubBlock s _ hq
  exact ⟨_, hstep h hanswered (exec_readResponse_done hrun), rfl, rfl, hframe hw⟩

end Sys2Proof.Machine
end

section
/-!
The steps of `protocol_fsm`, state by state: acceptance, the steps of a SEND_COMMAND and of a RECEIVE_RESPONSE, and their
completions (44_protocol_fsm.md R118 to R129, R139).
-/

namespace Sys2Proof.Machine

/-! ## What a step runs -/

/-- Settles O5: the request presented is what is fetched, and the request latched is the one in progress. -/
theorem stepRunsTheDecodedRequest : Obligations.StepRunsTheDecodedRequest := by
  intro s hf
  refine ⟨fun i hidle hv hdec => ?_, fun hsend hv => ?_, fun hreply hv => ?_⟩
  · simp only [step, fetch_presented hf hv hidle, fetchRequest, hdec]
  · obtain ⟨st, hst, hi⟩ := isIn_of_sending hsend
    rw [step_inSend ⟨hf, hv⟩ hst hi, exec_send_inProgress hst hi]
  · obtain ⟨st, hst, hi⟩ := isIn_of_inReply hreply
    rw [step_inReceive ⟨hf, hv⟩ hst hi, exec_receive_inProgress hst hi]

/-! ## Acceptance -/

theorem exec_sendCommand_idle {s : State} (h : s.isIn .idle) (cmd : Byte) {len : Byte} (hl : len.toNat ≤ maxPayload) :
    exec (.sendCommand cmd len) s = .next ((s.latchRequest opSend cmd len).goto .encoding) := by
  simp only [exec, execSendCommand, ofCode_of_isIn h, acceptSend, if_neg (Nat.not_lt.2 hl)]

theorem exec_receiveResponse_idle {s : State} (h : s.isIn .idle) (len : Byte) :
    exec (.receiveResponse len) s =
      .next (((s.latchRequest opReceive 0x00 len).loadAttempts s.params.maxAttemptsResp).goto .pollingResp) := by
  simp only [exec, execReceiveResponse, ofCode_of_isIn h, acceptReceive]

/-- Settles O12: a length within `N_MAX_PAYLOAD` is latched with the rest of the request. -/
theorem sendCommandIsAccepted : Obligations.SendCommandIsAccepted := fun _ cmd _ h hl => exec_sendCommand_idle h cmd hl

/-- Settles O13: the request is latched and the bound of the response poll loaded. -/
theorem receiveResponseIsAccepted : Obligations.ReceiveResponseIsAccepted := fun _ len h => exec_receiveResponse_idle h len

/-! ## One poll -/

/-- One iteration of the poll that delivers no byte: the status byte is a draw (R52, R96). -/
theorem pollOnce_undelivered {s : State} (h0 : s.attCnt ≠ 0) {rest : List (List Byte)} (ha : s.answers = [] :: rest) :
    pollOnce s = (if statusRdy (Config.draw s.drawCount) then .ready else .again,
      (s.polled (statusRdy (Config.draw s.drawCount)) rest).advanceDraws 1) := by
  have hbyte : byteAt (readBytes s [] 1) 0 = Config.draw s.drawCount := byteAt_readBytes_draw s [] 1 0 le_rfl Nat.one_pos
  rw [pollOnce_cons s h0 [] rest ha, hbyte]
  rfl

/-- The exit of an answered poll: on RDY = 1 it is left, on RDY = 0 it goes on (R124, R128). -/
theorem pollExit_answered (r : Bool) (u : State) (onReady onNotReady : State → State) :
    pollExit (if r then .ready else .again, u) onReady onNotReady = if r then onReady u else u := by
  cases r with
  | false => rfl
  | true => rfl

/-- The register `state` already holds the code of the state the core is in. -/
theorem State.goto_of_isIn {s : State} {st : FsmState} (h : s.isIn st) : s.goto st = s := by
  rw [State.goto, ← show s.state = st.code from h]

theorem sendStep_pollingAck_zero {s : State} (h0 : s.attCnt = 0) : sendStep .pollingAck s = .next (s.goto .timeout) := by
  simp only [sendStep, pollOnce_zero s h0, pollExit]

/-- POLLING_ACK after an answered poll that left `u` (R124). -/
theorem sendStep_pollingAck_answered {s u : State} {r : Bool} (hp : pollOnce s = (if r then .ready else .again, u))
    (hu : u.isIn .pollingAck) :
    sendStep .pollingAck s = .next (u.goto (if r then .readingAck else .pollingAck)) := by
  rw [sendStep, hp, pollExit_answered]
  cases r with
  | false => exact congrArg _ (State.goto_of_isIn hu).symm
  | true => rfl

/-- Settles O25: no attempt left, a status byte delivered, and a status byte drawn. -/
theorem pollingAckStep : Obligations.PollingAckStep := by
  intro s hq h
  rw [step_inSend hq h rfl]
  refine ⟨sendStep_pollingAck_zero, fun h0 b more rest ha => ?_, fun h0 rest ha => ?_⟩
  · rw [sendStep_pollingAck_answered (pollOnce_delivered h0 ha) h, State.goto_ite]
    rfl
  · rw [sendStep_pollingAck_answered (pollOnce_undelivered h0 ha) h, State.goto_ite]
    rfl

theorem receiveStep_pollingResp_zero {s : State} (h0 : s.attCnt = 0) :
    receiveStep .pollingResp s = .next (responseTimeout s) := by
  simp only [receiveStep, pollOnce_zero s h0, pollExit]

/-- POLLING_RESP after an answered poll that left `u`: on its way to the reply it notes that there was no timeout (R128). -/
theorem receiveStep_pollingResp_answered {s u : State} {r : Bool} (hp : pollOnce s = (if r then .ready else .again, u))
    (hu : u.isIn .pollingResp) :
    receiveStep .pollingResp s = .next
      ((u.noteTimeout (if r then false else u.timedOut)).goto (if r then .readingResponse else .pollingResp)) := by
  rw [receiveStep, hp, pollExit_answered]
  cases r with
  | false => exact congrArg _ (State.goto_of_isIn hu).symm
  | true => rfl

/-- Settles O26: no attempt left under each policy, a status byte delivered, and a status byte drawn. -/
theorem pollingRespStep : Obligations.PollingRespStep := by
  intro s hq h
  rw [step_inReceive hq h rfl]
  refine ⟨fun h0 hp => ?_, fun h0 hp => ?_, fun h0 b more rest ha => ?_, fun h0 rest ha => ?_⟩
  · rw [receiveStep_pollingResp_zero h0, responseTimeout_abort hp]
    rfl
  · rw [receiveStep_pollingResp_zero h0, responseTimeout_readAnyway hp]
    rfl
  · rw [receiveStep_pollingResp_answered (pollOnce_delivered h0 ha) h, State.goto_ite]
    rfl
  · rw [receiveStep_pollingResp_answered (pollOnce_undelivered h0 ha) h, State.goto_ite]
    rfl

/-! ## The other steps of a SEND_COMMAND -/

theorem sendStep_encoding {s : State} (hc : s.curLen.toNat ≤ s.curBuf.cap) :
    sendStep .encoding s =
      .next ((s.setTxFrame (commandFrame s.curCmd (bufReads s s.curBuf s.curLen.toNat))).goto .transmitting) := by
  rw [sendStep, encodeOp_eq, if_pos hc]
  rfl

theorem sendStep_transmitting {s : State} {d : List Byte} {rest : List (List Byte)} (ha : s.answers = d :: rest) :
    sendStep .transmitting s = .next (((s.setAnswers rest).logTxn (.write s.busAddr s.txFrame)).goto .settling) := by
  rw [sendStep, busWrite_cons s _ d rest ha]
  rfl

/-- Settles O35: the SEND_COMMAND in progress takes the step of its state. -/
theorem sendCommandEarlySteps : Obligations.SendCommandEarlySteps := fun _ =>
  ⟨fun h hc => (exec_send_inProgress h rfl).trans (sendStep_encoding hc),
    fun h _ _ ha => (exec_send_inProgress h rfl).trans (sendStep_transmitting ha),
    fun h => exec_send_inProgress h rfl⟩

/-- Settles O36: each completion state's step is its `completeSend`. -/
theorem sendCommandCompletion : Obligations.SendCommandCompletion := fun _ =>
  ⟨fun h => exec_send_inProgress h rfl, fun h => exec_send_inProgress h rfl, fun h => exec_send_inProgress h rfl⟩

/-! ## The completion of a RECEIVE_RESPONSE -/

/-- The priority of the errors: the noted timeout, then the header, then the data (R139). -/
theorem receiveError_code (s : State) :
    (receiveError s).code = if s.timedOut then 0x3 else if s.hdrOk = false then 0x4 else 0x5 := by
  unfold receiveError
  cases s.timedOut with
  | true => rfl
  | false =>
    cases s.hdrOk with
    | true => rfl
    | false => rfl

/-- Settles O37: each completion state's step is its `completeReceive`, with the error of R139. -/
theorem receiveResponseCompletion : Obligations.ReceiveResponseCompletion := by
  refine fun s => ⟨fun h => exec_receive_inProgress h rfl, fun h _ => ?_⟩
  rw [exec_receive_inProgress h rfl, ← receiveError_code]
  rfl

end Sys2Proof.Machine
end

section
/-!
A whole SEND_COMMAND, step by step: acceptance, ENCODE, the write and the settling, the polls, and either the ACK or the used-up
bound with its completion (44_protocol_fsm.md R119, R121 to R126, R134).
-/

namespace Sys2Proof.Machine

/-! ## From acceptance to the poll -/

theorem step_acceptSend {s : State} {cmd len : Byte} (hf : s.faultRecord = none) (hv : s.reqValid = true)
    (h : s.isIn .idle) (he : decodeRequest s.reqWord = .ok (.sendCommand cmd len)) (hl : len.toNat ≤ maxPayload) :
    step s = .next ((s.latchRequest opSend cmd len).goto .encoding) := by
  simp only [step, fetch_presented hf hv h, fetchRequest, he, exec_sendCommand_idle h cmd hl]

theorem step_encoding {s : State} (hq : s.quiet) (h : s.isIn .encoding) (hc : s.curLen.toNat ≤ s.curBuf.cap) :
    step s = .next ((s.setTxFrame (commandFrame s.curCmd (bufReads s s.curBuf s.curLen.toNat))).goto .transmitting) :=
  (step_inSend hq h rfl).trans (sendStep_encoding hc)

theorem step_transmitting {s : State} (hq : s.quiet) (h : s.isIn .transmitting) {d : List Byte} {rest : List (List Byte)}
    (ha : s.answers = d :: rest) :
    step s = .next (((s.setAnswers rest).logTxn (.write s.busAddr s.txFrame)).goto .settling) :=
  (step_inSend hq h rfl).trans (sendStep_transmitting ha)

theorem step_settling {s : State} (hq : s.quiet) (h : s.isIn .settling) :
    step s = .next ((s.loadAttempts s.params.maxAttemptsAck).goto .pollingAck) := step_inSend hq h rfl

/-- The frame of the request presented: its payload read from the buffer beside it (R86, R119). -/
def State.requestFrame (s : State) (cmd len : Byte) : List Byte := commandFrame cmd (bufReads s s.reqBuf len.toNat)

/-- The core that has accepted the SEND_COMMAND presented to `s`, written its frame and settled: it polls for the ACK, with
the whole bound of attempts and the transport's answers `rest` left (R119, R121, R123). -/
def State.awaitingAck (s : State) (cmd len : Byte) (rest : List (List Byte)) : State :=
  { s with
    state := FsmState.pollingAck.code
    curOp := opSend
    curCmd := cmd
    curLen := len
    curBuf := s.reqBuf
    txFrame := s.requestFrame cmd len
    attCnt := s.params.maxAttemptsAck
    done := false
    reqValid := false
    answers := rest
    busLog := s.busLog ++ [.write s.busAddr (s.requestFrame cmd len)] }

/-- A core that encodes the request of `s` with its write answered is polling three steps later. -/
theorem run_encoding_awaitingAck {s : State} {cmd len : Byte} {w : List Byte} {rest : List (List Byte)}
    (hf : s.faultRecord = none) (hc : len.toNat ≤ s.reqBuf.cap) (ha : s.answers = w :: rest) :
    Host.Core.run Sys2Proof.core 3 ((s.latchRequest opSend cmd len).goto .encoding) =
      .next (s.awaitingAck cmd len rest) := by
  refine (run_succ 2 (step_encoding (by exact ⟨hf, rfl⟩) rfl (by exact hc))).trans ?_
  refine (run_succ 1 (step_transmitting (by exact ⟨hf, rfl⟩) rfl (by exact ha))).trans ?_
  exact run_succ 0 (step_settling (by exact ⟨hf, rfl⟩) rfl)

/-- A SEND_COMMAND presented to an idle core, its write answered, is polling four steps later. -/
theorem run_send_awaitingAck {s : State} {cmd len : Byte} {w : List Byte} {rest : List (List Byte)}
    (hf : s.faultRecord = none) (h : s.isIn .idle) (hv : s.reqValid = true)
    (he : decodeRequest s.reqWord = .ok (.sendCommand cmd len)) (hl : len.toNat ≤ maxPayload)
    (hc : len.toNat ≤ s.reqBuf.cap) (ha : s.answers = w :: rest) :
    Host.Core.run Sys2Proof.core 4 s = .next (s.awaitingAck cmd len rest) := by
  exact (run_succ 3 (step_acceptSend hf hv h he hl)).trans (run_encoding_awaitingAck hf hc ha)

/-! ## The ACK -/

/-- A status byte with RDY = 1 ends the ACK poll (R124). -/
theorem step_pollingAck_ready {s : State} (hq : s.quiet) (h : s.isIn .pollingAck) (h0 : s.attCnt ≠ 0) {b : Byte}
    {more : List Byte} {rest : List (List Byte)} (ha : s.answers = (b :: more) :: rest) (hb : statusRdy b = true) :
    step s = .next ((s.polled true rest).goto .readingAck) := by
  rw [step_inSend hq h rfl, sendStep_pollingAck_answered (pollOnce_delivered h0 ha) h, hb]
  rfl

/-- An ACK poll that meets a status byte with RDY = 1 within its attempts goes on to the ACK (R121, R124). -/
theorem run_pollingAck_ready {s : State} (hq : s.quiet) (h : s.isIn .pollingAck) {nots : List Byte} {rb : Byte}
    {rest : List (List Byte)} (ha : s.answers = nots.map (fun b => [b]) ++ [rb] :: rest)
    (hnot : ∀ b ∈ nots, statusRdy b = false) (hrb : statusRdy rb = true) (hlt : nots.length < s.attCnt.toNat) :
    Host.Core.run Sys2Proof.core (nots.length + 1) s = .next { s with
      attCnt := s.attCnt - BitVec.ofNat 16 nots.length - 1, rdy := true, answers := rest,
      busLog := s.busLog ++ List.replicate (nots.length + 1) (.read s.busAddr 1), state := FsmState.readingAck.code } := by
  have hleft : s.attCnt - BitVec.ofNat 16 nots.length ≠ 0 := by bv_omega
  rw [run_add _ 1 (run_polls_notReady hq (.inl h) ha hnot hlt.le),
    run_succ 0 (step_pollingAck_ready (by exact hq) (by exact h) (by exact hleft) rfl hrb), run_zero,
    List.replicate_succ', ← List.append_assoc]
  rfl

/-- The completion of a SEND_COMMAND whose ACK read left `ack_ok` = `ok` (R125, R126). -/
theorem step_ackRead {s : State} (hq : s.quiet) {ok : Bool} (h : s.isIn (if ok then .acked else .notAcked)) :
    step s = .next (s.completeSend ok (if ok then .none else .ackMismatch)) := by
  cases ok with
  | false => exact step_inSend (st := .notAcked) hq h rfl
  | true => exact step_inSend (st := .acked) hq h rfl

/-- A core that reads an ACK completes in two steps, with the comparison of the bytes after `P_ACK_PREFIX` as its
result (R102, R125, R126). -/
theorem run_readingAck {s : State} {a : List Byte} {rest : List (List Byte)} (hq : s.quiet) (h : s.isIn .readingAck)
    (ha : s.answers = a :: rest) (hfull : s.params.ackPrefix.val + 6 ≤ a.length) :
    ∃ t ok, Host.Core.run Sys2Proof.core 2 s = .next t ∧
      (ok = true ↔ (a.drop s.params.ackPrefix.val).take 6 = ackPattern s.params) ∧
      t.isIn .idle ∧ t.done = true ∧ t.sendOk = ok ∧ t.lastErr = (if ok then 0x0 else 0x2) ∧
      t.recvCount = s.recvCount ∧ t.mem = s.mem ∧ t.answers = rest ∧
      t.busLog = s.busLog ++ [.read s.busAddr (s.params.ackPrefix.val + 6)] := by
  have hread : step s = _ := step_inSend hq h rfl
  rw [sendStep, readAckOp_cons s a rest ha, ackReadCount, drop_readBytes_full s a _ 6 hfull] at hread
  refine ⟨_, _, (run_succ 1 hread).trans (run_succ 0 (step_ackRead (by exact hq) rfl)), ackOkOf_iff _ _, rfl, rfl, rfl,
    ?_, rfl, rfl, rfl, rfl⟩
  exact apply_ite ErrorCode.code _ _ _

/-- Settles O43: acceptance to the poll, the polls up to the ready one, and the ACK with its completion. -/
theorem sendCommandRunsToItsAck : Obligations.SendCommandRunsToItsAck := by
  intro s cmd len w nots rb a rest hf hidle hv hdec hlen hcap hnots hrb hbound hfull ha
  have hpolls := run_pollingAck_ready (s := s.awaitingAck cmd len (nots.map (fun b => [b]) ++ [rb] :: a :: rest))
    ⟨hf, rfl⟩ rfl rfl hnots hrb hbound
  rw [show nots.length + 7 = 4 + (nots.length + 1 + 2) by omega,
    run_add 4 _ (run_send_awaitingAck hf hidle hv hdec hlen hcap ha), run_add _ 2 hpolls]
  exact run_readingAck ⟨hf, rfl⟩ rfl rfl hfull

/-! ## The used-up bound -/

/-- An ACK poll whose attempts all meet RDY = 0 completes two steps after the last of them, with no further transaction
(R124, R126, R138). -/
theorem run_pollingAck_timesOut {s : State} (hq : s.quiet) (h : s.isIn .pollingAck) {nots : List Byte}
    {rest : List (List Byte)} (ha : s.answers = nots.map (fun b => [b]) ++ rest)
    (hnot : ∀ b ∈ nots, statusRdy b = false) (hlen : nots.length = s.attCnt.toNat) :
    Host.Core.run Sys2Proof.core (nots.length + 2) s = .next (State.completeSend { s with
      attCnt := 0, rdy := if nots = [] then s.rdy else false, answers := rest,
      busLog := s.busLog ++ List.replicate nots.length (.read s.busAddr 1),
      state := FsmState.timeout.code } false .timeoutAck) := by
  have hzero : s.attCnt - BitVec.ofNat 16 nots.length = 0 := by
    rw [hlen, BitVec.ofNat_toNat, BitVec.setWidth_eq]
    exact BitVec.sub_self _
  rw [run_add _ 2 (run_polls_notReady hq (.inl h) ha hnot hlen.le), hzero,
    run_succ 1 ((step_inSend (by exact hq) (by exact h) rfl).trans (sendStep_pollingAck_zero rfl)),
    run_succ 0 (step_inSend (st := .timeout) (by exact hq) rfl rfl), run_zero]
  rfl

/-- Settles O44: acceptance to the poll, then the polls that use the bound up. -/
theorem sendCommandTimesOut : Obligations.SendCommandTimesOut := by
  intro s cmd len w nots rest hf hidle hv hdec hlen hcap hnots hbound ha
  have hempty : nots = [] ↔ s.params.maxAttemptsAck = 0 := by
    rw [← List.length_eq_zero_iff, hbound]
    exact (BitVec.toNat_eq (y := 0)).symm
  have hpolls := run_pollingAck_timesOut (s := s.awaitingAck cmd len (nots.map (fun b => [b]) ++ rest))
    ⟨hf, rfl⟩ rfl rfl hnots hbound
  rw [show nots.length + 6 = 4 + (nots.length + 2) by omega,
    run_add 4 _ (run_send_awaitingAck hf hidle hv hdec hlen hcap ha)]
  exact ⟨_, hpolls, rfl, rfl, rfl, rfl, rfl, rfl, if_congr hempty rfl rfl, rfl, rfl, rfl⟩

end Sys2Proof.Machine
end

section
/-!
Statelessness between operations: two cores in the same world that have accepted the same request hold the same values in the
registers the rest of the operation reads, so every step does the same in both (44_protocol_fsm.md R132).
-/

namespace Sys2Proof.Machine

/-! ## The same world -/

theorem SameWorld.quiet {s s' : State} (hw : SameWorld s s') (hq : s.quiet) : s'.quiet := by
  obtain ⟨-, hfault, hvalid, -⟩ := hw
  exact ⟨hfault.trans hq.1, hvalid.trans hq.2⟩

theorem SameWorld.isIn {s s' : State} (hw : SameWorld s s') {st : FsmState} (h : s.isIn st) : s'.isIn st := hw.1.trans h

theorem SameWorld.params {s s' : State} (hw : SameWorld s s') : s'.params = s.params := by
  obtain ⟨-, -, -, -, -, -, -, -, hparams, -⟩ := hw
  exact hparams

/-- The same payload is read from the same memory (R86). -/
theorem SameWorld.bufReads {s s' : State} (hw : SameWorld s s') (h : BufHandle) (n : Nat) :
    bufReads s' h n = bufReads s h n := by
  obtain ⟨-, -, -, -, -, -, -, hmem, -⟩ := hw
  exact congrArg (fun m => (List.range n).map fun i => Memory.read m (h.base + i)) hmem

/-- A transition, and what a transaction writes of the world, written alike in both. -/
theorem SameWorld.transaction {s s' : State} (hw : SameWorld s s') (st : FsmState) (rest : List (List Byte))
    (log : List Txn) (n : Nat) :
    SameWorld { s with state := st.code, answers := rest, busLog := log, drawCount := n }
      { s' with state := st.code, answers := rest, busLog := log, drawCount := n } := by
  obtain ⟨-, hfault, hvalid, hword, hbuf, -, -, hmem, hparams, haddr, -⟩ := hw
  exact ⟨rfl, hfault, hvalid, hword, hbuf, rfl, rfl, hmem, hparams, haddr, rfl⟩

/-- A core that waits waits in the same world too, its polls with the same attempts left (R50, R130). -/
theorem SameWorld.waits {s s' : State} (hw : SameWorld s s')
    (hn : s.isIn .pollingAck ∨ s.isIn .pollingResp → s'.attCnt = s.attCnt) (h : Waits s) : Waits s' := by
  obtain ⟨hstate, -, hvalid, -, -, hans, -⟩ := hw
  obtain ⟨hv, hidle | ⟨ha, hbus⟩⟩ := h
  · exact ⟨hvalid.trans hv, .inl (hstate.trans hidle)⟩
  · simp only [Waits, State.isIn, hstate, hvalid, hans]
    exact ⟨hv, .inr ⟨ha, hbus.imp_right (.imp_right (.imp_right fun ⟨hpoll, h0⟩ => ⟨hpoll, hn hpoll ▸ h0⟩))⟩⟩

/-! ## The registers an operation still reads -/

/-- Both cores hold the same values in the registers, besides the world, that an operation in this FSM state still reads
(R121, R127). In IDLE the operation has completed: both show `done` and the same error. -/
def SameOperands (s s' : State) : FsmState → Prop
  | .idle => s.done = true ∧ s'.done = true ∧ s'.lastErr = s.lastErr
  | .encoding => s'.curCmd = s.curCmd ∧ s'.curLen = s.curLen ∧ s'.curBuf = s.curBuf
  | .transmitting => s'.txFrame = s.txFrame
  | .pollingAck => s'.attCnt = s.attCnt
  | .pollingResp => s'.attCnt = s.attCnt ∧ s'.curLen = s.curLen ∧ s'.curBuf = s.curBuf
  | .readingResponse => s'.timedOut = s.timedOut ∧ s'.curLen = s.curLen ∧ s'.curBuf = s.curBuf
  | .invalid => receiveError s' = receiveError s
  | .settling | .readingAck | .acked | .notAcked | .timeout | .valid => True

/-- Two cores in the same world that, unless the run has ended in a fault, are at the same point of the same operation or have
both completed it. -/
def Aligned (s s' : State) : Prop :=
  SameWorld s s' ∧ (s.faultRecord = none → s.reqValid = false ∧ ∃ st, s.isIn st ∧ SameOperands s s' st)

theorem SameWorld.aligned {s s' : State} (hw : SameWorld s s') (hv : s.reqValid = false) {st : FsmState} (h : s.isIn st)
    (ho : SameOperands s s' st) : Aligned s s' := ⟨hw, fun _ => ⟨hv, st, h, ho⟩⟩

/-- One step each leads to aligned cores. -/
def StepsAligned (s s' : State) : Prop := ∃ t t', step s = .next t ∧ step s' = .next t' ∧ Aligned t t'

/-- A core is in one state only (R22). -/
theorem isIn_unique {s : State} {a b : FsmState} (ha : s.isIn a) (hb : s.isIn b) : a = b :=
  (FsmState.code_inj a b).1 ((show s.state = a.code from ha).symm.trans hb)

/-! ## Acceptance -/

/-- A violation of the request port ends both runs. -/
theorem SameWorld.raise_aligned {s s' : State} (hw : SameWorld s s') (f : ModelFault) :
    Aligned (s.raise f) (s'.raise f) := by
  obtain ⟨hstate, hfault, hworld⟩ := hw
  exact ⟨⟨hstate, by rw [State.raise_faultRecord, State.raise_faultRecord, hfault], hworld⟩, fun h => nomatch h⟩

/-- Acceptance latches the same request from the same port (R119). -/
theorem SameWorld.latch {s s' : State} (hw : SameWorld s s') (op : BitVec 4) (cmd len : Byte) (st : FsmState) :
    SameWorld ((s.latchRequest op cmd len).goto st) ((s'.latchRequest op cmd len).goto st) := by
  obtain ⟨-, hfault, -, hworld⟩ := hw
  exact ⟨rfl, hfault, rfl, hworld⟩

/-- The step that meets a request in IDLE. -/
theorem stepsAligned_presented {s s' t : State} (hw : SameWorld s s') (hidle : s.isIn .idle) (hv : s.reqValid = true)
    (hs : step s = .next t) : StepsAligned s s' := by
  have hidle' := hw.isIn hidle
  have ⟨_, hfault, hvalid, hword, hbuf, _⟩ := hw
  have hv' := hvalid.trans hv
  cases step_case hs with
  | waits hf h ht => exact nomatch hv.symm.trans h.1
  | illegalState hf h ht => exact nomatch ((FsmState.ofCode_none_iff _).2 h).symm.trans (ofCode_of_isIn hidle)
  | busy hf _ st h hi ht => exact absurd (isIn_unique h hidle) hi
  | illegalOp hf _ h e he ht =>
    exact ⟨_, _, step_illegalWord hf hv hidle he, step_illegalWord (hfault.trans hf) hv' hidle' (hword ▸ he),
      hw.raise_aligned _⟩
  | payloadLen hf _ h cmd len he hl ht =>
    exact ⟨_, _, step_oversizedPayload hf hv hidle he hl,
      step_oversizedPayload (hfault.trans hf) hv' hidle' (hword ▸ he) hl, hw.raise_aligned _⟩
  | acceptSend hf _ h cmd len he hl ht =>
    exact ⟨_, _, step_acceptSend hf hv hidle he hl, step_acceptSend (hfault.trans hf) hv' hidle' (hword ▸ he) hl,
      SameWorld.aligned (hw.latch ..) rfl (st := .encoding) rfl ⟨rfl, rfl, hbuf⟩⟩
  | acceptReceive hf _ h len he ht =>
    exact ⟨_, _, step_acceptReceive hf hv hidle he, step_acceptReceive (hfault.trans hf) hv' hidle' (hword ▸ he),
      SameWorld.aligned (hw.latch opReceive 0x00 len .pollingResp) rfl (st := .pollingResp) rfl
        ⟨congrArg Params.maxAttemptsResp hw.params, rfl, hbuf⟩⟩
  | _ => exact nomatch hv.symm.trans (And.right ‹s.quiet›)

/-! ## The bus steps -/

theorem stepsAligned_transmitting {s s' : State} (hw : SameWorld s s') (hq : s.quiet) (h : s.isIn .transmitting)
    (ho : SameOperands s s' .transmitting) {d : List Byte} {rest : List (List Byte)} (ha : s.answers = d :: rest) :
    StepsAligned s s' := by
  have ⟨_, hfault, hvalid, hword, hbuf, hans, hlog, hmem, hparams, haddr, hdraw⟩ := hw
  refine ⟨_, _, step_transmitting hq h ha, step_transmitting (hw.quiet hq) (hw.isIn h) (hans.trans ha), ?_⟩
  rw [haddr, show s'.txFrame = s.txFrame from ho]
  exact SameWorld.aligned
    ⟨rfl, hfault, hvalid, hword, hbuf, rfl, congrArg (· ++ [_]) hlog, hmem, hparams, haddr, hdraw⟩
    hq.2 (st := .settling) rfl trivial

theorem stepsAligned_pollingAck {s s' : State} (hw : SameWorld s s') (hq : s.quiet) (h : s.isIn .pollingAck)
    (ho : SameOperands s s' .pollingAck) (h0 : s.attCnt ≠ 0) {d : List Byte} {rest : List (List Byte)}
    (ha : s.answers = d :: rest) : StepsAligned s s' := by
  have h' := hw.isIn h
  obtain ⟨r, n, log, hpoll, hpoll'⟩ := pollOnce_agree hw ho h0 d rest ha
  refine ⟨_, _, (step_inSend hq h rfl).trans (sendStep_pollingAck_answered hpoll h),
    (step_inSend (hw.quiet hq) h' rfl).trans (sendStep_pollingAck_answered hpoll' h'), ?_⟩
  cases r with
  | false => exact SameWorld.aligned (hw.transaction .pollingAck rest log n) hq.2 (st := .pollingAck) rfl rfl
  | true => exact SameWorld.aligned (hw.transaction .readingAck rest log n) hq.2 (st := .readingAck) rfl trivial

theorem stepsAligned_readingAck {s s' : State} (hw : SameWorld s s') (hq : s.quiet) (h : s.isIn .readingAck)
    {d : List Byte} {rest : List (List Byte)} (ha : s.answers = d :: rest) : StepsAligned s s' := by
  obtain ⟨ok, n, log, hread, hread'⟩ := readAckOp_agree hw d rest ha
  have hs : step s = _ := step_inSend hq h rfl
  have hs' : step s' = _ := step_inSend (hw.quiet hq) (hw.isIn h) rfl
  rw [sendStep, hread] at hs
  rw [sendStep, hread'] at hs'
  refine ⟨_, _, hs, hs', ?_⟩
  cases ok with
  | false => exact SameWorld.aligned (hw.transaction .notAcked rest log n) hq.2 (st := .notAcked) rfl trivial
  | true => exact SameWorld.aligned (hw.transaction .acked rest log n) hq.2 (st := .acked) rfl trivial

theorem stepsAligned_pollingResp {s s' : State} (hw : SameWorld s s') (hq : s.quiet) (h : s.isIn .pollingResp)
    (ho : SameOperands s s' .pollingResp) (h0 : s.attCnt ≠ 0) {d : List Byte} {rest : List (List Byte)}
    (ha : s.answers = d :: rest) : StepsAligned s s' := by
  have h' := hw.isIn h
  obtain ⟨hcnt, hlen, hbuf⟩ := ho
  obtain ⟨r, n, log, hpoll, hpoll'⟩ := pollOnce_agree hw hcnt h0 d rest ha
  refine ⟨_, _, (step_inReceive hq h rfl).trans (receiveStep_pollingResp_answered hpoll h),
    (step_inReceive (hw.quiet hq) h' rfl).trans (receiveStep_pollingResp_answered hpoll' h'), ?_⟩
  cases r with
  | false =>
    exact SameWorld.aligned (hw.transaction .pollingResp rest log n) hq.2 (st := .pollingResp) rfl ⟨rfl, hlen, hbuf⟩
  | true =>
    exact SameWorld.aligned (hw.transaction .readingResponse rest log n) hq.2 (st := .readingResponse) rfl
      ⟨rfl, hlen, hbuf⟩

theorem receiveError_congr {s s' : State} (ht : s'.timedOut = s.timedOut) (hh : s'.hdrOk = s.hdrOk) :
    receiveError s' = receiveError s := by
  simp only [receiveError, ht, hh]

theorem stepsAligned_readingResponse {s s' : State} (hw : SameWorld s s') (hq : s.quiet) (h : s.isIn .readingResponse)
    (ho : SameOperands s s' .readingResponse) {d : List Byte} {rest : List (List Byte)} (ha : s.answers = d :: rest)
    (hc : s.curLen.toNat ≤ s.curBuf.cap) : StepsAligned s s' := by
  obtain ⟨hto, hlen, hbuf⟩ := ho
  obtain ⟨len, lcs, tfi, dcs, rem, sum, hok, dok, m, n, log, hread, hread'⟩ :=
    readResponseOp_agree hw hlen hbuf d rest ha hc
  have hs : step s = _ := step_inReceive hq h rfl
  have hs' : step s' = _ := step_inReceive (hw.quiet hq) (hw.isIn h) rfl
  rw [receiveStep, hread] at hs
  rw [receiveStep, hread'] at hs'
  refine ⟨_, _, hs, hs', ?_⟩
  obtain ⟨-, hfault, hvalid, hword, hreqBuf, -, -, -, hparams, haddr, -⟩ := hw
  refine SameWorld.aligned ⟨rfl, hfault, hvalid, hword, hreqBuf, rfl, rfl, rfl, hparams, haddr, rfl⟩ hq.2 rfl ?_
  show SameOperands _ _ (if hok && dok then .valid else .invalid)
  cases hok && dok with
  | false => exact receiveError_congr hto rfl
  | true => trivial

/-! ## Every step and every run -/

/-- A core that has a step has no fault recorded (R147). -/
theorem faultRecord_of_step {s t : State} (hs : step s = .next t) : s.faultRecord = none := by
  cases hf : s.faultRecord with
  | none => rfl
  | some f => exact nomatch (step_of_fault hf).symm.trans hs

/-- The end of an unanswered response poll: the same policy, and the same timeout noted (R128). -/
theorem stepsAligned_responseTimeout {s s' : State} (hw : SameWorld s s') (hq : s.quiet) (h : s.isIn .pollingResp)
    (ho : SameOperands s s' .pollingResp) (h0 : s.attCnt = 0) : StepsAligned s s' := by
  obtain ⟨hcnt, hlen, hbuf⟩ := ho
  refine ⟨_, _, (step_inReceive hq h rfl).trans (receiveStep_pollingResp_zero h0),
    (step_inReceive (hw.quiet hq) (hw.isIn h) rfl).trans (receiveStep_pollingResp_zero (hcnt.trans h0)), ?_⟩
  cases hp : s.params.respTimeoutPolicy with
  | abort =>
    rw [responseTimeout_abort hp, responseTimeout_abort (hw.params ▸ hp)]
    exact SameWorld.aligned ⟨rfl, hw.2⟩ hq.2 (st := .invalid) rfl rfl
  | readAnyway =>
    rw [responseTimeout_readAnyway hp, responseTimeout_readAnyway (hw.params ▸ hp)]
    exact SameWorld.aligned ⟨rfl, hw.2⟩ hq.2 (st := .readingResponse) rfl ⟨rfl, hlen, hbuf⟩

/-- Aligned cores, one of which has a step, stay aligned: each row of R130's table reads only what they share. -/
theorem Aligned.stepsAligned {s s' t : State} (hal : Aligned s s') (hs : step s = .next t) : StepsAligned s s' := by
  have hf := faultRecord_of_step hs
  have hw := hal.1
  obtain ⟨hv, st, hst, ho⟩ := hal.2 hf
  have hst' := hw.isIn hst
  have hq : s.quiet := ⟨hf, hv⟩
  have hq' := hw.quiet hq
  cases step_case hs with
  | waits _ h ht =>
    have hn : s.isIn .pollingAck ∨ s.isIn .pollingResp → s'.attCnt = s.attCnt := by
      rintro (h | h)
      · cases isIn_unique hst h
        exact ho
      · cases isIn_unique hst h
        exact ho.1
    exact ⟨s, s', noStepWithoutRequestOrAnswer s hf h, noStepWithoutRequestOrAnswer s' hq'.1 (hw.waits hn h), hal⟩
  | illegalState _ h ht => exact nomatch ((FsmState.ofCode_none_iff _).2 h).symm.trans (ofCode_of_isIn hst)
  | busy _ hv' | illegalOp _ hv' | payloadLen _ hv' | acceptSend _ hv' | acceptReceive _ hv' =>
    exact nomatch hv.symm.trans hv'
  | encoding _ h hc ht =>
    cases isIn_unique hst h
    obtain ⟨hcmd, hlen, hbuf⟩ := ho
    refine ⟨_, _, step_encoding hq hst hc, step_encoding hq' hst' (by rw [hlen, hbuf]; exact hc), ?_⟩
    rw [hcmd, hlen, hbuf, hw.bufReads]
    exact SameWorld.aligned ⟨rfl, hw.2⟩ hv (st := .transmitting) rfl rfl
  | transmitting _ h d rest ha ht =>
    cases isIn_unique hst h
    exact stepsAligned_transmitting hw hq hst ho ha
  | settling _ h ht =>
    cases isIn_unique hst h
    exact ⟨_, _, step_settling hq hst, step_settling hq' hst',
      SameWorld.aligned ⟨rfl, hw.2⟩ hv (st := .pollingAck) rfl (congrArg Params.maxAttemptsAck hw.params)⟩
  | ackTimesOut _ h h0 ht =>
    cases isIn_unique hst h
    exact ⟨_, _, (step_inSend hq hst rfl).trans (sendStep_pollingAck_zero h0),
      (step_inSend hq' hst' rfl).trans (sendStep_pollingAck_zero (Eq.trans ho h0)),
      SameWorld.aligned ⟨rfl, hw.2⟩ hv (st := .timeout) rfl trivial⟩
  | pollsAck _ h h0 d rest ha r ht =>
    cases isIn_unique hst h
    exact stepsAligned_pollingAck hw hq hst ho h0 ha
  | readsAck _ h d rest ha ok ht => exact stepsAligned_readingAck hw hq h ha
  | acked _ h ht | notAcked _ h ht | timeout _ h ht =>
    exact ⟨_, _, step_inSend hq h rfl, step_inSend hq' (hw.isIn h) rfl,
      SameWorld.aligned ⟨rfl, hw.2⟩ hv (st := .idle) rfl ⟨rfl, rfl, rfl⟩⟩
  | respTimesOut _ h h0 ht =>
    cases isIn_unique hst h
    exact stepsAligned_responseTimeout hw hq hst ho h0
  | pollsResp _ h h0 d rest ha r ht =>
    cases isIn_unique hst h
    exact stepsAligned_pollingResp hw hq hst ho h0 ha
  | readsResponse _ h d rest ha hc =>
    cases isIn_unique hst h
    exact stepsAligned_readingResponse hw hq hst ho ha hc
  | valid _ h ht =>
    exact ⟨_, _, step_valid hq h, step_valid hq' (hw.isIn h),
      SameWorld.aligned ⟨rfl, hw.2⟩ hv (st := .idle) rfl ⟨rfl, rfl, rfl⟩⟩
  | invalid _ h ht =>
    cases isIn_unique hst h
    exact ⟨_, _, step_inReceive hq h rfl, step_inReceive hq' hst' rfl,
      SameWorld.aligned ⟨rfl, hw.2⟩ hv (st := .idle) rfl ⟨rfl, rfl, congrArg ErrorCode.code ho⟩⟩

/-- A run of k + 1 steps that ends in a state has a first step. -/
theorem exists_step_of_run_succ {k : Nat} {s t : State} (h : Host.Core.run Sys2Proof.core (k + 1) s = .next t) :
    ∃ u, step s = .next u ∧ Host.Core.run Sys2Proof.core k u = .next t := by
  have key : ∀ (M : Host.Core) (s t : M.State), M.run (k + 1) s = .next t →
      ∃ u, M.step s = .next u ∧ M.run k u = .next t := by
    intro M s t h
    simp only [Host.Core.run] at h
    split at h
    · exact ⟨_, ‹_›, h⟩
    · cases h
    · cases h
  exact key Sys2Proof.core s t h

theorem Aligned.run {k : Nat} {s s' t : State} (hal : Aligned s s') (h : Host.Core.run Sys2Proof.core k s = .next t) :
    ∃ t', Host.Core.run Sys2Proof.core k s' = .next t' ∧ Aligned t t' := by
  induction k generalizing s s' with
  | zero =>
    cases h
    exact ⟨s', rfl, hal⟩
  | succ k ih =>
    obtain ⟨u, hs, hrun⟩ := exists_step_of_run_succ h
    obtain ⟨v, v', hv, hv', hal'⟩ := hal.stepsAligned hs
    cases hs.symm.trans hv
    obtain ⟨t', hrun', halt⟩ := ih hal' hrun
    exact ⟨t', (run_succ k hv').trans hrun', halt⟩

/-- Aligned cores that are idle have completed, with the same error. -/
theorem Aligned.results {s s' : State} (hal : Aligned s s') (hf : s.faultRecord = none) (h : s.isIn .idle) :
    s.done = true ∧ s'.done = true ∧ s'.lastErr = s.lastErr := by
  obtain ⟨-, st, hst, ho⟩ := hal.2 hf
  cases isIn_unique hst h
  exact ho

theorem run_idle_without_request {s : State} (hq : s.quiet) (h : s.isIn .idle) (k : Nat) :
    Host.Core.run Sys2Proof.core k s = .next s := by
  induction k with
  | zero => rfl
  | succ k ih => exact (run_succ k (step_idle_without_request hq h)).trans ih

/-- Settles O47: with no request both cores stay as they are; the step that meets one aligns them, and they stay aligned. -/
theorem operationsAreStateless : Obligations.OperationsAreStateless := by
  intro s s' t k hidle hw hrun
  cases k with
  | zero =>
    cases hrun
    exact ⟨s', rfl, hw, fun _ hk => absurd hk (Nat.not_succ_le_zero 0)⟩
  | succ k =>
    obtain ⟨u, hs, hrest⟩ := exists_step_of_run_succ hrun
    cases hv : s.reqValid with
    | false =>
      have hq : s.quiet := ⟨faultRecord_of_step hs, hv⟩
      cases hrun.symm.trans (run_idle_without_request hq hidle (k + 1))
      exact ⟨s', run_idle_without_request (hw.quiet hq) (hw.isIn hidle) (k + 1), hw, fun h => nomatch h⟩
    | true =>
      obtain ⟨v, v', hv1, hv', hal⟩ := stepsAligned_presented hw hidle hv hs
      cases hs.symm.trans hv1
      obtain ⟨t', hrun', halt⟩ := hal.run hrest
      exact ⟨t', (run_succ k hv').trans hrun', halt.1, fun _ _ hi hf => halt.results hf hi⟩

end Sys2Proof.Machine
end

section
/-!
Reset, asserted at any time: that it establishes the invariant, and what it leaves in the registers, at the ports and in the
caller's memory (70_reset_and_hazards.md R153, R154).
-/

namespace Sys2Proof.Machine

/-! ## The invariant -/

/-- An idle core meets the invariant where the clauses that speak of no FSM state hold: R130 asks nothing more of IDLE. -/
theorem inv_of_idle {s : State} (h : s.isIn .idle) (hs : s.Static) : s.Inv := (inv_iff h).2 ⟨hs, trivial⟩

theorem assertReset_isIn_idle (s : State) : s.assertReset.isIn .idle := rfl

/-- Reset keeps memory canonical, loads `bus_addr` from the parameters and clears `last_err`. -/
theorem assertReset_static {s : State} (hw : MemoryInv s) : s.assertReset.Static :=
  ⟨assertReset_wf s hw, rfl, Nat.zero_le _⟩

/-- Settles O11: both states are idle, with canonical memory, `bus_addr` the parameter and no error. -/
theorem resetEstablishesTheInvariant : Obligations.ResetEstablishesTheInvariant :=
  ⟨inv_of_idle rfl ⟨reset_mem_wf, rfl, Nat.zero_le _⟩,
    fun s hw => inv_of_idle (assertReset_isIn_idle s) (assertReset_static hw)⟩

/-! ## The values -/

theorem FsmState.inReceive_iff (st : FsmState) :
    st.inReceive = true ↔ 0x9 ≤ st.code.toNat ∧ st.code.toNat ≤ 0xC := by
  cases st <;> decide

/-- The core is receiving exactly in the codes of a RECEIVE_RESPONSE in progress; a code that is no state is above them
(R22, R23). -/
theorem receiving_iff_inReply (s : State) : s.receiving = true ↔ s.inReply := by
  rcases isIn_or_illegal s with ⟨st, h⟩ | h
  · rw [State.receiving, ofCode_of_isIn h, State.inReply, show s.state = st.code from h]
    exact st.inReceive_iff
  · rw [State.receiving, (FsmState.ofCode_none_iff _).2 h]
    exact ⟨Bool.noConfusion, fun hr => absurd hr.2 (by omega)⟩

/-- What reset does to memory (R154). -/
theorem assertReset_mem_spec {s : State} (hw : MemoryInv s) :
    (s.inReply → ∀ k, k < s.curBuf.cap →
      Memory.read s.assertReset.mem (s.curBuf.base + k) = Config.draw (s.drawCount + k)) ∧
    (∀ a, (¬ s.inReply ∨ a < s.curBuf.base ∨ s.curBuf.base + s.curBuf.cap ≤ a) →
      Memory.read s.assertReset.mem a = Memory.read s.mem a) := by
  obtain ⟨m, k, habandon, hinside, houtside⟩ := abandonDestination_spec s hw
  have hmem : s.assertReset.mem = m := congrArg State.mem habandon
  rw [hmem, ← receiving_iff_inReply, Bool.not_eq_true]
  exact ⟨hinside, houtside⟩

/-- Abandoning a destination writes memory only, so reset leaves the ports as they were (R154). -/
theorem assertReset_ports (s : State) :
    s.assertReset.answers = s.answers ∧ s.assertReset.busLog = s.busLog ∧ s.assertReset.reqValid = s.reqValid := by
  unfold State.assertReset abandonDestination
  split
  · exact ⟨rfl, rfl, rfl⟩
  · exact ⟨rfl, rfl, rfl⟩

/-- Settles O54: the registers take constants, the ports, the record and the parameters are kept, and memory is as R154
says. -/
theorem resetLeavesTheSpecifiedValues : Obligations.ResetLeavesTheSpecifiedValues := by
  intro s hw
  obtain ⟨haddr, hparams⟩ := assertReset_configuration s
  obtain ⟨hanswers, hlog, hvalid⟩ := assertReset_ports s
  have hfault := s.assertReset_faultRecord
  have hstep (hq : s.quiet) : step s.assertReset = .next s.assertReset :=
    step_idle_without_request ⟨hfault.trans hq.1, hvalid.trans hq.2⟩ (assertReset_isIn_idle s)
  exact ⟨rfl, haddr, rfl, rfl, rfl, rfl, rfl, rfl, rfl, rfl, rfl, hanswers, hlog, hfault, hparams, hstep,
    assertReset_mem_spec hw⟩

end Sys2Proof.Machine
end

section
/-!
Termination: a core whose transport answers completes the request it has accepted within its bound, whatever the answers
hold (70_reset_and_hazards.md R161).
-/

namespace Sys2Proof.Machine

/-! ## Completing within a number of steps -/

/-- Within `n` steps the core is idle with `done` set (R34, R161). -/
def State.CompletesWithin (s : State) (n : Nat) : Prop :=
  ∃ k t, k ≤ n ∧ Host.Core.run Sys2Proof.core k s = .next t ∧ t.isIn .idle ∧ t.done = true

theorem State.CompletesWithin.mono {s : State} {m n : Nat} (h : s.CompletesWithin m) (hle : m ≤ n) :
    s.CompletesWithin n := by
  obtain ⟨k, t, hk, hrun⟩ := h
  exact ⟨k, t, hk.trans hle, hrun⟩

theorem completesWithin_of_step {s u : State} {n : Nat} (hs : step s = .next u) (h : u.CompletesWithin n) :
    s.CompletesWithin (n + 1) := by
  obtain ⟨k, t, hk, hrun, hdone⟩ := h
  exact ⟨k + 1, t, Nat.succ_le_succ hk, (run_succ k hs).trans hrun, hdone⟩

theorem completesWithin_of_run {s u : State} {a n : Nat} (hr : Host.Core.run Sys2Proof.core a s = .next u)
    (h : u.CompletesWithin n) : s.CompletesWithin (a + n) := by
  obtain ⟨k, t, hk, hrun, hdone⟩ := h
  exact ⟨a + k, t, Nat.add_le_add_left hk a, (run_add a k hr).trans hrun, hdone⟩

theorem completesWithin_one {s t : State} (hs : step s = .next t) (h : t.isIn .idle) (hd : t.done = true) :
    s.CompletesWithin 1 :=
  ⟨1, t, le_rfl, run_succ 0 hs, h, hd⟩

/-! ## The attempts left -/

/-- An answered poll uses one attempt and one answer: as many answers are left beyond the attempts as before (R96). -/
theorem polledTimes_one_left {n : Nat} {s : State} (hn : s.attCnt.toNat = n + 1) (ha : n + 2 ≤ s.answers.length)
    (r : Bool) : (s.polledTimes 1 r).attCnt.toNat = n ∧ n + 1 ≤ (s.polledTimes 1 r).answers.length := by
  constructor
  · change (s.attCnt - 1).toNat = n
    bv_omega
  · change n + 1 ≤ (s.answers.drop 1).length
    rw [List.length_drop]
    omega

/-- A poll with attempts and answers left reads one status byte. -/
theorem pollOnce_left {n : Nat} {s : State} (hn : s.attCnt.toNat = n + 1) (ha : n + 2 ≤ s.answers.length) :
    ∃ r, pollOnce s = (if r then .ready else .again, s.polledTimes 1 r) := by
  have h0 : s.attCnt ≠ 0 := fun h0 => by simp [h0] at hn
  obtain ⟨d, rest, hd⟩ := List.exists_cons_of_length_pos (l := s.answers) (by omega)
  exact ⟨_, pollOnce_polledTimes h0 hd rfl⟩

/-! ## SEND_COMMAND -/

/-- The ACK read, whatever it delivers, and the completion (R125, R126). -/
theorem completesWithin_readingAck {s : State} (hq : s.quiet) (h : s.isIn .readingAck) (ha : s.answers ≠ []) :
    s.CompletesWithin 2 := by
  obtain ⟨d, rest, hd⟩ := List.exists_cons_of_ne_nil ha
  have hread : step s = _ := step_inSend hq h rfl
  rw [sendStep, readAckOp_cons s d rest hd] at hread
  exact completesWithin_of_step hread (completesWithin_one (step_ackRead (by exact hq) rfl) rfl rfl)

/-- The ACK poll uses its attempts up, or goes on to the ACK before it has (R124). -/
theorem completesWithin_pollingAck {n : Nat} {s : State} (hq : s.quiet) (h : s.isIn .pollingAck)
    (hn : s.attCnt.toNat = n) (ha : n + 1 ≤ s.answers.length) : s.CompletesWithin (n + 2) := by
  induction n generalizing s with
  | zero =>
    have hout : step s = .next (s.goto .timeout) :=
      (step_inSend hq h rfl).trans (sendStep_pollingAck_zero (BitVec.eq_of_toNat_eq hn))
    exact completesWithin_of_step hout
      (completesWithin_one (step_inSend (st := .timeout) (by exact hq) rfl rfl) rfl rfl)
  | succ n ih =>
    obtain ⟨r, hpoll⟩ := pollOnce_left hn ha
    obtain ⟨hleft, hans⟩ := polledTimes_one_left hn ha r
    refine completesWithin_of_step ((step_inSend hq h rfl).trans (sendStep_pollingAck_answered hpoll h)) ?_
    cases r with
    | false => exact ih hq rfl hleft hans
    | true =>
      have hans' := List.ne_nil_of_length_pos (Nat.zero_lt_of_lt hans)
      exact State.CompletesWithin.mono (completesWithin_readingAck hq rfl hans') (Nat.le_add_left 2 n)

/-- An accepted SEND_COMMAND whose write and polls are answered (R121, R161). -/
theorem completesWithin_acceptedSend {s : State} {cmd len : Byte} (hf : s.faultRecord = none)
    (hc : len.toNat ≤ s.reqBuf.cap) (ha : s.params.maxAttemptsAck.toNat + 2 ≤ s.answers.length) :
    ((s.latchRequest opSend cmd len).goto .encoding).CompletesWithin (s.params.maxAttemptsAck.toNat + 5) := by
  obtain ⟨w, rest, hw⟩ := List.exists_cons_of_length_pos (l := s.answers) (by omega)
  have hrest : s.params.maxAttemptsAck.toNat + 1 ≤ rest.length := by
    rw [hw, List.length_cons] at ha
    omega
  have hpoll : (s.awaitingAck cmd len rest).CompletesWithin (s.params.maxAttemptsAck.toNat + 2) :=
    completesWithin_pollingAck ⟨hf, rfl⟩ rfl rfl hrest
  exact (completesWithin_of_run (run_encoding_awaitingAck hf hc hw) hpoll).mono (by omega)

/-! ## RECEIVE_RESPONSE -/

/-- The completion of a RECEIVE_RESPONSE, whatever its reply read found (R129). -/
theorem completesWithin_replyRead {s : State} (hq : s.quiet) {ok : Bool}
    (h : s.isIn (if ok then .valid else .invalid)) : s.CompletesWithin 1 := by
  cases ok with
  | false => exact completesWithin_one (step_inReceive (st := .invalid) hq h rfl) rfl rfl
  | true => exact completesWithin_one (step_valid hq h) rfl rfl

/-- The reply read, whatever it delivers, and the completion (R129). -/
theorem completesWithin_readingResponse {s : State} (hq : s.quiet) (h : s.isIn .readingResponse) (ha : s.answers ≠ [])
    (hc : s.curLen.toNat ≤ s.curBuf.cap) : s.CompletesWithin 2 := by
  obtain ⟨d, rest, hd⟩ := List.exists_cons_of_ne_nil ha
  obtain ⟨m, k, hrun, -⟩ := readResponseOp_spec s d rest hd hc rfl rfl rfl
  have hread : step s = _ := step_inReceive hq h rfl
  rw [receiveStep, hrun] at hread
  exact completesWithin_of_step hread (completesWithin_replyRead (by exact hq) rfl)

/-- The end of an unanswered response poll leads to the completion, through the reply read or not by policy (R128). -/
theorem completesWithin_responseTimeout {s : State} (hq : s.quiet) (ha : s.answers ≠ [])
    (hc : s.curLen.toNat ≤ s.curBuf.cap) : (responseTimeout s).CompletesWithin 2 := by
  cases hp : s.params.respTimeoutPolicy with
  | abort =>
    rw [responseTimeout_abort hp]
    exact (completesWithin_replyRead (ok := false) (by exact hq) rfl).mono one_le_two
  | readAnyway =>
    rw [responseTimeout_readAnyway hp]
    exact completesWithin_readingResponse (by exact hq) rfl ha hc

/-- The response poll uses its attempts up, or goes on to the reply before it has (R128). -/
theorem completesWithin_pollingResp {n : Nat} {s : State} (hq : s.quiet) (h : s.isIn .pollingResp)
    (hc : s.curLen.toNat ≤ s.curBuf.cap) (hn : s.attCnt.toNat = n) (ha : n + 1 ≤ s.answers.length) :
    s.CompletesWithin (n + 3) := by
  induction n generalizing s with
  | zero =>
    have hout : step s = .next (responseTimeout s) :=
      (step_inReceive hq h rfl).trans (receiveStep_pollingResp_zero (BitVec.eq_of_toNat_eq hn))
    exact completesWithin_of_step hout (completesWithin_responseTimeout hq (List.ne_nil_of_length_pos ha) hc)
  | succ n ih =>
    obtain ⟨r, hpoll⟩ := pollOnce_left hn ha
    obtain ⟨hleft, hans⟩ := polledTimes_one_left hn ha r
    refine completesWithin_of_step ((step_inReceive hq h rfl).trans (receiveStep_pollingResp_answered hpoll h)) ?_
    cases r with
    | false => exact ih hq rfl hc hleft hans
    | true =>
      have hans' := List.ne_nil_of_length_pos (Nat.zero_lt_of_lt hans)
      exact State.CompletesWithin.mono (completesWithin_readingResponse hq rfl hans' hc) (Nat.le_add_left 2 (n + 1))

/-- Settles O46: acceptance, then the write and the polls of a SEND_COMMAND, or the polls of a RECEIVE_RESPONSE with the
bound loaded. -/
theorem answeredRequestsTerminate : Obligations.AnsweredRequestsTerminate := by
  refine fun s hf hidle hv => ⟨fun cmd len hdec hlen hcap ha => ?_, fun len hdec hcap ha => ?_⟩
  · obtain ⟨k, t, hk, hrun, hdone⟩ := completesWithin_acceptedSend (cmd := cmd) hf hcap ha
    exact ⟨k, t, hk, (run_succ k (step_acceptSend hf hv hidle hdec hlen)).trans hrun, hdone⟩
  · have haccepted := completesWithin_pollingResp
      (s := ((s.latchRequest opReceive 0x00 len).loadAttempts s.params.maxAttemptsResp).goto .pollingResp)
      ⟨hf, rfl⟩ rfl hcap rfl ha
    obtain ⟨k, t, hk, hrun, hdone⟩ := haccepted
    exact ⟨k, t, hk, (run_succ k (step_acceptReceive hf hv hidle hdec)).trans hrun, hdone⟩

end Sys2Proof.Machine
end
